-- ==== Sys2Proof/Word.lean ====
section
/-! DEFINITION. The word widths of the core (00_scope.md R6): the addressable byte, the 32-bit
address, the 224-bit command word and the 32-bit response word. -/

namespace Sys2Proof

/-- BYTE and TW of R6: one addressable memory unit, and the width of every per-byte temporary. -/
abbrev Byte := BitVec 8

/-- AW of R6: a 32-bit memory address; its arithmetic wraps modulo `2^32` (R33). -/
abbrev Addr := BitVec 32

/-- CWLEN of R6: a command word of 224 bits, `W0` lowest (R51). -/
abbrev CommandWord := BitVec 224

/-- RWLEN of R6: a response word of 32 bits (R55). -/
abbrev ResponseWord := BitVec 32

end Sys2Proof
end

