-- ==== Sys2Proof/Syntax.lean ====
section
/-! DEFINITION. The commands of BTX version 1 as syntax: one constructor of `Instr` for each of the
19 rows of opcode_table.json (the 18 terminal routines of 30_encoding.md R57 and XPOSE, R50), and the
seven status names of 60_exceptions.md R170. -/

namespace Sys2Proof

/-- The statuses of R170, in the order of their codes. -/
inductive Status where
  | ok
  | invalidBitDepth
  | invalidPlaneCount
  | unsupportedCombination
  | rangeCheck
  | invalidArgument
  | illegalCommand
deriving DecidableEq, Repr

/-- The depth set `D = {1, 2, 4, 8, 12, 16}` of R6 and R82: the depths that have a routine. -/
inductive Depth where
  | d1 | d2 | d4 | d8 | d12 | d16
deriving DecidableEq, Repr

/-- The number of bits of a depth. -/
def Depth.bits : Depth → Nat
  | .d1 => 1
  | .d2 => 2
  | .d4 => 4
  | .d8 => 8
  | .d12 => 12
  | .d16 => 16

/-- The four operands every TRANSCODE routine has beside its plane count and depth (R52). OUT, PTAB and
OFFSET are unsigned; `nbytes` is the raw field, which R56 reads as a two's complement number. -/
structure TransferArgs where
  out    : BitVec 32
  ptab   : BitVec 32
  offset : BitVec 32
  nbytes : BitVec 32
deriving DecidableEq, Repr

/-- One constructor per row of opcode_table.json. The fixed families fix NPLANES and BPS (R62); the
generic rows fix BPS and carry the NPLANES field `np`; XPOSE carries the four operands of R53. -/
inductive Instr where
  | flip3x1 (a : TransferArgs)
  | flip3x2 (a : TransferArgs)
  | flip3x4 (a : TransferArgs)
  | flip3x8 (a : TransferArgs)
  | flip3x12 (a : TransferArgs)
  | flip3x16 (a : TransferArgs)
  | flip4x1 (a : TransferArgs)
  | flip4x2 (a : TransferArgs)
  | flip4x4 (a : TransferArgs)
  | flip4x8 (a : TransferArgs)
  | flip4x12 (a : TransferArgs)
  | flip4x16 (a : TransferArgs)
  | flipnx1 (a : TransferArgs) (np : BitVec 32)
  | flipnx2 (a : TransferArgs) (np : BitVec 32)
  | flipnx4 (a : TransferArgs) (np : BitVec 32)
  | flipnx8 (a : TransferArgs) (np : BitVec 32)
  | flipnx12 (a : TransferArgs) (np : BitVec 32)
  | flipnx16 (a : TransferArgs) (np : BitVec 32)
  | xpose (r s mask : Byte) (shift : BitVec 3)
deriving DecidableEq, Repr

end Sys2Proof
end

