-- ==== Sys2Proof/WellFormed.lean ====
section
/-! DEFINITION. When a term of `Instr` is an instruction of the opcode table: the `constraint` of the six
FLIPNX rows (30_encoding.md R57, R63) asks for a plane count that is not negative and is neither 3 nor 4.
Every other field value is legal (R54 step 2, R73). -/

namespace Sys2Proof

/-- The plane counts that reach the generic family (R57, R62): `sint(np) >= 0`, `np` not 3, not 4. -/
def genericCount (np : BitVec 32) : Bool :=
  decide (0 ≤ np.toInt) && decide (np ≠ 3#32) && decide (np ≠ 4#32)

/-- Well-formed instructions: exactly those that some command word decodes to. -/
def Instr.wellFormed : Instr → Bool
  | .flip3x1 _ => true
  | .flip3x2 _ => true
  | .flip3x4 _ => true
  | .flip3x8 _ => true
  | .flip3x12 _ => true
  | .flip3x16 _ => true
  | .flip4x1 _ => true
  | .flip4x2 _ => true
  | .flip4x4 _ => true
  | .flip4x8 _ => true
  | .flip4x12 _ => true
  | .flip4x16 _ => true
  | .flipnx1 _ np => genericCount np
  | .flipnx2 _ np => genericCount np
  | .flipnx4 _ np => genericCount np
  | .flipnx8 _ np => genericCount np
  | .flipnx12 _ np => genericCount np
  | .flipnx16 _ np => genericCount np
  | .xpose _ _ _ _ => true

end Sys2Proof
end

