-- ==== Sys2Proof/Decode.lean ====
section
/-! DEFINITION. The decoder (30_encoding.md R51 to R54) with the dispatch of 41_dispatch.md R82 steps 1
and 2 and R84, total on all 224-bit words, rejecting by the name of a status; and the encoder, written
from the same field tables (R52, R53). -/

namespace Sys2Proof

/-! The fields of R52 and R53, by their bit positions in the command word. -/

def fieldOpcode (cw : CommandWord) : BitVec 8 := cw.extractLsb' 0 8
/-- RSV0 of format T. -/
def fieldRsv0T (cw : CommandWord) : BitVec 24 := cw.extractLsb' 8 24
def fieldOut (cw : CommandWord) : BitVec 32 := cw.extractLsb' 32 32
def fieldPtab (cw : CommandWord) : BitVec 32 := cw.extractLsb' 64 32
def fieldOffset (cw : CommandWord) : BitVec 32 := cw.extractLsb' 96 32
def fieldNbytes (cw : CommandWord) : BitVec 32 := cw.extractLsb' 128 32
def fieldNplanes (cw : CommandWord) : BitVec 32 := cw.extractLsb' 160 32
def fieldBps (cw : CommandWord) : BitVec 32 := cw.extractLsb' 192 32
def fieldR (cw : CommandWord) : Byte := cw.extractLsb' 8 8
def fieldS (cw : CommandWord) : Byte := cw.extractLsb' 16 8
/-- RSV0 of format X. -/
def fieldRsv0X (cw : CommandWord) : BitVec 8 := cw.extractLsb' 24 8
def fieldMask (cw : CommandWord) : Byte := cw.extractLsb' 32 8
def fieldShift (cw : CommandWord) : BitVec 3 := cw.extractLsb' 40 3
/-- RSV1 of format X. -/
def fieldRsv1X (cw : CommandWord) : BitVec 21 := cw.extractLsb' 43 21
/-- RSV2 of format X. -/
def fieldRsv2X (cw : CommandWord) : BitVec 160 := cw.extractLsb' 64 160

/-- The TRANSCODE operands of R52 beside NPLANES and BPS. -/
def transferArgs (cw : CommandWord) : TransferArgs :=
  ⟨fieldOut cw, fieldPtab cw, fieldOffset cw, fieldNbytes cw⟩

/-- The depth a BPS field names, if it is in `D` (R82). -/
def depthOf (bps : BitVec 32) : Option Depth :=
  if bps = 1#32 then some .d1
  else if bps = 2#32 then some .d2
  else if bps = 4#32 then some .d4
  else if bps = 8#32 then some .d8
  else if bps = 12#32 then some .d12
  else if bps = 16#32 then some .d16
  else none

/-- The row NPLANES = 3 of the dispatch table (R84). -/
def fixed3Routine (a : TransferArgs) : Depth → Instr
  | .d1 => .flip3x1 a
  | .d2 => .flip3x2 a
  | .d4 => .flip3x4 a
  | .d8 => .flip3x8 a
  | .d12 => .flip3x12 a
  | .d16 => .flip3x16 a

/-- The row NPLANES = 4 of the dispatch table (R84). -/
def fixed4Routine (a : TransferArgs) : Depth → Instr
  | .d1 => .flip4x1 a
  | .d2 => .flip4x2 a
  | .d4 => .flip4x4 a
  | .d8 => .flip4x8 a
  | .d12 => .flip4x12 a
  | .d16 => .flip4x16 a

/-- The row "any other value >= 0" of the dispatch table (R84). -/
def genericRoutine (a : TransferArgs) (np : BitVec 32) : Depth → Instr
  | .d1 => .flipnx1 a np
  | .d2 => .flipnx2 a np
  | .d4 => .flipnx4 a np
  | .d8 => .flipnx8 a np
  | .d12 => .flipnx12 a np
  | .d16 => .flipnx16 a np

/-- The routine of a depth, or UnsupportedCombination where the depth has none (R82 step 2). -/
def routineAt (row : Depth → Instr) (bps : BitVec 32) : Except Status Instr :=
  match depthOf bps with
  | some d => .ok (row d)
  | none => .error .unsupportedCombination

/-- R82 steps 1 and 2 in their order, and the routine R84 selects when both pass. Steps 3 and 4 (the
length) belong to the routine selected and stand in `Machine.lengthCheck` (R63). -/
def decodeTranscode (a : TransferArgs) (np bps : BitVec 32) : Except Status Instr :=
  if bps.toInt < 1 ∨ 16 < bps.toInt then .error .invalidBitDepth
  else if np.toInt = 3 then routineAt (fixed3Routine a) bps
  else if np.toInt = 4 then routineAt (fixed4Routine a) bps
  else if np.toInt < 0 then .error .invalidPlaneCount
  else routineAt (genericRoutine a np) bps

/-- The decoder of R54. A word that selects no row of the opcode table is answered with a status: an
illegal word with IllegalCommand (R177), a TRANSCODE that fails R82 steps 1 or 2 with that step's. -/
def decode (cw : CommandWord) : Except Status Instr :=
  if fieldOpcode cw = 0x01#8 then
    if fieldRsv0T cw ≠ 0#24 then .error .illegalCommand
    else decodeTranscode (transferArgs cw) (fieldNplanes cw) (fieldBps cw)
  else if fieldOpcode cw = 0x02#8 then
    if fieldRsv0X cw ≠ 0#8 ∨ fieldRsv1X cw ≠ 0#21 ∨ fieldRsv2X cw ≠ 0#160 then .error .illegalCommand
    else .ok (.xpose (fieldR cw) (fieldS cw) (fieldMask cw) (fieldShift cw))
  else .error .illegalCommand

/-! The encoder. -/

/-- A format T word, from W6 (high) down to OPCODE (R52). -/
def encodeT (a : TransferArgs) (np bps : BitVec 32) : CommandWord :=
  bps ++ np ++ a.nbytes ++ a.offset ++ a.ptab ++ a.out ++ 0#24 ++ 0x01#8

/-- A format X word, from RSV2 (high) down to OPCODE (R53). -/
def encodeX (r s mask : Byte) (shift : BitVec 3) : CommandWord :=
  0#160 ++ 0#21 ++ shift ++ mask ++ 0#8 ++ s ++ r ++ 0x02#8

/-- The command word of an instruction; each routine mnemonic fixes BPS, and the fixed families
NPLANES (R62). -/
def encode : Instr → CommandWord
  | .flip3x1 a => encodeT a 3#32 1#32
  | .flip3x2 a => encodeT a 3#32 2#32
  | .flip3x4 a => encodeT a 3#32 4#32
  | .flip3x8 a => encodeT a 3#32 8#32
  | .flip3x12 a => encodeT a 3#32 12#32
  | .flip3x16 a => encodeT a 3#32 16#32
  | .flip4x1 a => encodeT a 4#32 1#32
  | .flip4x2 a => encodeT a 4#32 2#32
  | .flip4x4 a => encodeT a 4#32 4#32
  | .flip4x8 a => encodeT a 4#32 8#32
  | .flip4x12 a => encodeT a 4#32 12#32
  | .flip4x16 a => encodeT a 4#32 16#32
  | .flipnx1 a np => encodeT a np 1#32
  | .flipnx2 a np => encodeT a np 2#32
  | .flipnx4 a np => encodeT a np 4#32
  | .flipnx8 a np => encodeT a np 8#32
  | .flipnx12 a np => encodeT a np 12#32
  | .flipnx16 a np => encodeT a np 16#32
  | .xpose r s mask shift => encodeX r s mask shift

/-- The command word whose low `nbits` bits are those of `w`, and whose other bits are 0. -/
def wordOfTable (nbits w : Nat) : CommandWord := BitVec.ofNat 224 (w % 2 ^ nbits)

/-- The instruction the decoder reads from a table word, if it reads one. The command word is a value on
the command port, with no byte order (R51), so its bits are the table's. -/
def decodeTableWord (nbits w : Nat) : Option Instr :=
  match decode (wordOfTable nbits w) with
  | .ok i => some i
  | .error _ => none

end Sys2Proof
end

