-- ==== Sys2Proof/Config.lean ====
section
/-! DEFINITION. What an implementation or a platform fixes: the shape of the `Backed` parameter
(00_scope.md R6, 92_eei_decisions.md D18), and the one free value of the model (notes/assumptions/2.md). -/

namespace Sys2Proof

/-- A block of `size` byte addresses from `base` upward, modulo `2^32`, that the platform backs with
memory. A list of regions is the model's form of the parameter `Backed` of R6 and R31: every predicate on
32-bit addresses is such a list. -/
structure Region where
  base : Addr
  size : Nat
deriving DecidableEq, Repr

/-- The bytes an output buffer holds after a command whose output overlaps one of its inputs or its plane
table: R205 gives such a command no defined result, so each byte is a free value, indexed by a counter of
State. No proof can learn its value. -/
opaque Config.overlapByte : Nat → Byte

end Sys2Proof
end

