-- ==== Sys2Proof/Machine/State.lean ====
section
/-! DEFINITION. The state of one core and its ports (10_state.md R10 to R24): the port state, the command
latch, the transient datapath latches, memory, and what stands on the command and response ports. -/

namespace Sys2Proof.Machine

/-- R14: the core is IDLE (accepts a command word) or BUSY (a command is latched and being executed). -/
inductive Port where
  | idle
  | busy
deriving DecidableEq, Repr

/-- R17: the bit-transpose temporaries R, S and T. -/
structure XposeRegs where
  r : Byte
  s : Byte
  t : Byte
deriving DecidableEq, Repr

/-- R18: the three input bytes of one plane in the current group of a depth-12 engine. -/
structure Triple where
  b0 : Byte
  b1 : Byte
  b2 : Byte
deriving DecidableEq, Repr

/-- R18: the engine byte latches: B1 to B4 of the 4-plane engines, B24 of the 3-plane engines of depths 1
and 2, and the group latches of the depth-12 engines, one triple for each of planes 0 to 3. -/
structure EngineRegs where
  b1  : Byte
  b2  : Byte
  b3  : Byte
  b4  : Byte
  b24 : BitVec 24
  ga  : Triple
  gb  : Triple
  gc  : Triple
  gd  : Triple
deriving DecidableEq, Repr

/-- R19: the bit cursor. `dbit` counts the filled bits of `acc` from bit 7 down, 0 to 7. -/
structure BitCursor where
  dptr : Addr
  dbit : Nat
  acc  : Byte
deriving DecidableEq, Repr

/-- R13 and R19: the loop position of the running routine: the byte index `i` of the fixed routines, the
bit index BI and the plane index PI of the generic ones (unbounded integers, R7). -/
structure LoopPos where
  i  : Nat
  bi : Nat
  pi : Nat
deriving DecidableEq, Repr

/-- The transient datapath latches (R17 to R19) and the plane bases PP fetched from the plane table (R8,
R36). They exist only while a command runs: each is written before it is read. -/
structure Latches where
  xp     : XposeRegs
  eng    : EngineRegs
  cursor : BitCursor
  pos    : LoopPos
  v      : BitVec 16
  pp     : List Addr
deriving DecidableEq, Repr

/-- Memory (R21, R30) as the cells that differ from what an unlisted address reads as, addresses strictly
rising (`Memory.wf`). -/
abbrev Memory := List Host.Cell

/-- The machine. `commands` is the command port: the command words the host presents, in its order, none
yet accepted (R13, R61). `responses` is the response port: the response words delivered, oldest first
(R55). `backed` is the platform's parameter Backed (R31), which no step changes. `freeIx` is the MODEL's
own counter of free values read so far (notes/assumptions/2.md). -/
structure State where
  port      : Port
  cmd       : CommandWord
  lat       : Latches
  mem       : Memory
  commands  : List CommandWord
  responses : List ResponseWord
  backed    : List Region
  freeIx    : Nat
deriving DecidableEq, Repr

/-- The core never stops with a machine fault: every failure is a status in the response word (R176), so
this type has no constructor. -/
inductive Fault where
deriving DecidableEq, Repr

/-- Why a step has no meaning. -/
inductive Refusal where
  /-- Raised by `exec` for an instruction without a meaning. None is left. Safe. -/
  | notModelled (mnemonic : String)
  /-- Raised by a TRANSCODE that would touch an address outside Backed: R31 gives it no meaning and asks a
  model to refuse it (93_implementation_defined.md U4). Safe: no claim about its effect can be proved. -/
  | unbackedAddress
deriving DecidableEq, Repr

/-- The latches at reset. R24 leaves them unspecified; zero is the model's choice (U8 allows it;
notes/assumptions/3.md). -/
def Latches.reset : Latches where
  xp := ⟨0#8, 0#8, 0#8⟩
  eng := ⟨0#8, 0#8, 0#8, 0#8, 0#24, ⟨0#8, 0#8, 0#8⟩, ⟨0#8, 0#8, 0#8⟩, ⟨0#8, 0#8, 0#8⟩, ⟨0#8, 0#8, 0#8⟩⟩
  cursor := ⟨0#32, 0, 0#8⟩
  pos := ⟨0, 0, 0⟩
  v := 0#16
  pp := []

/-- The state right after reset (R24, R200): IDLE, no response owed, nothing presented, memory with
nothing listed. The command latch is unspecified there and zero here (notes/assumptions/3.md); Backed is
the whole address space here (notes/assumptions/4.md). -/
def State.reset : State where
  port := .idle
  cmd := 0#224
  lat := Latches.reset
  mem := []
  commands := []
  responses := []
  backed := [⟨0#32, 2 ^ 32⟩]
  freeIx := 0

end Sys2Proof.Machine
end

