-- ==== Sys2Proof/Machine/Flags.lean ====
section
/-! DEFINITION. The core has no flags, condition codes or predicates (10_state.md R16). The one outcome
signal is the STATUS of the response word: its codes (60_exceptions.md R170) and the response word's layout
(30_encoding.md R55). -/

namespace Sys2Proof.Machine

/-- The status codes of R170; codes 7 to 15 are never produced. -/
def statusCode : Status → BitVec 4
  | .ok => 0#4
  | .invalidBitDepth => 1#4
  | .invalidPlaneCount => 2#4
  | .unsupportedCombination => 3#4
  | .rangeCheck => 4#4
  | .invalidArgument => 5#4
  | .illegalCommand => 6#4

/-- The response word of R55: STATUS in 3:0, RR in 15:8, RS in 23:16, every other bit 0. -/
def responseWord (st : Status) (rr rs : Byte) : ResponseWord :=
  0#8 ++ rs ++ rr ++ 0#4 ++ statusCode st

end Sys2Proof.Machine
end

