-- ==== Sys2Proof/Machine/Operands.lean ====
section
/-! DEFINITION. The operand forms of TRANSCODE: the signed readings and the length check (41_dispatch.md
R82 steps 3 and 4, 30_encoding.md R56), the operands of a running routine (00_scope.md R7, R8), and every
address they form (20_memory.md R33, R36, R38). -/

namespace Sys2Proof.Machine

/-- R82 steps 3 and 4: the status a length fails with at depth `w`, `nbytes` being `sint(NBYTES)`. -/
def lengthCheck (w : Nat) (nbytes : Int) : Option Status :=
  if nbytes < 0 then some .invalidArgument
  else if w = 12 ∧ nbytes % 3 ≠ 0 then some .invalidArgument
  else if w = 16 ∧ nbytes % 2 ≠ 0 then some .invalidArgument
  else none

/-- The NPLANES operand as a loop bound: `sint(NPLANES)`, which is not negative where a routine runs
(R57). -/
def planeCount (np : BitVec 32) : Nat := np.toInt.toNat

/-- The operands of a running routine: OUT, PTAB, OFFSET, `n = NBYTES`, `N = NPLANES` and the plane bases
`PP[0 .. N-1]` (R7, R8). -/
structure Job where
  out    : Addr
  ptab   : Addr
  offset : Addr
  n      : Nat
  planes : Nat
  pp     : List Addr
deriving DecidableEq, Repr

/-- Byte `j` of the plane table (R38). -/
def Job.tableAddr (c : Job) (j : Nat) : Addr := c.ptab + BitVec.ofNat 32 j

/-- `PlaneBase(p) = (PP[p] + OFFSET) mod 2^32` (R8). -/
def Job.planeBase (c : Job) (p : Nat) : Addr := c.pp.getD p 0#32 + c.offset

/-- The address of input byte `i` of plane `p` (R8, R33). -/
def Job.inAddr (c : Job) (p i : Nat) : Addr := c.planeBase p + BitVec.ofNat 32 i

/-- The address of output byte `j` (R8, R33). -/
def Job.outAddr (c : Job) (j : Nat) : Addr := c.out + BitVec.ofNat 32 j

/-- The address lies in the output region `OUT .. OUT + N*n - 1`, taken modulo `2^32` (R22, R205). -/
abbrev Job.inOutput (c : Job) (x : Addr) : Prop := (x - c.out).toNat < c.planes * c.n

/-- R205: the output region is disjoint from the plane table and from every plane's input region. -/
abbrev Job.disjoint (c : Job) : Prop :=
  (∀ j, j < 4 * c.planes → ¬ c.inOutput (c.tableAddr j)) ∧
    ∀ p, p < c.planes → ∀ i, i < c.n → ¬ c.inOutput (c.inAddr p i)

/-- The predicate Backed of R6, from the platform's regions. -/
def isBacked (regions : List Region) (x : Addr) : Bool :=
  regions.any fun r => decide ((x - r.base).toNat < r.size)

/-- R31: every address of the access set R38 is backed. -/
abbrev Job.allBacked (c : Job) (regions : List Region) : Prop :=
  (∀ j, j < 4 * c.planes → isBacked regions (c.tableAddr j) = true) ∧
    (∀ p, p < c.planes → ∀ i, i < c.n → isBacked regions (c.inAddr p i) = true) ∧
    ∀ j, j < c.planes * c.n → isBacked regions (c.outAddr j) = true

end Sys2Proof.Machine
end

