-- ==== Sys2Proof/Machine/Ops.lean ====
section
/-! DEFINITION. The shared operations: one byte of memory read and written (20_memory.md R30, R36, R39),
the datapath a routine acts on, the counted loops (00_scope.md R7), the command and response ports
(10_state.md R14, R15, 30_encoding.md R55), failing (60_exceptions.md R176), reset (R200), and the
skeleton every TRANSCODE routine runs in (41_dispatch.md R80). -/

namespace Sys2Proof.Machine

/-! Memory. -/

/-- What an address that is not listed reads as. R24 leaves memory's contents at power-up to the platform;
0 is the model's choice (notes/assumptions/1.md). -/
def Memory.unlisted : Byte := 0x00#8

/-- One byte of memory (R30). -/
def Memory.read : Memory → Nat → Byte
  | [], _ => Memory.unlisted
  | (k, v) :: rest, a => if a = k then v else Memory.read rest a

/-- Puts a cell in its place by address, before the first larger one. -/
def Memory.insert : Memory → Nat → Byte → Memory
  | [], a, v => [(a, v)]
  | (k, w) :: rest, a, v => if a < k then (a, v) :: (k, w) :: rest else (k, w) :: Memory.insert rest a v

/-- Unlists an address. -/
def Memory.erase (m : Memory) (a : Nat) : Memory := m.filter fun c => decide (c.1 ≠ a)

/-- Writes one byte of memory, keeping the canonical form: writing what an unlisted address reads as
unlists the address. -/
def Memory.write (m : Memory) (a : Nat) (v : Byte) : Memory :=
  if v = Memory.unlisted then Memory.erase m a else Memory.insert (Memory.erase m a) a v

/-- The canonical form of memory: addresses strictly rising and below `2^32`, no cell equal to what an
unlisted address reads as. -/
abbrev Memory.wf (m : Memory) : Prop :=
  m.Pairwise (fun x y => x.1 < y.1) ∧ ∀ c ∈ m, c.2 ≠ Memory.unlisted ∧ c.1 < 2 ^ 32

/-! The datapath: memory and the transient latches, all that a routine reads and writes. -/

/-- What a running routine acts on. -/
structure Datapath where
  mem : Memory
  lat : Latches
deriving DecidableEq, Repr

/-- `MemRead(addr, 1)` of R7. -/
def Datapath.memRead (d : Datapath) (x : Addr) : Byte := Memory.read d.mem x.toNat

/-- `MemWrite(addr, 1, v)` of R7. -/
def Datapath.memWrite (d : Datapath) (x : Addr) (v : Byte) : Datapath :=
  { d with mem := Memory.write d.mem x.toNat v }

def Datapath.setXp (d : Datapath) (x : XposeRegs) : Datapath := { d with lat := { d.lat with xp := x } }
def Datapath.setEng (d : Datapath) (x : EngineRegs) : Datapath := { d with lat := { d.lat with eng := x } }
def Datapath.setCursor (d : Datapath) (x : BitCursor) : Datapath :=
  { d with lat := { d.lat with cursor := x } }
def Datapath.setPos (d : Datapath) (x : LoopPos) : Datapath := { d with lat := { d.lat with pos := x } }
def Datapath.setV (d : Datapath) (x : BitVec 16) : Datapath := { d with lat := { d.lat with v := x } }
def Datapath.setPp (d : Datapath) (x : List Addr) : Datapath := { d with lat := { d.lat with pp := x } }

/-- The loop position of the fixed routines: byte index `i` (R13). -/
def Datapath.atIndex (d : Datapath) (i : Nat) : Datapath := d.setPos { d.lat.pos with i := i }

/-- The loop position of the generic routines: BI and PI (R19). -/
def Datapath.atBit (d : Datapath) (bi p : Nat) : Datapath := d.setPos { d.lat.pos with bi := bi, pi := p }

/-- `P(p, i)` of R8: input byte `i` of plane `p`. -/
def Datapath.plane (d : Datapath) (c : Job) (p i : Nat) : Byte := d.memRead (c.inAddr p i)

/-- `Out(j) <- v` of R8. -/
def Datapath.out (d : Datapath) (c : Job) (j : Nat) (v : Byte) : Datapath := d.memWrite (c.outAddr j) v

/-- Writes output bytes `j`, `j+1`, ... in ascending order (R40). -/
def Datapath.emit (c : Job) : Nat → List Byte → Datapath → Datapath
  | _, [], d => d
  | j, v :: vs, d => Datapath.emit c (j + 1) vs (d.out c j v)

/-- A plane-table entry: four bytes, the lowest address least significant (R36). -/
def Memory.readEntry (m : Memory) (x : Addr) : Addr :=
  Memory.read m (x + 3#32).toNat ++ Memory.read m (x + 2#32).toNat ++ Memory.read m (x + 1#32).toNat
    ++ Memory.read m x.toNat

/-- The plane bases `PP[0 .. N-1]`, read once, in order (R36, R80). -/
def Memory.planeTable (m : Memory) (ptab : Addr) (planes : Nat) : List Addr :=
  (List.range planes).map fun p => Memory.readEntry m (ptab + BitVec.ofNat 32 (4 * p))

/-! Counted loops. -/

/-- `for i in 0 .. n-1: f i`, in that order (R7). -/
def forUp {σ : Type} : Nat → (Nat → σ → σ) → σ → σ
  | 0, _, x => x
  | k + 1, f, x => f k (forUp k f x)

/-- How a routine goes on: it runs to its end, or a rule says `fail <Status>` (R7, R176) at a datapath. -/
inductive Flow where
  | done (d : Datapath)
  | failed (st : Status) (d : Datapath)
deriving DecidableEq, Repr

/-- Goes on with `f` unless the routine has failed. -/
def Flow.andThen : Flow → (Datapath → Flow) → Flow
  | .done d, f => f d
  | .failed st d, _ => .failed st d

/-- `for i in 0 .. n-1: f i` where `f` may fail. -/
def forUpFlow : Nat → (Nat → Datapath → Flow) → Datapath → Flow
  | 0, _, d => .done d
  | k + 1, f, d => (forUpFlow k f d).andThen (f k)

/-! Ports, responses, reset. -/

def State.datapath (s : State) : Datapath := ⟨s.mem, s.lat⟩
def State.withDatapath (s : State) (d : Datapath) : State := { s with mem := d.mem, lat := d.lat }

/-- The host presents a command word at the port of an IDLE core (R13, R14): it is the next accepted. -/
def State.present (s : State) (cw : CommandWord) : State :=
  { s with port := .idle, commands := cw :: s.commands }

/-- The state with the next command latched (R14, R15): an IDLE core accepts the word presented, if there
is one, and becomes BUSY; a BUSY core accepts nothing and has its command in CMD already. -/
def State.accept (s : State) : Option State :=
  match s.port with
  | .busy => some s
  | .idle =>
    match s.commands with
    | [] => none
    | cw :: rest => some { s with port := .busy, cmd := cw, commands := rest }

/-- Delivers the response word and returns to IDLE (R14, R55). -/
def State.respond (s : State) (st : Status) (rr rs : Byte) : State :=
  { s with port := .idle, responses := s.responses ++ [responseWord st rr rs] }

/-- `fail <Status>` (R176), what this core has for an exception: the response carries the status with RR
and RS 0, the core is IDLE, and nothing else is saved or changed. R180: there is nothing to return from. -/
def State.fail (s : State) (st : Status) : State := s.respond st 0#8 0#8

/-- The reset input (R200): IDLE, no response owed, latches back at their reset values, memory not
touched. What stands at the ports is the host's and is kept. -/
def State.resetCore (s : State) : State :=
  { s with port := .idle, cmd := State.reset.cmd, lat := Latches.reset }

/-! The TRANSCODE skeleton. -/

/-- The operands a routine of `planes` planes runs with on this memory (R80). -/
def Job.start (a : TransferArgs) (planes : Nat) (m : Memory) : Job :=
  ⟨a.out, a.ptab, a.offset, a.nbytes.toInt.toNat, planes, Memory.planeTable m a.ptab planes⟩

/-- Puts a free value in every output byte (R205, notes/assumptions/2.md). -/
def State.freeOutput (s : State) (c : Job) : State :=
  let d := forUp (c.planes * c.n) (fun j d => d.out c j (Config.overlapByte (s.freeIx + j))) s.datapath
  { s.withDatapath d with freeIx := s.freeIx + c.planes * c.n }

/-- The state when a routine has ended: the output holds what the routine wrote, or free values where the
output overlapped what the command reads, for then R205 gives no defined result. -/
def State.settle (s : State) (c : Job) : State := if c.disjoint then s else s.freeOutput c

/-- TRANSCODE for one routine (R80): the length checks of R82, the two cases without any memory access
(R86, R87), the fetch of the plane table, the routine, and the response. -/
def transcode (a : TransferArgs) (planes w : Nat) (routine : Job → Datapath → Flow) (s : State) :
    Host.Outcome State Fault Refusal :=
  match lengthCheck w a.nbytes.toInt with
  | some st => .next (s.fail st)
  | none =>
    if a.nbytes.toInt.toNat = 0 ∨ planes = 0 then .next (s.respond .ok 0#8 0#8)
    else if (Job.start a planes s.mem).allBacked s.backed then
      match routine (Job.start a planes s.mem) (s.datapath.setPp (Job.start a planes s.mem).pp) with
      | .done d => .next (((s.withDatapath d).settle (Job.start a planes s.mem)).respond .ok 0#8 0#8)
      | .failed st d => .next (((s.withDatapath d).settle (Job.start a planes s.mem)).fail st)
    else .refused .unbackedAddress

end Sys2Proof.Machine
end

