-- ==== Sys2Proof/Machine/Fixed3.lean ====
section
/-! DEFINITION. The fixed 3-plane family (42_fixed3.md): the expansion tables and the routines FLIP3X1,
FLIP3X2, FLIP3X4, FLIP3X8, FLIP3X12 and FLIP3X16. In each group the input bytes are read before the output
bytes are written (20_memory.md R40). -/

namespace Sys2Proof.Machine

/-- TAB3X1 (R101): bit `j` of `x` goes to bit `3j + 2`. -/
def tab3x1 (x : Byte) : BitVec 24 :=
  (List.range 8).foldl
    (fun acc j => acc ||| ((x.extractLsb' j 1).setWidth 24 <<< (3 * j + 2))) 0#24

/-- TAB3X2 (R102): the field `x[2j+1 : 2j]` goes to bits `6j+5 : 6j+4`. -/
def tab3x2 (x : Byte) : BitVec 24 :=
  (List.range 4).foldl
    (fun acc j => acc ||| ((x.extractLsb' (2 * j) 2).setWidth 24 <<< (6 * j + 4))) 0#24

/-- The three bytes of B24, high byte first (R103, R104). -/
def bytes24 (x : BitVec 24) : List Byte := [x.extractLsb' 16 8, x.extractLsb' 8 8, x.extractLsb' 0 8]

/-- Loads B24 (R18) and writes its three bytes as output bytes `3i .. 3i+2`. -/
def emitB24 (c : Job) (i : Nat) (x : BitVec 24) (d : Datapath) : Datapath :=
  Datapath.emit c (3 * i) (bytes24 x) ((d.atIndex i).setEng { d.lat.eng with b24 := x })

/-- One iteration of R103. -/
def flip3x1Group (c : Job) (i : Nat) (d : Datapath) : Datapath :=
  emitB24 c i (tab3x1 (d.plane c 0 i) ||| (tab3x1 (d.plane c 1 i) >>> 1)
    ||| (tab3x1 (d.plane c 2 i) >>> 2)) d

/-- One iteration of R104. -/
def flip3x2Group (c : Job) (i : Nat) (d : Datapath) : Datapath :=
  emitB24 c i (tab3x2 (d.plane c 0 i) ||| (tab3x2 (d.plane c 1 i) >>> 2)
    ||| (tab3x2 (d.plane c 2 i) >>> 4)) d

/-- The three output bytes of R105 for input bytes `x`, `y`, `z` of planes 0, 1, 2. -/
def bytes3x4 (x y z : Byte) : List Byte :=
  [(x &&& 0xF0#8) ||| (y >>> 4), (z &&& 0xF0#8) ||| (x &&& 0x0F#8), (y <<< 4) ||| (z &&& 0x0F#8)]

/-- One iteration of R105. -/
def flip3x4Group (c : Job) (i : Nat) (d : Datapath) : Datapath :=
  Datapath.emit c (3 * i) (bytes3x4 (d.plane c 0 i) (d.plane c 1 i) (d.plane c 2 i)) (d.atIndex i)

/-- One iteration of R106. -/
def flip3x8Group (c : Job) (i : Nat) (d : Datapath) : Datapath :=
  Datapath.emit c (3 * i) [d.plane c 0 i, d.plane c 1 i, d.plane c 2 i] (d.atIndex i)

/-- The three bytes of plane `p` in group `g` of a depth-12 engine (R107, R125). -/
def Datapath.triple (d : Datapath) (c : Job) (p g : Nat) : Triple :=
  ⟨d.plane c p (3 * g), d.plane c p (3 * g + 1), d.plane c p (3 * g + 2)⟩

/-- The nine output bytes of R107. -/
def bytes3x12 (a b c : Triple) : List Byte :=
  [a.b0,
   (a.b1 &&& 0xF0#8) ||| (b.b0 >>> 4),
   (b.b0 <<< 4) ||| (b.b1 >>> 4),
   c.b0,
   (c.b1 &&& 0xF0#8) ||| (a.b1 &&& 0x0F#8),
   a.b2,
   (b.b1 <<< 4) ||| (b.b2 >>> 4),
   (b.b2 <<< 4) ||| (c.b1 &&& 0x0F#8),
   c.b2]

/-- One iteration of R107: the group latches (R18) are loaded, then nine bytes are written. -/
def flip3x12Group (c : Job) (g : Nat) (d : Datapath) : Datapath :=
  Datapath.emit c (9 * g) (bytes3x12 (d.triple c 0 g) (d.triple c 1 g) (d.triple c 2 g))
    ((d.atIndex (3 * g)).setEng
      { d.lat.eng with ga := d.triple c 0 g, gb := d.triple c 1 g, gc := d.triple c 2 g })

/-- One 2-byte sample of plane `p` copied verbatim to output bytes `j`, `j+1` (R108, R126, R152). -/
def copySample16 (c : Job) (j k p : Nat) (d : Datapath) : Datapath :=
  Datapath.emit c j [d.plane c p (2 * k), d.plane c p (2 * k + 1)] d

/-- One iteration of R108. -/
def flip3x16Group (c : Job) (k : Nat) (d : Datapath) : Datapath :=
  forUp 3 (fun p d => copySample16 c (6 * k + 2 * p) k p d) (d.atIndex (2 * k))

/-- FLIP3X1 (R103). -/
def execFlip3x1 (a : TransferArgs) (s : State) : Host.Outcome State Fault Refusal :=
  transcode a 3 1 (fun c d => .done (forUp c.n (flip3x1Group c) d)) s

/-- FLIP3X2 (R104). -/
def execFlip3x2 (a : TransferArgs) (s : State) : Host.Outcome State Fault Refusal :=
  transcode a 3 2 (fun c d => .done (forUp c.n (flip3x2Group c) d)) s

/-- FLIP3X4 (R105). -/
def execFlip3x4 (a : TransferArgs) (s : State) : Host.Outcome State Fault Refusal :=
  transcode a 3 4 (fun c d => .done (forUp c.n (flip3x4Group c) d)) s

/-- FLIP3X8 (R106). -/
def execFlip3x8 (a : TransferArgs) (s : State) : Host.Outcome State Fault Refusal :=
  transcode a 3 8 (fun c d => .done (forUp c.n (flip3x8Group c) d)) s

/-- FLIP3X12 (R107). -/
def execFlip3x12 (a : TransferArgs) (s : State) : Host.Outcome State Fault Refusal :=
  transcode a 3 12 (fun c d => .done (forUp (c.n / 3) (flip3x12Group c) d)) s

/-- FLIP3X16 (R108). -/
def execFlip3x16 (a : TransferArgs) (s : State) : Host.Outcome State Fault Refusal :=
  transcode a 3 16 (fun c d => .done (forUp (c.n / 2) (flip3x16Group c) d)) s

end Sys2Proof.Machine
end

