-- ==== Sys2Proof/Machine/Xpose.lean ====
section
/-! DEFINITION. The bit-transpose primitive (40_transpose.md R70) on the latches R, S and T, and the command
XPOSE (R73). -/

namespace Sys2Proof.Machine

/-- `Xpose(r, s, mask, shift)` of R70 as the latches it leaves (R17): R and S hold the two results, T the
masked difference both were computed from. -/
def xposeRegs (r s mask : Byte) (shift : Nat) : XposeRegs :=
  let t := ((s >>> shift) ^^^ r) &&& mask
  ⟨r ^^^ t, s ^^^ (t <<< shift), t⟩

/-- The two results `(r', s')` of R70. -/
def xpose (r s mask : Byte) (shift : Nat) : Byte × Byte :=
  ((xposeRegs r s mask shift).r, (xposeRegs r s mask shift).s)

/-- XPOSE (R73): no memory access, no failure; the results are in the response word. -/
def execXpose (r s mask : Byte) (shift : BitVec 3) (st : State) : Host.Outcome State Fault Refusal :=
  let x := xposeRegs r s mask shift.toNat
  .next ((st.withDatapath (st.datapath.setXp x)).respond .ok x.r x.s)

end Sys2Proof.Machine
end

