-- ==== Sys2Proof/Machine/Fixed4.lean ====
section
/-! DEFINITION. The fixed 4-plane family (43_fixed4.md): FLIP4X1 and FLIP4X2 as two transpose stages on the
engine latches B1 to B4, FLIP4X4 as a nibble merge, and FLIP4X8, FLIP4X12, FLIP4X16. -/

namespace Sys2Proof.Machine

/-- `B1 <- a_i ; B2 <- b_i ; B3 <- c_i ; B4 <- d_i` (R120). -/
def loadB (c : Job) (i : Nat) (d : Datapath) : Datapath :=
  (d.atIndex i).setEng
    { d.lat.eng with
      b1 := d.plane c 0 i, b2 := d.plane c 1 i, b3 := d.plane c 2 i, b4 := d.plane c 3 i }

/-! The primitive on a pair of engine latches, in place, through R, S and T (R17, R18, R74). -/

/-- `(B1, B2) <- Xpose(B1, B2, mask, shift)`. -/
def xposeB12 (mask : Byte) (shift : Nat) (d : Datapath) : Datapath :=
  let x := xposeRegs d.lat.eng.b1 d.lat.eng.b2 mask shift
  (d.setXp x).setEng { d.lat.eng with b1 := x.r, b2 := x.s }

/-- `(B3, B4) <- Xpose(B3, B4, mask, shift)`. -/
def xposeB34 (mask : Byte) (shift : Nat) (d : Datapath) : Datapath :=
  let x := xposeRegs d.lat.eng.b3 d.lat.eng.b4 mask shift
  (d.setXp x).setEng { d.lat.eng with b3 := x.r, b4 := x.s }

/-- `(B1, B3) <- Xpose(B1, B3, mask, shift)`. -/
def xposeB13 (mask : Byte) (shift : Nat) (d : Datapath) : Datapath :=
  let x := xposeRegs d.lat.eng.b1 d.lat.eng.b3 mask shift
  (d.setXp x).setEng { d.lat.eng with b1 := x.r, b3 := x.s }

/-- `(B2, B4) <- Xpose(B2, B4, mask, shift)`. -/
def xposeB24 (mask : Byte) (shift : Nat) (d : Datapath) : Datapath :=
  let x := xposeRegs d.lat.eng.b2 d.lat.eng.b4 mask shift
  (d.setXp x).setEng { d.lat.eng with b2 := x.r, b4 := x.s }

/-- The nibble assembly of R121, which R123 applies to the raw bytes. -/
def nibbleAssembly (e : EngineRegs) : List Byte :=
  [(e.b1 &&& 0xF0#8) ||| (e.b2 >>> 4),
   (e.b3 &&& 0xF0#8) ||| (e.b4 >>> 4),
   (e.b1 <<< 4) ||| (e.b2 &&& 0x0F#8),
   (e.b3 <<< 4) ||| (e.b4 &&& 0x0F#8)]

/-- The latches of R121 after both stages. -/
def transpose4x1 (d : Datapath) : Datapath :=
  xposeB24 0x33#8 2 (xposeB13 0x33#8 2 (xposeB34 0x55#8 1 (xposeB12 0x55#8 1 d)))

/-- The latches of R122 after both stages. -/
def transpose4x2 (d : Datapath) : Datapath :=
  xposeB34 0x33#8 2 (xposeB12 0x33#8 2 (xposeB24 0x0F#8 4 (xposeB13 0x0F#8 4 d)))

/-- Writes four bytes computed from the engine latches as output bytes `4i .. 4i+3`. -/
def emitEng (c : Job) (i : Nat) (bytes : EngineRegs → List Byte) (d : Datapath) : Datapath :=
  Datapath.emit c (4 * i) (bytes d.lat.eng) d

/-- One iteration of R121. -/
def flip4x1Group (c : Job) (i : Nat) (d : Datapath) : Datapath :=
  emitEng c i nibbleAssembly (transpose4x1 (loadB c i d))

/-- `Out(4i) <- B1 ; Out(4i+1) <- B2 ; Out(4i+2) <- B3 ; Out(4i+3) <- B4` (R122, R124). -/
def engineBytes (e : EngineRegs) : List Byte := [e.b1, e.b2, e.b3, e.b4]

/-- One iteration of R122. -/
def flip4x2Group (c : Job) (i : Nat) (d : Datapath) : Datapath :=
  emitEng c i engineBytes (transpose4x2 (loadB c i d))

/-- One iteration of R123. -/
def flip4x4Group (c : Job) (i : Nat) (d : Datapath) : Datapath :=
  emitEng c i nibbleAssembly (loadB c i d)

/-- One iteration of R124. -/
def flip4x8Group (c : Job) (i : Nat) (d : Datapath) : Datapath :=
  emitEng c i engineBytes (loadB c i d)

/-- The twelve output bytes of R125; `e` is plane 3. -/
def bytes4x12 (a b c e : Triple) : List Byte :=
  [a.b0,
   (a.b1 &&& 0xF0#8) ||| (b.b0 >>> 4),
   (b.b0 <<< 4) ||| (b.b1 >>> 4),
   c.b0,
   (c.b1 &&& 0xF0#8) ||| (e.b0 >>> 4),
   (e.b0 <<< 4) ||| (e.b1 >>> 4),
   (a.b1 <<< 4) ||| (a.b2 >>> 4),
   (a.b2 <<< 4) ||| (b.b1 &&& 0x0F#8),
   b.b2,
   (c.b1 <<< 4) ||| (c.b2 >>> 4),
   (c.b2 <<< 4) ||| (e.b1 &&& 0x0F#8),
   e.b2]

/-- One iteration of R125: the group latches (R18) are loaded, then twelve bytes are written. -/
def flip4x12Group (c : Job) (g : Nat) (d : Datapath) : Datapath :=
  Datapath.emit c (12 * g)
    (bytes4x12 (d.triple c 0 g) (d.triple c 1 g) (d.triple c 2 g) (d.triple c 3 g))
    ((d.atIndex (3 * g)).setEng
      { d.lat.eng with
        ga := d.triple c 0 g, gb := d.triple c 1 g, gc := d.triple c 2 g, gd := d.triple c 3 g })

/-- One iteration of R126. -/
def flip4x16Group (c : Job) (k : Nat) (d : Datapath) : Datapath :=
  forUp 4 (fun p d => copySample16 c (8 * k + 2 * p) k p d) (d.atIndex (2 * k))

/-- FLIP4X1 (R121). -/
def execFlip4x1 (a : TransferArgs) (s : State) : Host.Outcome State Fault Refusal :=
  transcode a 4 1 (fun c d => .done (forUp c.n (flip4x1Group c) d)) s

/-- FLIP4X2 (R122). -/
def execFlip4x2 (a : TransferArgs) (s : State) : Host.Outcome State Fault Refusal :=
  transcode a 4 2 (fun c d => .done (forUp c.n (flip4x2Group c) d)) s

/-- FLIP4X4 (R123). -/
def execFlip4x4 (a : TransferArgs) (s : State) : Host.Outcome State Fault Refusal :=
  transcode a 4 4 (fun c d => .done (forUp c.n (flip4x4Group c) d)) s

/-- FLIP4X8 (R124). -/
def execFlip4x8 (a : TransferArgs) (s : State) : Host.Outcome State Fault Refusal :=
  transcode a 4 8 (fun c d => .done (forUp c.n (flip4x8Group c) d)) s

/-- FLIP4X12 (R125). -/
def execFlip4x12 (a : TransferArgs) (s : State) : Host.Outcome State Fault Refusal :=
  transcode a 4 12 (fun c d => .done (forUp (c.n / 3) (flip4x12Group c) d)) s

/-- FLIP4X16 (R126). -/
def execFlip4x16 (a : TransferArgs) (s : State) : Host.Outcome State Fault Refusal :=
  transcode a 4 16 (fun c d => .done (forUp (c.n / 2) (flip4x16Group c) d)) s

end Sys2Proof.Machine
end

