-- ==== Sys2Proof/Machine/Generic.lean ====
section
/-! DEFINITION. The generic N-plane path (44_generic.md): the bit cursor's micro-operations, the shared
packer of FLIPNX1, FLIPNX2, FLIPNX4 and FLIPNX8, the depth-12 routine FLIPNX12 and the depth-16 routine
FLIPNX16. -/

namespace Sys2Proof.Machine

/-- `DPTR <- OUT ; DBIT <- 0 ; ACC <- 0`, `BI` and `PI` at 0: the start of every generic routine (R24,
R146, R151). -/
def startCursor (c : Job) (d : Datapath) : Datapath := (d.setCursor ⟨c.out, 0, 0#8⟩).atBit 0 0

/-- The `w`-bit field that starts `bitoffset` bits below the top of a byte (R141). -/
def extractField (byte : Byte) (bitoffset w : Nat) : BitVec 16 :=
  ((byte >>> (8 - bitoffset - w)) &&& BitVec.ofNat 8 (2 ^ w - 1)).setWidth 16

/-- `V <- Extract(p, bi, w)` (R141): RangeCheck past the plane's `8n` bits, one byte read otherwise. -/
def extract (c : Job) (p bi w : Nat) (d : Datapath) : Flow :=
  if 8 * c.n < bi + w then .failed .rangeCheck d
  else .done (d.setV (extractField (d.plane c p (bi / 8)) (bi % 8) w))

/-- `AppendBits(V, w)` (R142): V goes directly below the filled bits of ACC; a full ACC is emitted. -/
def appendBits (w : Nat) (d : Datapath) : Datapath :=
  let cur := d.lat.cursor
  let acc := cur.acc ||| (d.lat.v.setWidth 8 <<< (8 - cur.dbit - w))
  if cur.dbit + w = 8 then (d.memWrite cur.dptr acc).setCursor ⟨cur.dptr + 1#32, 0, 0#8⟩
  else d.setCursor ⟨cur.dptr, cur.dbit + w, acc⟩

/-- `Flush()` (R143): emits a partly filled ACC. -/
def flush (d : Datapath) : Datapath :=
  let cur := d.lat.cursor
  if cur.dbit ≠ 0 then (d.memWrite cur.dptr cur.acc).setCursor ⟨cur.dptr + 1#32, 0, 0#8⟩ else d

/-- `V <- Extract12(p, bi)` (R144): two bytes read, the alignment by bit 2 of the bit index. -/
def extract12 (c : Job) (p bi : Nat) (d : Datapath) : Datapath :=
  let q := bi / 8
  let x := (d.plane c p q).setWidth 16
  let y := d.plane c p (q + 1)
  d.setV (if bi % 8 < 4 then (x <<< 4) ||| (y >>> 4).setWidth 16
    else ((x &&& 0x0F#16) <<< 8) ||| y.setWidth 16)

/-- `Append12(V)` (R145). -/
def append12 (d : Datapath) : Datapath :=
  let cur := d.lat.cursor
  let v := d.lat.v
  if cur.dbit = 0 then
    (d.memWrite cur.dptr ((v >>> 4).setWidth 8)).setCursor
      ⟨cur.dptr + 1#32, 4, ((v &&& 0x0F#16) <<< 4).setWidth 8⟩
  else
    ((d.memWrite cur.dptr (cur.acc ||| (v >>> 8).setWidth 8)).memWrite (cur.dptr + 1#32)
      (v.setWidth 8)).setCursor ⟨cur.dptr + 2#32, 0, 0#8⟩

/-- The body of the packer's loops (R146): one field of plane `p` at bit index `bi`. -/
def packField (c : Job) (w bi p : Nat) (d : Datapath) : Flow :=
  (extract c p bi w (d.atBit bi p)).andThen fun d => .done (appendBits w d)

/-- `Packer(w)` (R146): for each sample index, for each plane. -/
def packer (w : Nat) (c : Job) (d : Datapath) : Flow :=
  (forUpFlow (8 * c.n / w) (fun k d => forUpFlow c.planes (packField c w (k * w)) d)
    (startCursor c d)).andThen fun d => .done (flush d)

/-- The body of the loops of R151: one 12-bit field of plane `p` at bit index `bi`. -/
def packField12 (c : Job) (bi p : Nat) (d : Datapath) : Datapath :=
  append12 (extract12 c p bi (d.atBit bi p))

/-- The depth-12 routine (R151). -/
def packer12 (c : Job) (d : Datapath) : Datapath :=
  flush (forUp (8 * c.n / 12) (fun k d => forUp c.planes (packField12 c (k * 12)) d) (startCursor c d))

/-- The depth-16 routine (R152): a byte copy interleave; the bit cursor is not used. -/
def copy16 (c : Job) (d : Datapath) : Datapath :=
  forUp (c.n / 2)
    (fun k d => forUp c.planes
      (fun p d => copySample16 c (2 * (k * c.planes + p)) k p (d.atBit (k * 16) p)) d)
    (startCursor c d)

/-- FLIPNX1 (R147). -/
def execFlipnx1 (a : TransferArgs) (np : BitVec 32) (s : State) : Host.Outcome State Fault Refusal :=
  transcode a (planeCount np) 1 (packer 1) s

/-- FLIPNX2 (R148). -/
def execFlipnx2 (a : TransferArgs) (np : BitVec 32) (s : State) : Host.Outcome State Fault Refusal :=
  transcode a (planeCount np) 2 (packer 2) s

/-- FLIPNX4 (R149). -/
def execFlipnx4 (a : TransferArgs) (np : BitVec 32) (s : State) : Host.Outcome State Fault Refusal :=
  transcode a (planeCount np) 4 (packer 4) s

/-- FLIPNX8 (R150). -/
def execFlipnx8 (a : TransferArgs) (np : BitVec 32) (s : State) : Host.Outcome State Fault Refusal :=
  transcode a (planeCount np) 8 (packer 8) s

/-- FLIPNX12 (R151). -/
def execFlipnx12 (a : TransferArgs) (np : BitVec 32) (s : State) : Host.Outcome State Fault Refusal :=
  transcode a (planeCount np) 12 (fun c d => .done (packer12 c d)) s

/-- FLIPNX16 (R152). -/
def execFlipnx16 (a : TransferArgs) (np : BitVec 32) (s : State) : Host.Outcome State Fault Refusal :=
  transcode a (planeCount np) 16 (fun c d => .done (copy16 c d)) s

end Sys2Proof.Machine
end

