-- ==== Sys2Proof/Machine/Dispatch.lean ====
section
/-! DEFINITION. The meaning of each instruction: one arm per constructor of `Instr`. -/

namespace Sys2Proof.Machine

/-- Executes the latched command, whose decoding is `i`, to its response (R80, R73). -/
def exec (i : Instr) (s : State) : Host.Outcome State Fault Refusal :=
  match i with
  | .flip3x1 a => Sys2Proof.Machine.execFlip3x1 a s
  | .flip3x2 a => Sys2Proof.Machine.execFlip3x2 a s
  | .flip3x4 a => Sys2Proof.Machine.execFlip3x4 a s
  | .flip3x8 a => Sys2Proof.Machine.execFlip3x8 a s
  | .flip3x12 a => Sys2Proof.Machine.execFlip3x12 a s
  | .flip3x16 a => Sys2Proof.Machine.execFlip3x16 a s
  | .flip4x1 a => Sys2Proof.Machine.execFlip4x1 a s
  | .flip4x2 a => Sys2Proof.Machine.execFlip4x2 a s
  | .flip4x4 a => Sys2Proof.Machine.execFlip4x4 a s
  | .flip4x8 a => Sys2Proof.Machine.execFlip4x8 a s
  | .flip4x12 a => Sys2Proof.Machine.execFlip4x12 a s
  | .flip4x16 a => Sys2Proof.Machine.execFlip4x16 a s
  | .flipnx1 a np => Sys2Proof.Machine.execFlipnx1 a np s
  | .flipnx2 a np => Sys2Proof.Machine.execFlipnx2 a np s
  | .flipnx4 a np => Sys2Proof.Machine.execFlipnx4 a np s
  | .flipnx8 a np => Sys2Proof.Machine.execFlipnx8 a np s
  | .flipnx12 a np => Sys2Proof.Machine.execFlipnx12 a np s
  | .flipnx16 a np => Sys2Proof.Machine.execFlipnx16 a np s
  | .xpose r t mask shift => Sys2Proof.Machine.execXpose r t mask shift s

end Sys2Proof.Machine
end

