-- ==== Sys2Proof/Machine/Step.lean ====
section
/-! DEFINITION. One step of the core: it takes a command word and memory to a response word and memory
(70_reset_and_hazards.md R210). -/

namespace Sys2Proof.Machine

/-- One step. With no command to run the core stays as it is (R14). A word that selects no row of the
opcode table is answered with its status (R54, R82, R177). -/
def step (s : State) : Host.Outcome State Fault Refusal :=
  match s.accept with
  | none => .next s
  | some s' =>
    match decode s'.cmd with
    | .ok i => exec i s'
    | .error st => .next (s'.fail st)

/-- `s` with the table word `w` presented at the command port of an IDLE core, so that the next step
accepts and runs it (R13, R14; notes/assumptions/5.md). -/
def State.withFetchWord (s : State) (nbits w : Nat) : State := s.present (wordOfTable nbits w)

end Sys2Proof.Machine
end

