-- ==== Sys2Proof/Safety.lean ====
section
/-! DEFINITION. The words the statements are made of: the MSB-first bit stream of 00_scope.md R7, what the
host must have set up for a TRANSCODE to run (70_reset_and_hazards.md R203, R205), what a command leaves
unchanged, and the invariant every step keeps. -/

namespace Sys2Proof.Machine

/-- `StreamBit(base, j)` of R7: bit `j`, most significant first, of the byte stream at `base`. -/
def streamBit (m : Memory) (base : Addr) (j : Nat) : Bool :=
  (Memory.read m (base + BitVec.ofNat 32 (j / 8)).toNat).getLsbD (7 - j % 8)

/-- Input byte `i` of plane `p` (`P(p, i)` of R8) in memory `m`. -/
def inByte (m : Memory) (c : Job) (p i : Nat) : Byte := Memory.read m (c.inAddr p i).toNat

/-- Output byte `j` (`Out(j)` of R8) in memory `m`. -/
def outByte (m : Memory) (c : Job) (j : Nat) : Byte := Memory.read m (c.outAddr j).toNat

/-- A length that passes R82 steps 3 and 4 at depth `w` and is not zero. -/
def Admitted (w : Nat) (nbytes : Int) : Prop :=
  0 < nbytes ∧ (w = 12 → nbytes % 3 = 0) ∧ (w = 16 → nbytes % 2 = 0)

/-- The operands under which a routine of `planes` planes and depth `w` runs in state `s`: an admitted
length, at least one plane, and every address of the access set backed (R31, R82, R203). -/
def Ready (a : TransferArgs) (planes w : Nat) (s : State) : Prop :=
  Admitted w a.nbytes.toInt ∧ 0 < planes ∧ (Job.start a planes s.mem).allBacked s.backed

/-- The host kept the output apart from all the command reads (R205). -/
def Separate (a : TransferArgs) (planes : Nat) (s : State) : Prop := (Job.start a planes s.mem).disjoint

/-- Every byte of memory that is not one of the output bytes `Out(0) .. Out(N*n-1)` is unchanged. -/
def OutputOnly (c : Job) (m m' : Memory) : Prop :=
  ∀ x : Nat, (∀ j, j < c.planes * c.n → x ≠ (c.outAddr j).toNat) → Memory.read m' x = Memory.read m x

/-- `t` is `s` after one response word: IDLE, the word at the end of the responses, and the command latch,
the words still presented and Backed unchanged. -/
def Answered (s t : State) (rw : ResponseWord) : Prop :=
  t.port = .idle ∧ t.responses = s.responses ++ [rw] ∧ t.cmd = s.cmd ∧ t.commands = s.commands ∧
    t.backed = s.backed

/-- `t` is `s` after a TRANSCODE that responded OK (status 0), having written output bytes only. -/
def Transcoded (c : Job) (s t : State) : Prop := Answered s t 0#32 ∧ OutputOnly c s.mem t.mem

/-- The output holds the reference stream of R89 at depth `w`: bit `t` of sample `k` of plane `p` of the
input in `m` is bit `(k*N + p)*w + t` of the stream at OUT in `m'`, for each of the `S = 8n/w` samples. -/
def Interleaved (c : Job) (w : Nat) (m m' : Memory) : Prop :=
  ∀ k p t, k < 8 * c.n / w → p < c.planes → t < w →
    streamBit m' c.out ((k * c.planes + p) * w + t) = streamBit m (c.planeBase p) (k * w + t)

/-- The operands, the plane count and the depth of a TRANSCODE routine (R62); XPOSE has none. -/
def routineOf : Instr → Option (TransferArgs × Nat × Nat)
  | .flip3x1 a => some (a, 3, 1)
  | .flip3x2 a => some (a, 3, 2)
  | .flip3x4 a => some (a, 3, 4)
  | .flip3x8 a => some (a, 3, 8)
  | .flip3x12 a => some (a, 3, 12)
  | .flip3x16 a => some (a, 3, 16)
  | .flip4x1 a => some (a, 4, 1)
  | .flip4x2 a => some (a, 4, 2)
  | .flip4x4 a => some (a, 4, 4)
  | .flip4x8 a => some (a, 4, 8)
  | .flip4x12 a => some (a, 4, 12)
  | .flip4x16 a => some (a, 4, 16)
  | .flipnx1 a np => some (a, planeCount np, 1)
  | .flipnx2 a np => some (a, planeCount np, 2)
  | .flipnx4 a np => some (a, planeCount np, 4)
  | .flipnx8 a np => some (a, planeCount np, 8)
  | .flipnx12 a np => some (a, planeCount np, 12)
  | .flipnx16 a np => some (a, planeCount np, 16)
  | .xpose _ _ _ _ => none

/-- An IDLE core with `cw` presented at its command port, and `rest` to follow. -/
def Presented (s : State) (cw : CommandWord) (rest : List CommandWord) : Prop :=
  s.port = .idle ∧ s.commands = cw :: rest

/-- `s` after it has accepted `cw` and answered it with `rw`, with no other effect. -/
def State.answered (s : State) (cw : CommandWord) (rest : List CommandWord) (rw : ResponseWord) : State :=
  { s with port := .idle, cmd := cw, commands := rest, responses := s.responses ++ [rw] }

/-- The depth set `D` of R82, on the signed reading of BPS. -/
def InDepthSet (bps : Int) : Prop :=
  bps = 1 ∨ bps = 2 ∨ bps = 4 ∨ bps = 8 ∨ bps = 12 ∨ bps = 16

/-- The bits of a command word that R54 finds illegal: TRANSCODE with RSV0 set, XPOSE with a reserved bit
set, or another opcode. -/
def IllegalBits (cw : CommandWord) : Prop :=
  (cw.extractLsb 7 0 = 0x01#8 ∧ cw.extractLsb 31 8 ≠ 0#24) ∨
    (cw.extractLsb 7 0 = 0x02#8 ∧
      (cw.extractLsb 31 24 ≠ 0#8 ∨ cw.extractLsb 63 43 ≠ 0#21 ∨ cw.extractLsb 223 64 ≠ 0#160)) ∨
    (cw.extractLsb 7 0 ≠ 0x01#8 ∧ cw.extractLsb 7 0 ≠ 0x02#8)

/-- Two outcomes of the same kind whose states, if any, differ at most in the transient latches (R11). -/
def AgreeButLatches : Host.Outcome State Fault Refusal → Host.Outcome State Fault Refusal → Prop
  | .next t, .next t' => { t with lat := t'.lat } = t'
  | .refused r, .refused r' => r = r'
  | _, _ => False

/-- The number of 1 bits of a byte. -/
def ones (x : Byte) : Nat := ((List.range 8).map fun i => (x.getLsbD i).toNat).sum

/-- The invariant of the core: memory in canonical form, and the bit cursor as R19 describes it, DBIT in
0..7 and the bits of ACC below the filled ones 0. -/
def State.wf (s : State) : Prop :=
  Memory.wf s.mem ∧ s.lat.cursor.dbit < 8 ∧
    ∀ k, k < 8 - s.lat.cursor.dbit → s.lat.cursor.acc.getLsbD k = false

end Sys2Proof.Machine
end

