-- ==== Sys2Proof/Certificates/Slice0/Obligations.lean ====
section
/-! DEFINITION. The statements for the provers, family by family. Each names the rules of spec/ it
formalises; a model's choice is named with its entry in notes/assumptions. -/

open Sys2Proof Sys2Proof.Machine

/-! ## Encoding -/

/-- R52, R53, R62: the decoder reads back every well-formed instruction from its encoding, with every
operand at every value. -/
def Obligations.DecodeOfEncode : Prop :=
  ∀ i : Instr, i.wellFormed = true → decode (encode i) = .ok i

/-- R54: a word that decodes to an instruction is that instruction's encoding, so each instruction has one
word, and only well-formed instructions are decoded. -/
def Obligations.EncodeOfDecode : Prop :=
  ∀ (cw : CommandWord) (i : Instr), decode cw = .ok i → encode i = cw ∧ i.wellFormed = true

/-- R54: the decoder on every word, by the bits the rule names. -/
def Obligations.DecoderFollowsOpcode : Prop :=
  ∀ cw : CommandWord,
    (decode cw = .error .illegalCommand ↔ IllegalBits cw) ∧
    (cw.extractLsb 31 0 = 1#32 →
      decode cw = decodeTranscode
        ⟨cw.extractLsb 63 32, cw.extractLsb 95 64, cw.extractLsb 127 96, cw.extractLsb 159 128⟩
        (cw.extractLsb 191 160) (cw.extractLsb 223 192)) ∧
    (cw.extractLsb 7 0 = 0x02#8 → cw.extractLsb 31 24 = 0#8 → cw.extractLsb 63 43 = 0#21 →
      cw.extractLsb 223 64 = 0#160 →
      decode cw = .ok (.xpose (cw.extractLsb 15 8) (cw.extractLsb 23 16) (cw.extractLsb 39 32)
        (cw.extractLsb 42 40)))

/-- Words written out in 95_test_vectors.md (S1 and S2 of section 1, X2 of section 2, program P4 of section 8)
decode to the instructions they stand for (R57, R62). -/
def Obligations.WrittenWordsDecode : Prop :=
  decode 0x00000001000000030000000100000000000001000000200000000001#224
      = .ok (.flip3x1 ⟨0x2000#32, 0x100#32, 0#32, 1#32⟩) ∧
  decode 0x0000000C000000040000000300000003000001000000200000000001#224
      = .ok (.flip4x12 ⟨0x2000#32, 0x100#32, 3#32, 3#32⟩) ∧
  decode 0x00000004000000020000000100000000000001000000200000000001#224
      = .ok (.flipnx4 ⟨0x2000#32, 0x100#32, 0#32, 1#32⟩ 2#32) ∧
  decode 0x000000000000000000000000000000000000000000000155003CA502#224
      = .ok (.xpose 0xA5#8 0x3C#8 0x55#8 1#3)

/-! ## Ports, responses, reset -/

/-- A step runs the command it decodes: an IDLE core accepts the word presented and becomes BUSY with it
latched (R14, R15), a BUSY core has its command latched already and starts it (notes/assumptions/6.md). -/
def Obligations.StepRunsDecodedCommand : Prop :=
  (∀ (s : State) (cw : CommandWord) (rest : List CommandWord) (i : Instr), Presented s cw rest →
    decode cw = .ok i → step s = exec i { s with port := .busy, cmd := cw, commands := rest }) ∧
  ∀ (s : State) (i : Instr), s.port = .busy → decode s.cmd = .ok i → step s = exec i s

/-- With no command word presented an IDLE core stays as it is (notes/assumptions/5.md). -/
def Obligations.IdleCoreWaits : Prop :=
  ∀ s : State, s.port = .idle → s.commands = [] → step s = .next s

/-- R55: every accepted command word, legal or not, is answered by exactly one response word, whose
reserved bits are 0, whose STATUS is a code of R170, and whose results are 0 but for an XPOSE. Only a step that
would touch an unbacked address is refused: its word decodes to a routine with an admitted length and at least
one plane, whose access set is not backed (R31, notes/assumptions/4.md). That a routine whose output overlaps
what it reads is answered is the model's choice (notes/assumptions/2.md). -/
def Obligations.OneResponsePerCommand : Prop :=
  ∀ (s : State) (cw : CommandWord) (rest : List CommandWord), Presented s cw rest →
    (step s = .refused .unbackedAddress ∧
      ∃ (i : Instr) (a : TransferArgs) (planes w : Nat), decode cw = .ok i ∧ routineOf i = some (a, planes, w) ∧
        Admitted w a.nbytes.toInt ∧ 0 < planes ∧ ¬ (Job.start a planes s.mem).allBacked s.backed) ∨
    ∃ (t : State) (rw : ResponseWord), step s = .next t ∧ t.port = .idle ∧ t.cmd = cw ∧ t.commands = rest ∧
      t.responses = s.responses ++ [rw] ∧ t.backed = s.backed ∧
      (rw.extractLsb 3 0).toNat ≤ 6 ∧ rw.extractLsb 7 4 = 0#4 ∧ rw.extractLsb 31 24 = 0#8 ∧
      ((rw.extractLsb 15 8 ≠ 0#8 ∨ rw.extractLsb 23 16 ≠ 0#8) →
        rw.extractLsb 3 0 = 0#4 ∧ cw.extractLsb 7 0 = 0x02#8)

/-- R153 item 2: no step delivers RangeCheck. -/
def Obligations.RangeCheckNeverDelivered : Prop :=
  ∀ (s t : State) (rw : ResponseWord), step s = .next t → t.responses = s.responses ++ [rw] →
    rw.extractLsb 3 0 ≠ 4#4

/-- R24, R200: after reset the core is IDLE and owes no response. That nothing is presented, that memory lists
nothing and that the core then waits are the model's choices (notes/assumptions/1.md, 5.md). -/
def Obligations.ResetIsIdle : Prop :=
  State.reset.port = .idle ∧ State.reset.responses = [] ∧ State.reset.commands = [] ∧
    State.reset.mem = [] ∧ step State.reset = .next State.reset

/-- R200: the reset input returns the core to IDLE, adds no response and does not touch memory. What stands at
the ports is kept (notes/assumptions/7.md). -/
def Obligations.ResetInputKeepsMemory : Prop :=
  ∀ s : State, s.resetCore.port = .idle ∧ s.resetCore.mem = s.mem ∧ s.resetCore.responses = s.responses ∧
    s.resetCore.commands = s.commands ∧ s.resetCore.backed = s.backed

/-- The model's choice: the invariant holds at reset. R24 leaves the bit cursor unspecified there, so this rests on
the values the model gives it (notes/assumptions/3.md) and on the memory that lists nothing
(notes/assumptions/1.md). -/
def Obligations.ResetIsWellFormed : Prop := State.reset.wf

/-- R19, R153 item 3: from every state in which memory has its canonical form, DBIT is in 0..7 and the bits
of ACC below the filled ones are 0, a step leaves such a state. The canonical form of memory is the model's. -/
def Obligations.StepKeepsWellFormed : Prop :=
  ∀ s t : State, s.wf → step s = .next t → t.wf

/-- R11, R24: what a step does to everything but the transient latches does not depend on the latches it
starts with. -/
def Obligations.LatchesDoNotPersist : Prop :=
  ∀ (s : State) (l : Latches), AgreeButLatches (step s) (step { s with lat := l })

/-! ## Failures -/

/-- R171: BPS outside 1..16, whatever the other operands. -/
def Obligations.BadDepthIsInvalidBitDepth : Prop :=
  ∀ (s : State) (cw : CommandWord) (rest : List CommandWord), Presented s cw rest →
    cw.extractLsb 31 0 = 1#32 →
    ((cw.extractLsb 223 192).toInt < 1 ∨ 16 < (cw.extractLsb 223 192).toInt) →
    step s = .next (s.answered cw rest 1#32)

/-- R172: a negative NPLANES with BPS in 1..16, supported or not. -/
def Obligations.NegativeCountIsInvalidPlaneCount : Prop :=
  ∀ (s : State) (cw : CommandWord) (rest : List CommandWord), Presented s cw rest →
    cw.extractLsb 31 0 = 1#32 →
    1 ≤ (cw.extractLsb 223 192).toInt → (cw.extractLsb 223 192).toInt ≤ 16 →
    (cw.extractLsb 191 160).toInt < 0 →
    step s = .next (s.answered cw rest 2#32)

/-- R173: a depth in 1..16 outside `D`, at every plane count that is not negative. -/
def Obligations.OtherDepthIsUnsupported : Prop :=
  ∀ (s : State) (cw : CommandWord) (rest : List CommandWord), Presented s cw rest →
    cw.extractLsb 31 0 = 1#32 →
    1 ≤ (cw.extractLsb 223 192).toInt → (cw.extractLsb 223 192).toInt ≤ 16 →
    ¬ InDepthSet (cw.extractLsb 223 192).toInt → 0 ≤ (cw.extractLsb 191 160).toInt →
    step s = .next (s.answered cw rest 3#32)

/-- R174: a length that is negative, or not a whole number of groups at depth 12 or 16. -/
def Obligations.BadLengthIsInvalidArgument : Prop :=
  ∀ (s : State) (cw : CommandWord) (rest : List CommandWord), Presented s cw rest →
    cw.extractLsb 31 0 = 1#32 →
    InDepthSet (cw.extractLsb 223 192).toInt → 0 ≤ (cw.extractLsb 191 160).toInt →
    ((cw.extractLsb 159 128).toInt < 0 ∨
      ((cw.extractLsb 223 192).toInt = 12 ∧ (cw.extractLsb 159 128).toInt % 3 ≠ 0) ∨
      ((cw.extractLsb 223 192).toInt = 16 ∧ (cw.extractLsb 159 128).toInt % 2 ≠ 0)) →
    step s = .next (s.answered cw rest 5#32)

/-- R54, R177: an illegal word is answered IllegalCommand and has no other effect. -/
def Obligations.IllegalWordIsIllegalCommand : Prop :=
  ∀ (s : State) (cw : CommandWord) (rest : List CommandWord), Presented s cw rest → IllegalBits cw →
    step s = .next (s.answered cw rest 6#32)

/-- R86: a command with NBYTES = 0 that passes the checks answers OK and has no other effect, whatever is backed;
the checks of R82 still apply first, as the rule's two examples say. -/
def Obligations.ZeroLengthIsOk : Prop :=
  ∀ (s : State) (cw : CommandWord) (rest : List CommandWord), Presented s cw rest →
    cw.extractLsb 31 0 = 1#32 → (cw.extractLsb 159 128).toInt = 0 →
    (InDepthSet (cw.extractLsb 223 192).toInt → 0 ≤ (cw.extractLsb 191 160).toInt →
      step s = .next (s.answered cw rest 0#32)) ∧
    ((cw.extractLsb 223 192).toInt = 3 → 0 ≤ (cw.extractLsb 191 160).toInt →
      step s = .next (s.answered cw rest 3#32)) ∧
    (1 ≤ (cw.extractLsb 223 192).toInt → (cw.extractLsb 223 192).toInt ≤ 16 →
      (cw.extractLsb 191 160).toInt = -1 → step s = .next (s.answered cw rest 2#32))

/-- R87: a command that passes the checks with NPLANES = 0 answers OK and has no other effect. -/
def Obligations.ZeroPlanesIsOk : Prop :=
  ∀ (s : State) (cw : CommandWord) (rest : List CommandWord), Presented s cw rest →
    cw.extractLsb 31 0 = 1#32 →
    InDepthSet (cw.extractLsb 223 192).toInt → (cw.extractLsb 191 160).toInt = 0 →
    0 ≤ (cw.extractLsb 159 128).toInt →
    ((cw.extractLsb 223 192).toInt = 12 → (cw.extractLsb 159 128).toInt % 3 = 0) →
    ((cw.extractLsb 223 192).toInt = 16 → (cw.extractLsb 159 128).toInt % 2 = 0) →
    step s = .next (s.answered cw rest 0#32)

/-- R31: a routine whose access set holds an unbacked address has no meaning, and the model refuses it
(notes/assumptions/4.md). -/
def Obligations.UnbackedAddressIsRefused : Prop :=
  ∀ (i : Instr) (a : TransferArgs) (planes w : Nat) (s : State), routineOf i = some (a, planes, w) →
    Admitted w a.nbytes.toInt → 0 < planes → ¬ (Job.start a planes s.mem).allBacked s.backed →
    exec i s = .refused .unbackedAddress

/-! ## What every routine does -/

/-- R38, R90: each of the 18 routines, on admitted operands with every address backed, answers OK and
changes no byte of memory but `Out(0) .. Out(N*n-1)`. Where the output overlaps what the command reads, R205
gives no defined result, and that the command answers OK and changes no other byte is the model's choice
(notes/assumptions/2.md). -/
def Obligations.RoutinesWriteOutputOnly : Prop :=
  ∀ (i : Instr) (a : TransferArgs) (planes w : Nat) (s : State), routineOf i = some (a, planes, w) →
    Ready a planes w s →
    ∃ t, exec i s = .next t ∧ Transcoded (Job.start a planes s.mem) s t ∧
      (Separate a planes s → t.freeIx = s.freeIx)

/-- The model's reading of R205 (notes/assumptions/2.md): where the output overlaps the plane table or an
input, each output byte is a free value. -/
def Obligations.OverlappedOutputIsFree : Prop :=
  ∀ (i : Instr) (a : TransferArgs) (planes w : Nat) (s : State), routineOf i = some (a, planes, w) →
    Ready a planes w s → ¬ Separate a planes s → planes * a.nbytes.toInt.toNat ≤ 2 ^ 32 →
    ∃ t, exec i s = .next t ∧ t.freeIx = s.freeIx + planes * a.nbytes.toInt.toNat ∧
      ∀ j, j < planes * a.nbytes.toInt.toNat →
        outByte t.mem (Job.start a planes s.mem) j = Config.overlapByte (s.freeIx + j)

/-- R36: entry `p` of the plane table is the little-endian number at `PTAB + 4p`, modulo `2^32`. -/
def Obligations.PlaneTableIsLittleEndian : Prop :=
  ∀ (a : TransferArgs) (planes p : Nat) (m : Memory), p < planes →
    ((Job.start a planes m).pp.getD p 0#32).toNat =
      (Memory.read m (a.ptab + BitVec.ofNat 32 (4 * p)).toNat).toNat
      + 2 ^ 8 * (Memory.read m (a.ptab + BitVec.ofNat 32 (4 * p + 1)).toNat).toNat
      + 2 ^ 16 * (Memory.read m (a.ptab + BitVec.ofNat 32 (4 * p + 2)).toNat).toNat
      + 2 ^ 24 * (Memory.read m (a.ptab + BitVec.ofNat 32 (4 * p + 3)).toNat).toNat

/-- R81: the answer and the bytes written depend only on the operands, the bytes of the plane table and the
bytes of the planes. -/
def Obligations.RoutinesArePure : Prop :=
  ∀ (i : Instr) (a : TransferArgs) (planes w : Nat) (s s' : State), routineOf i = some (a, planes, w) →
    Ready a planes w s → Separate a planes s → s'.backed = s.backed →
    (∀ j, j < 4 * planes →
      Memory.read s'.mem ((Job.start a planes s.mem).tableAddr j).toNat
        = Memory.read s.mem ((Job.start a planes s.mem).tableAddr j).toNat) →
    (∀ p k, p < planes → k < (Job.start a planes s.mem).n →
      inByte s'.mem (Job.start a planes s.mem) p k = inByte s.mem (Job.start a planes s.mem) p k) →
    ∃ t t', exec i s = .next t ∧ exec i s' = .next t' ∧
      t.responses = s.responses ++ [0#32] ∧ t'.responses = s'.responses ++ [0#32] ∧
      ∀ j, j < planes * (Job.start a planes s.mem).n →
        outByte t'.mem (Job.start a planes s.mem) j = outByte t.mem (Job.start a planes s.mem) j

/-! ## XPOSE -/

/-- R70, R73: XPOSE always completes; the response word carries the two results, the latches R, S and T
hold the results and the masked difference, and nothing else changes. -/
def Obligations.XposeResult : Prop :=
  ∀ (r s mask : Byte) (shift : BitVec 3) (st : State),
    let t : Byte := ((s >>> shift.toNat) ^^^ r) &&& mask
    let r' : Byte := r ^^^ t
    let s' : Byte := s ^^^ (t <<< shift.toNat)
    exec (.xpose r s mask shift) st = .next
      { st with
        port := .idle
        lat := { st.lat with xp := ⟨r', s', t⟩ }
        responses := st.responses ++ [0#8 ++ s' ++ r' ++ 0#8] }

/-- R71: the two results of the primitive, bit by bit, with no side condition. -/
def Obligations.XposeExchangesBits : Prop :=
  ∀ (r s mask : Byte) (shift : Nat), shift ≤ 7 →
    (∀ i, i < 8 → (xpose r s mask shift).1.getLsbD i =
      if mask.getLsbD i = false then r.getLsbD i
      else if i + shift ≤ 7 then s.getLsbD (i + shift) else false) ∧
    ∀ j, j < 8 → (xpose r s mask shift).2.getLsbD j =
      if shift ≤ j ∧ mask.getLsbD (j - shift) = true then r.getLsbD (j - shift) else s.getLsbD j

/-- R72 item 1: where no set bit of the mask is shifted out, the primitive keeps the number of 1 bits and
applying it twice restores both operands. -/
def Obligations.XposeIsInvolution : Prop :=
  ∀ (r s mask : Byte) (shift : Nat), shift ≤ 7 → (∀ i, i < 8 → 8 ≤ i + shift → mask.getLsbD i = false) →
    ones (xpose r s mask shift).1 + ones (xpose r s mask shift).2 = ones r + ones s ∧
    xpose (xpose r s mask shift).1 (xpose r s mask shift).2 mask shift = (r, s)

/-- R72 items 2 to 4. -/
def Obligations.XposeKeepsUnmaskedBits : Prop :=
  ∀ (r s mask : Byte) (shift : Nat), shift ≤ 7 →
    xpose r s 0x00#8 shift = (r, s) ∧ xpose r s 0xFF#8 0 = (s, r) ∧
    (xpose r s mask shift).1 &&& ~~~mask = r &&& ~~~mask ∧
    (xpose r s mask shift).2 &&& ~~~(mask <<< shift) = s &&& ~~~(mask <<< shift)

/-! ## The expansion tables -/

/-- R101: bit `j` of the index is at bit `3j + 2` of the entry, and every other bit of the entry is 0. -/
def Obligations.Tab3x1Relocates : Prop :=
  ∀ (x : Byte) (q : Nat), q < 24 →
    (tab3x1 x).getLsbD q = if q % 3 = 2 then x.getLsbD (q / 3) else false

/-- R102: the field `x[2j+1 : 2j]` is at bits `6j+5 : 6j+4` of the entry, and every other bit is 0. -/
def Obligations.Tab3x2Relocates : Prop :=
  ∀ (x : Byte) (q : Nat), q < 24 →
    (tab3x2 x).getLsbD q = if 4 ≤ q % 6 then x.getLsbD (2 * (q / 6) + (q % 6 - 4)) else false

/-! ## The fixed 3-plane family -/

/-- R103. -/
def Obligations.Flip3x1Bytes : Prop :=
  ∀ (a : TransferArgs) (s : State), Ready a 3 1 s → Separate a 3 s →
    let c := Job.start a 3 s.mem
    ∃ t, exec (.flip3x1 a) s = .next t ∧ Transcoded c s t ∧
      ∀ i, i < c.n →
        let b24 : BitVec 24 := tab3x1 (inByte s.mem c 0 i) ||| (tab3x1 (inByte s.mem c 1 i) >>> 1)
          ||| (tab3x1 (inByte s.mem c 2 i) >>> 2)
        outByte t.mem c (3 * i) = b24.extractLsb 23 16 ∧
        outByte t.mem c (3 * i + 1) = b24.extractLsb 15 8 ∧
        outByte t.mem c (3 * i + 2) = b24.extractLsb 7 0

/-- R104. -/
def Obligations.Flip3x2Bytes : Prop :=
  ∀ (a : TransferArgs) (s : State), Ready a 3 2 s → Separate a 3 s →
    let c := Job.start a 3 s.mem
    ∃ t, exec (.flip3x2 a) s = .next t ∧ Transcoded c s t ∧
      ∀ i, i < c.n →
        let b24 : BitVec 24 := tab3x2 (inByte s.mem c 0 i) ||| (tab3x2 (inByte s.mem c 1 i) >>> 2)
          ||| (tab3x2 (inByte s.mem c 2 i) >>> 4)
        outByte t.mem c (3 * i) = b24.extractLsb 23 16 ∧
        outByte t.mem c (3 * i + 1) = b24.extractLsb 15 8 ∧
        outByte t.mem c (3 * i + 2) = b24.extractLsb 7 0

/-- R105. -/
def Obligations.Flip3x4Bytes : Prop :=
  ∀ (a : TransferArgs) (s : State), Ready a 3 4 s → Separate a 3 s →
    let c := Job.start a 3 s.mem
    ∃ t, exec (.flip3x4 a) s = .next t ∧ Transcoded c s t ∧
      ∀ i, i < c.n →
        outByte t.mem c (3 * i) = (inByte s.mem c 0 i &&& 0xF0#8) ||| (inByte s.mem c 1 i >>> 4) ∧
        outByte t.mem c (3 * i + 1) = (inByte s.mem c 2 i &&& 0xF0#8) ||| (inByte s.mem c 0 i &&& 0x0F#8) ∧
        outByte t.mem c (3 * i + 2) = (inByte s.mem c 1 i <<< 4) ||| (inByte s.mem c 2 i &&& 0x0F#8)

/-- R106. -/
def Obligations.Flip3x8Bytes : Prop :=
  ∀ (a : TransferArgs) (s : State), Ready a 3 8 s → Separate a 3 s →
    let c := Job.start a 3 s.mem
    ∃ t, exec (.flip3x8 a) s = .next t ∧ Transcoded c s t ∧
      ∀ i p, i < c.n → p < 3 → outByte t.mem c (3 * i + p) = inByte s.mem c p i

/-- R107. -/
def Obligations.Flip3x12Bytes : Prop :=
  ∀ (a : TransferArgs) (s : State), Ready a 3 12 s → Separate a 3 s →
    let c := Job.start a 3 s.mem
    ∃ t, exec (.flip3x12 a) s = .next t ∧ Transcoded c s t ∧
      ∀ g, g < c.n / 3 →
        let x : Nat → Nat → Byte := fun p k => inByte s.mem c p (3 * g + k)
        outByte t.mem c (9 * g) = x 0 0 ∧
        outByte t.mem c (9 * g + 1) = (x 0 1 &&& 0xF0#8) ||| (x 1 0 >>> 4) ∧
        outByte t.mem c (9 * g + 2) = (x 1 0 <<< 4) ||| (x 1 1 >>> 4) ∧
        outByte t.mem c (9 * g + 3) = x 2 0 ∧
        outByte t.mem c (9 * g + 4) = (x 2 1 &&& 0xF0#8) ||| (x 0 1 &&& 0x0F#8) ∧
        outByte t.mem c (9 * g + 5) = x 0 2 ∧
        outByte t.mem c (9 * g + 6) = (x 1 1 <<< 4) ||| (x 1 2 >>> 4) ∧
        outByte t.mem c (9 * g + 7) = (x 1 2 <<< 4) ||| (x 2 1 &&& 0x0F#8) ∧
        outByte t.mem c (9 * g + 8) = x 2 2

/-- R108. -/
def Obligations.Flip3x16Bytes : Prop :=
  ∀ (a : TransferArgs) (s : State), Ready a 3 16 s → Separate a 3 s →
    let c := Job.start a 3 s.mem
    ∃ t, exec (.flip3x16 a) s = .next t ∧ Transcoded c s t ∧
      ∀ k p, k < c.n / 2 → p < 3 →
        outByte t.mem c (6 * k + 2 * p) = inByte s.mem c p (2 * k) ∧
        outByte t.mem c (6 * k + 2 * p + 1) = inByte s.mem c p (2 * k + 1)

/-- R89 for the fixed 3-plane family: the output is the reference stream. -/
def Obligations.Fixed3IsReferenceStream : Prop :=
  ∀ (i : Instr) (a : TransferArgs) (w : Nat) (s : State),
    (i, w) ∈ [(Instr.flip3x1 a, 1), (.flip3x2 a, 2), (.flip3x4 a, 4), (.flip3x8 a, 8), (.flip3x12 a, 12),
      (.flip3x16 a, 16)] →
    Ready a 3 w s → Separate a 3 s →
    ∃ t, exec i s = .next t ∧ Transcoded (Job.start a 3 s.mem) s t ∧
      Interleaved (Job.start a 3 s.mem) w s.mem t.mem

/-- R17 to R19, R103 to R108: a 3-plane routine leaves R, S, T, B1 to B4, the fourth group latch, the bit
cursor, V, BI and PI alone. Which latches a routine uses is the model's reading (notes/assumptions/10.md). Where the
output overlaps what the command reads (R205), that it completes, with the latches its loops leave, is the model's
choice too (notes/assumptions/2.md). -/
def Obligations.Fixed3LatchFrame : Prop :=
  ∀ (i : Instr) (a : TransferArgs) (w : Nat) (s : State), routineOf i = some (a, 3, w) →
    i ∈ [Instr.flip3x1 a, .flip3x2 a, .flip3x4 a, .flip3x8 a, .flip3x12 a, .flip3x16 a] →
    Ready a 3 w s →
    ∃ t, exec i s = .next t ∧ t.lat.xp = s.lat.xp ∧ t.lat.cursor = s.lat.cursor ∧ t.lat.v = s.lat.v ∧
      t.lat.pos.bi = s.lat.pos.bi ∧ t.lat.pos.pi = s.lat.pos.pi ∧ t.lat.eng.b1 = s.lat.eng.b1 ∧
      t.lat.eng.b2 = s.lat.eng.b2 ∧ t.lat.eng.b3 = s.lat.eng.b3 ∧ t.lat.eng.b4 = s.lat.eng.b4 ∧
      t.lat.eng.gd = s.lat.eng.gd

/-! ## The fixed 4-plane family -/

/-- R121: two transpose stages and the nibble assembly. -/
def Obligations.Flip4x1Bytes : Prop :=
  ∀ (a : TransferArgs) (s : State), Ready a 4 1 s → Separate a 4 s →
    let c := Job.start a 4 s.mem
    ∃ t, exec (.flip4x1 a) s = .next t ∧ Transcoded c s t ∧
      ∀ i, i < c.n →
        let b12 := xpose (inByte s.mem c 0 i) (inByte s.mem c 1 i) 0x55#8 1
        let b34 := xpose (inByte s.mem c 2 i) (inByte s.mem c 3 i) 0x55#8 1
        let b13 := xpose b12.1 b34.1 0x33#8 2
        let b24 := xpose b12.2 b34.2 0x33#8 2
        outByte t.mem c (4 * i) = (b13.1 &&& 0xF0#8) ||| (b24.1 >>> 4) ∧
        outByte t.mem c (4 * i + 1) = (b13.2 &&& 0xF0#8) ||| (b24.2 >>> 4) ∧
        outByte t.mem c (4 * i + 2) = (b13.1 <<< 4) ||| (b24.1 &&& 0x0F#8) ∧
        outByte t.mem c (4 * i + 3) = (b13.2 <<< 4) ||| (b24.2 &&& 0x0F#8)

/-- R122: two transpose stages, the latches written as they are. -/
def Obligations.Flip4x2Bytes : Prop :=
  ∀ (a : TransferArgs) (s : State), Ready a 4 2 s → Separate a 4 s →
    let c := Job.start a 4 s.mem
    ∃ t, exec (.flip4x2 a) s = .next t ∧ Transcoded c s t ∧
      ∀ i, i < c.n →
        let b13 := xpose (inByte s.mem c 0 i) (inByte s.mem c 2 i) 0x0F#8 4
        let b24 := xpose (inByte s.mem c 1 i) (inByte s.mem c 3 i) 0x0F#8 4
        let b12 := xpose b13.1 b24.1 0x33#8 2
        let b34 := xpose b13.2 b24.2 0x33#8 2
        outByte t.mem c (4 * i) = b12.1 ∧ outByte t.mem c (4 * i + 1) = b12.2 ∧
        outByte t.mem c (4 * i + 2) = b34.1 ∧ outByte t.mem c (4 * i + 3) = b34.2

/-- R123. -/
def Obligations.Flip4x4Bytes : Prop :=
  ∀ (a : TransferArgs) (s : State), Ready a 4 4 s → Separate a 4 s →
    let c := Job.start a 4 s.mem
    ∃ t, exec (.flip4x4 a) s = .next t ∧ Transcoded c s t ∧
      ∀ i, i < c.n →
        outByte t.mem c (4 * i) = (inByte s.mem c 0 i &&& 0xF0#8) ||| (inByte s.mem c 1 i >>> 4) ∧
        outByte t.mem c (4 * i + 1) = (inByte s.mem c 2 i &&& 0xF0#8) ||| (inByte s.mem c 3 i >>> 4) ∧
        outByte t.mem c (4 * i + 2) = (inByte s.mem c 0 i <<< 4) ||| (inByte s.mem c 1 i &&& 0x0F#8) ∧
        outByte t.mem c (4 * i + 3) = (inByte s.mem c 2 i <<< 4) ||| (inByte s.mem c 3 i &&& 0x0F#8)

/-- R124. -/
def Obligations.Flip4x8Bytes : Prop :=
  ∀ (a : TransferArgs) (s : State), Ready a 4 8 s → Separate a 4 s →
    let c := Job.start a 4 s.mem
    ∃ t, exec (.flip4x8 a) s = .next t ∧ Transcoded c s t ∧
      ∀ i p, i < c.n → p < 4 → outByte t.mem c (4 * i + p) = inByte s.mem c p i

/-- R125. -/
def Obligations.Flip4x12Bytes : Prop :=
  ∀ (a : TransferArgs) (s : State), Ready a 4 12 s → Separate a 4 s →
    let c := Job.start a 4 s.mem
    ∃ t, exec (.flip4x12 a) s = .next t ∧ Transcoded c s t ∧
      ∀ g, g < c.n / 3 →
        let x : Nat → Nat → Byte := fun p k => inByte s.mem c p (3 * g + k)
        outByte t.mem c (12 * g) = x 0 0 ∧
        outByte t.mem c (12 * g + 1) = (x 0 1 &&& 0xF0#8) ||| (x 1 0 >>> 4) ∧
        outByte t.mem c (12 * g + 2) = (x 1 0 <<< 4) ||| (x 1 1 >>> 4) ∧
        outByte t.mem c (12 * g + 3) = x 2 0 ∧
        outByte t.mem c (12 * g + 4) = (x 2 1 &&& 0xF0#8) ||| (x 3 0 >>> 4) ∧
        outByte t.mem c (12 * g + 5) = (x 3 0 <<< 4) ||| (x 3 1 >>> 4) ∧
        outByte t.mem c (12 * g + 6) = (x 0 1 <<< 4) ||| (x 0 2 >>> 4) ∧
        outByte t.mem c (12 * g + 7) = (x 0 2 <<< 4) ||| (x 1 1 &&& 0x0F#8) ∧
        outByte t.mem c (12 * g + 8) = x 1 2 ∧
        outByte t.mem c (12 * g + 9) = (x 2 1 <<< 4) ||| (x 2 2 >>> 4) ∧
        outByte t.mem c (12 * g + 10) = (x 2 2 <<< 4) ||| (x 3 1 &&& 0x0F#8) ∧
        outByte t.mem c (12 * g + 11) = x 3 2

/-- R126. -/
def Obligations.Flip4x16Bytes : Prop :=
  ∀ (a : TransferArgs) (s : State), Ready a 4 16 s → Separate a 4 s →
    let c := Job.start a 4 s.mem
    ∃ t, exec (.flip4x16 a) s = .next t ∧ Transcoded c s t ∧
      ∀ k p, k < c.n / 2 → p < 4 →
        outByte t.mem c (8 * k + 2 * p) = inByte s.mem c p (2 * k) ∧
        outByte t.mem c (8 * k + 2 * p + 1) = inByte s.mem c p (2 * k + 1)

/-- R89 for the fixed 4-plane family. -/
def Obligations.Fixed4IsReferenceStream : Prop :=
  ∀ (i : Instr) (a : TransferArgs) (w : Nat) (s : State),
    (i, w) ∈ [(Instr.flip4x1 a, 1), (.flip4x2 a, 2), (.flip4x4 a, 4), (.flip4x8 a, 8), (.flip4x12 a, 12),
      (.flip4x16 a, 16)] →
    Ready a 4 w s → Separate a 4 s →
    ∃ t, exec i s = .next t ∧ Transcoded (Job.start a 4 s.mem) s t ∧
      Interleaved (Job.start a 4 s.mem) w s.mem t.mem

/-- A 4-plane routine leaves B24, the bit cursor, V, BI and PI alone, and R, S and T too unless it is
FLIP4X1 or FLIP4X2 (R74). Which latches a routine uses is the model's reading (notes/assumptions/10.md). Where the
output overlaps what the command reads (R205), that it completes, with the latches its loops leave, is the model's
choice too (notes/assumptions/2.md). -/
def Obligations.Fixed4LatchFrame : Prop :=
  ∀ (i : Instr) (a : TransferArgs) (w : Nat) (s : State), routineOf i = some (a, 4, w) →
    i ∈ [Instr.flip4x1 a, .flip4x2 a, .flip4x4 a, .flip4x8 a, .flip4x12 a, .flip4x16 a] →
    Ready a 4 w s →
    ∃ t, exec i s = .next t ∧ t.lat.cursor = s.lat.cursor ∧ t.lat.v = s.lat.v ∧
      t.lat.pos.bi = s.lat.pos.bi ∧ t.lat.pos.pi = s.lat.pos.pi ∧ t.lat.eng.b24 = s.lat.eng.b24 ∧
      (i ≠ .flip4x1 a → i ≠ .flip4x2 a → t.lat.xp = s.lat.xp)

/-! ## The generic path -/

/-- R141: Extract fails RangeCheck past the plane's bits, changing nothing, and otherwise gives the sample.
The depths are those of the packer and `bi` is a multiple of the depth, as its callers ensure. -/
def Obligations.ExtractGivesSample : Prop :=
  ∀ (c : Job) (d : Datapath) (p bi w : Nat), w = 1 ∨ w = 2 ∨ w = 4 ∨ w = 8 → bi % w = 0 →
    (8 * c.n < bi + w → extract c p bi w d = .failed .rangeCheck d) ∧
    (bi + w ≤ 8 * c.n → ∃ v : BitVec 16, extract c p bi w d = .done (d.setV v) ∧ v.toNat < 2 ^ w ∧
      ∀ t, t < w → v.getLsbD (w - 1 - t) = streamBit d.mem (c.planeBase p) (bi + t))

/-- R144: Extract12 gives the 12-bit sample, by the alignment of the bit index. -/
def Obligations.Extract12GivesSample : Prop :=
  ∀ (c : Job) (d : Datapath) (p bi : Nat), bi % 12 = 0 → bi + 12 ≤ 8 * c.n →
    ∃ v : BitVec 16, extract12 c p bi d = d.setV v ∧ v.toNat < 2 ^ 12 ∧
      ∀ t, t < 12 → v.getLsbD (11 - t) = streamBit d.mem (c.planeBase p) (bi + t)

/-- R89, R146 to R150 for the shared packer: the output is the reference stream. No word decodes to the counts 3
and 4, which the model runs as well (notes/assumptions/15.md). -/
def Obligations.PackerIsReferenceStream : Prop :=
  ∀ (i : Instr) (a : TransferArgs) (np : BitVec 32) (w : Nat) (s : State),
    (i, w) ∈ [(Instr.flipnx1 a np, 1), (.flipnx2 a np, 2), (.flipnx4 a np, 4), (.flipnx8 a np, 8)] →
    Ready a (planeCount np) w s → Separate a (planeCount np) s →
    ∃ t, exec i s = .next t ∧ Transcoded (Job.start a (planeCount np) s.mem) s t ∧
      Interleaved (Job.start a (planeCount np) s.mem) w s.mem t.mem

/-- R89, R151: FLIPNX12 writes the reference stream. No word decodes to the counts 3 and 4, which the model runs
as well (notes/assumptions/15.md). -/
def Obligations.Flipnx12IsReferenceStream : Prop :=
  ∀ (a : TransferArgs) (np : BitVec 32) (s : State),
    Ready a (planeCount np) 12 s → Separate a (planeCount np) s →
    ∃ t, exec (.flipnx12 a np) s = .next t ∧ Transcoded (Job.start a (planeCount np) s.mem) s t ∧
      Interleaved (Job.start a (planeCount np) s.mem) 12 s.mem t.mem

/-- R94 item 1, R150: at depth 8 the generic path concatenates the planes' bytes, pixel by pixel. -/
def Obligations.Flipnx8Bytes : Prop :=
  ∀ (a : TransferArgs) (np : BitVec 32) (s : State),
    Ready a (planeCount np) 8 s → Separate a (planeCount np) s →
    let c := Job.start a (planeCount np) s.mem
    ∃ t, exec (.flipnx8 a np) s = .next t ∧ Transcoded c s t ∧
      ∀ i p, i < c.n → p < c.planes → outByte t.mem c (i * c.planes + p) = inByte s.mem c p i

/-- R94 item 2, R152: at depth 16 the generic path copies 2-byte groups verbatim. -/
def Obligations.Flipnx16Bytes : Prop :=
  ∀ (a : TransferArgs) (np : BitVec 32) (s : State),
    Ready a (planeCount np) 16 s → Separate a (planeCount np) s →
    let c := Job.start a (planeCount np) s.mem
    ∃ t, exec (.flipnx16 a np) s = .next t ∧ Transcoded c s t ∧
      ∀ k p b, k < c.n / 2 → p < c.planes → b < 2 →
        outByte t.mem c (2 * (k * c.planes + p) + b) = inByte s.mem c p (2 * k + b)

/-- R89: when a command responds OK the output holds exactly the reference stream, whichever of the 18
routines ran. -/
def Obligations.RoutinesWriteReferenceStream : Prop :=
  ∀ (i : Instr) (a : TransferArgs) (planes w : Nat) (s : State), routineOf i = some (a, planes, w) →
    Ready a planes w s → Separate a planes s →
    ∃ t, exec i s = .next t ∧ Transcoded (Job.start a planes s.mem) s t ∧
      Interleaved (Job.start a planes s.mem) w s.mem t.mem

/-- R94 item 3: one plane is copied, at every depth. -/
def Obligations.OnePlaneIsCopied : Prop :=
  ∀ (i : Instr) (a : TransferArgs) (w : Nat) (s : State),
    (i, w) ∈ [(Instr.flipnx1 a 1#32, 1), (.flipnx2 a 1#32, 2), (.flipnx4 a 1#32, 4), (.flipnx8 a 1#32, 8),
      (.flipnx12 a 1#32, 12), (.flipnx16 a 1#32, 16)] →
    Ready a 1 w s → Separate a 1 s →
    ∃ t, exec i s = .next t ∧ Transcoded (Job.start a 1 s.mem) s t ∧
      ∀ j, j < (Job.start a 1 s.mem).n →
        outByte t.mem (Job.start a 1 s.mem) j = inByte s.mem (Job.start a 1 s.mem) 0 j

/-- After R93, which names depths 1, 2, 4 and 8: for 3 and 4 planes, at every depth, a fixed routine and the generic routine run with the same operands
give the same answer and leave the same memory. Running the generic routine with 3 or 4 planes is the model's
choice (notes/assumptions/15.md). -/
def Obligations.FixedEqualsGeneric : Prop :=
  ∀ (f g : Instr) (a : TransferArgs) (planes w : Nat) (s : State),
    (f, g, planes, w) ∈ [(Instr.flip3x1 a, Instr.flipnx1 a 3#32, 3, 1), (.flip3x2 a, .flipnx2 a 3#32, 3, 2),
      (.flip3x4 a, .flipnx4 a 3#32, 3, 4), (.flip3x8 a, .flipnx8 a 3#32, 3, 8),
      (.flip3x12 a, .flipnx12 a 3#32, 3, 12), (.flip3x16 a, .flipnx16 a 3#32, 3, 16),
      (.flip4x1 a, .flipnx1 a 4#32, 4, 1), (.flip4x2 a, .flipnx2 a 4#32, 4, 2),
      (.flip4x4 a, .flipnx4 a 4#32, 4, 4), (.flip4x8 a, .flipnx8 a 4#32, 4, 8),
      (.flip4x12 a, .flipnx12 a 4#32, 4, 12), (.flip4x16 a, .flipnx16 a 4#32, 4, 16)] →
    Ready a planes w s → Separate a planes s →
    ∃ t t', exec f s = .next t ∧ exec g s = .next t' ∧ t.responses = t'.responses ∧
      ∀ x, Memory.read t.mem x = Memory.read t'.mem x

/-- R153 items 1 and 4: the packer and the depth-12 routine end with the cursor empty, just past the last
output byte. Where the output overlaps what the command reads (R205), that it completes, with the cursor its loops
leave, is the model's choice (notes/assumptions/2.md); so is running counts 3 and 4 (notes/assumptions/15.md). -/
def Obligations.CursorEndsPastOutput : Prop :=
  ∀ (i : Instr) (a : TransferArgs) (np : BitVec 32) (w : Nat) (s : State),
    (i, w) ∈ [(Instr.flipnx1 a np, 1), (.flipnx2 a np, 2), (.flipnx4 a np, 4), (.flipnx8 a np, 8),
      (.flipnx12 a np, 12)] →
    Ready a (planeCount np) w s →
    ∃ t, exec i s = .next t ∧
      t.lat.cursor = ⟨a.out + BitVec.ofNat 32 (planeCount np * a.nbytes.toInt.toNat), 0, 0#8⟩

/-- A generic routine leaves R, S, T, the engine latches and the byte index of the fixed routines alone (R74; the
model's reading, notes/assumptions/10.md; counts 3 and 4: notes/assumptions/15.md). Where the
output overlaps what the command reads (R205), that it completes, with the latches its loops leave, is the model's
choice too (notes/assumptions/2.md). -/
def Obligations.GenericLatchFrame : Prop :=
  ∀ (i : Instr) (a : TransferArgs) (np : BitVec 32) (w : Nat) (s : State),
    (i, w) ∈ [(Instr.flipnx1 a np, 1), (.flipnx2 a np, 2), (.flipnx4 a np, 4), (.flipnx8 a np, 8),
      (.flipnx12 a np, 12), (.flipnx16 a np, 16)] →
    Ready a (planeCount np) w s →
    ∃ t, exec i s = .next t ∧ t.lat.xp = s.lat.xp ∧ t.lat.eng = s.lat.eng ∧ t.lat.pos.i = s.lat.pos.i
end

