-- ==== Sys2Proof/Laws/Memory.lean ====
section
/-! SUPPORT. The laws of memory: reading after writing, the canonical form kept by every operation, and
equal readings making equal memories. -/

namespace Sys2Proof.Machine

theorem Memory.read_erase_same (m : Memory) (a : Nat) :
    Memory.read (Memory.erase m a) a = Memory.unlisted := by
  induction m with
  | nil => rfl
  | cons c rest ih =>
    obtain ⟨k, v⟩ := c
    by_cases h : k = a
    · simpa [Memory.erase, h] using ih
    · have h' : ¬ a = k := fun e => h e.symm
      simpa [Memory.erase, Memory.read, h, h'] using ih

theorem Memory.read_erase_ne (m : Memory) {a b : Nat} (h : b ≠ a) :
    Memory.read (Memory.erase m a) b = Memory.read m b := by
  induction m with
  | nil => rfl
  | cons c rest ih =>
    obtain ⟨k, v⟩ := c
    by_cases hk : k = a
    · subst hk
      simpa [Memory.erase, Memory.read, h] using ih
    · by_cases hb : b = k
      · simp [Memory.erase, Memory.read, hk, hb]
      · simpa [Memory.erase, Memory.read, hk, hb] using ih

theorem Memory.read_insert_same (m : Memory) (a : Nat) (v : Byte)
    (h : ∀ c ∈ m, c.1 ≠ a) : Memory.read (Memory.insert m a v) a = v := by
  induction m with
  | nil => simp [Memory.insert, Memory.read]
  | cons c rest ih =>
    obtain ⟨k, w⟩ := c
    have hk : a ≠ k := fun e => h (k, w) (by simp) e.symm
    by_cases hl : a < k
    · simp [Memory.insert, Memory.read, hl]
    · simpa [Memory.insert, Memory.read, hl, hk] using
        ih fun c hc => h c (List.mem_cons_of_mem _ hc)

theorem Memory.read_insert_ne (m : Memory) {a b : Nat} (v : Byte) (h : b ≠ a) :
    Memory.read (Memory.insert m a v) b = Memory.read m b := by
  induction m with
  | nil => simp [Memory.insert, Memory.read, h]
  | cons c rest ih =>
    obtain ⟨k, w⟩ := c
    by_cases hl : a < k
    · simp [Memory.insert, Memory.read, hl, h]
    · by_cases hb : b = k
      · simp [Memory.insert, Memory.read, hl, hb]
      · simpa [Memory.insert, Memory.read, hl, hb] using ih

theorem Memory.not_listed_erase (m : Memory) (a : Nat) : ∀ c ∈ Memory.erase m a, c.1 ≠ a := by
  intro c hc
  simpa [Memory.erase] using (List.mem_filter.mp hc).2

/-- Reading the byte just written gives the value written. -/
@[simp] theorem Memory.read_write_same (m : Memory) (a : Nat) (v : Byte) :
    Memory.read (Memory.write m a v) a = v := by
  unfold Memory.write
  split
  · rename_i h; rw [Memory.read_erase_same, h]
  · exact Memory.read_insert_same _ _ _ (Memory.not_listed_erase m a)

/-- A write leaves every other byte alone. -/
theorem Memory.read_write_ne (m : Memory) {a b : Nat} (v : Byte) (h : b ≠ a) :
    Memory.read (Memory.write m a v) b = Memory.read m b := by
  unfold Memory.write
  split
  · exact Memory.read_erase_ne m h
  · rw [Memory.read_insert_ne _ _ h, Memory.read_erase_ne m h]

/-- Everything a write can do, read back at any address. -/
theorem Memory.read_write (m : Memory) (a b : Nat) (v : Byte) :
    Memory.read (Memory.write m a v) b = if b = a then v else Memory.read m b := by
  split
  · rename_i h; rw [h, Memory.read_write_same]
  · rename_i h; exact Memory.read_write_ne m v h

theorem Memory.mem_insert {m : Memory} {a : Nat} {v : Byte} {c : Host.Cell}
    (h : c ∈ Memory.insert m a v) : c = (a, v) ∨ c ∈ m := by
  induction m with
  | nil => simpa [Memory.insert] using h
  | cons d rest ih =>
    obtain ⟨k, w⟩ := d
    by_cases hl : a < k
    · simpa [Memory.insert, hl] using h
    · simp only [Memory.insert, hl, if_false, List.mem_cons] at h ⊢
      rcases h with h | h
      · exact Or.inr (Or.inl h)
      · exact (ih h).imp id Or.inr

theorem Memory.insert_sorted {m : Memory} {a : Nat} {v : Byte}
    (hs : m.Pairwise fun x y => x.1 < y.1) (hn : ∀ c ∈ m, c.1 ≠ a) :
    (Memory.insert m a v).Pairwise fun x y => x.1 < y.1 := by
  induction m with
  | nil => simp [Memory.insert]
  | cons d rest ih =>
    obtain ⟨k, w⟩ := d
    rw [List.pairwise_cons] at hs
    by_cases hl : a < k
    · simp only [Memory.insert, hl, if_true, List.pairwise_cons, List.mem_cons]
      refine ⟨?_, hs⟩
      rintro c (rfl | hc)
      · exact hl
      · exact lt_trans hl (hs.1 c hc)
    · have hk : k ≠ a := hn (k, w) (by simp)
      simp only [Memory.insert, hl, if_false, List.pairwise_cons]
      refine ⟨fun c hc => ?_, ih hs.2 fun c hc => hn c (List.mem_cons_of_mem _ hc)⟩
      rcases Memory.mem_insert hc with rfl | hc
      · simp only; omega
      · exact hs.1 c hc

theorem Memory.erase_wf {m : Memory} (h : Memory.wf m) (a : Nat) : Memory.wf (Memory.erase m a) :=
  ⟨h.1.filter _, fun c hc => h.2 c (List.mem_filter.mp hc).1⟩

/-- A write keeps the canonical form. -/
theorem Memory.write_wf {m : Memory} (h : Memory.wf m) {a : Nat} (ha : a < 2 ^ 32) (v : Byte) :
    Memory.wf (Memory.write m a v) := by
  have he := Memory.erase_wf h a
  unfold Memory.write
  split
  · exact he
  · rename_i hv
    refine ⟨Memory.insert_sorted he.1 (Memory.not_listed_erase m a), fun c hc => ?_⟩
    rcases Memory.mem_insert hc with rfl | hc
    · exact ⟨hv, ha⟩
    · exact he.2 c hc

theorem Memory.reset_wf : Memory.wf State.reset.mem := by
  refine ⟨List.Pairwise.nil, ?_⟩
  intro c hc
  cases hc

/-- A byte below every listed address reads as unlisted. -/
theorem Memory.read_of_lt {m : Memory} {a : Nat} (h : ∀ c ∈ m, a < c.1) :
    Memory.read m a = Memory.unlisted := by
  induction m with
  | nil => rfl
  | cons c rest ih =>
    obtain ⟨k, v⟩ := c
    have hk : ¬ a = k := (Nat.ne_of_lt (h (k, v) (by simp)))
    simp only [Memory.read, hk, if_false]
    exact ih fun c hc => h c (List.mem_cons_of_mem _ hc)

/-- Memories in canonical form that read alike are equal data. -/
theorem Memory.eq_of_read {m m' : Memory} (h : Memory.wf m) (h' : Memory.wf m')
    (hr : ∀ a, Memory.read m a = Memory.read m' a) : m = m' := by
  induction m generalizing m' with
  | nil =>
    cases m' with
    | nil => rfl
    | cons c rest =>
      obtain ⟨k, v⟩ := c
      exact absurd (by simpa [Memory.read] using (hr k).symm) (h'.2 (k, v) (by simp)).1
  | cons c rest ih =>
    obtain ⟨k, v⟩ := c
    cases m' with
    | nil => exact absurd (by simpa [Memory.read] using hr k) (h.2 (k, v) (by simp)).1
    | cons c' rest' =>
      obtain ⟨k', v'⟩ := c'
      obtain ⟨hs, hc⟩ := h
      obtain ⟨hs', hc'⟩ := h'
      rw [List.pairwise_cons] at hs hs'
      have hv := (hc (k, v) (by simp)).1
      have hv' := (hc' (k', v') (by simp)).1
      have hkk : k = k' := by
        rcases Nat.lt_trichotomy k k' with hlt | heq | hlt
        · exact absurd (by
            have h1 := hr k
            have h2 : Memory.read ((k', v') :: rest') k = Memory.unlisted :=
              Memory.read_of_lt fun c hm => by
                rcases List.mem_cons.mp hm with rfl | hm
                · exact hlt
                · exact lt_trans hlt (hs'.1 c hm)
            rw [h2] at h1
            simpa [Memory.read] using h1) hv
        · exact heq
        · exact absurd (by
            have h1 := hr k'
            have h2 : Memory.read ((k, v) :: rest) k' = Memory.unlisted :=
              Memory.read_of_lt fun c hm => by
                rcases List.mem_cons.mp hm with rfl | hm
                · exact hlt
                · exact lt_trans hlt (hs.1 c hm)
            rw [h2] at h1
            simpa [Memory.read] using h1.symm) hv'
      subst hkk
      have hvv : v = v' := by simpa [Memory.read] using hr k
      subst hvv
      congr 1
      refine ih ⟨hs.2, fun c hm => hc c (List.mem_cons_of_mem _ hm)⟩
        ⟨hs'.2, fun c hm => hc' c (List.mem_cons_of_mem _ hm)⟩ fun a => ?_
      by_cases ha : a = k
      · subst ha
        rw [Memory.read_of_lt hs.1, Memory.read_of_lt hs'.1]
      · simpa [Memory.read, ha] using hr a

end Sys2Proof.Machine
end

