-- ==== Sys2Proof/Laws/State.lean ====
section
/-! SUPPORT. One lemma per field per update of the state and of the datapath, all true by unfolding the
update once. -/

namespace Sys2Proof.Machine

/-! `State.withDatapath`. -/

@[simp] theorem State.withDatapath_port (s : State) (d : Datapath) : (s.withDatapath d).port = s.port := rfl
@[simp] theorem State.withDatapath_cmd (s : State) (d : Datapath) : (s.withDatapath d).cmd = s.cmd := rfl
@[simp] theorem State.withDatapath_lat (s : State) (d : Datapath) : (s.withDatapath d).lat = d.lat := rfl
@[simp] theorem State.withDatapath_mem (s : State) (d : Datapath) : (s.withDatapath d).mem = d.mem := rfl
@[simp] theorem State.withDatapath_commands (s : State) (d : Datapath) : (s.withDatapath d).commands = s.commands := rfl
@[simp] theorem State.withDatapath_responses (s : State) (d : Datapath) : (s.withDatapath d).responses = s.responses := rfl
@[simp] theorem State.withDatapath_backed (s : State) (d : Datapath) : (s.withDatapath d).backed = s.backed := rfl
@[simp] theorem State.withDatapath_freeIx (s : State) (d : Datapath) : (s.withDatapath d).freeIx = s.freeIx := rfl

/-! `State.respond`. -/

@[simp] theorem State.respond_port (s : State) (st : Status) (x y : Byte) : (s.respond st x y).port = .idle := rfl
@[simp] theorem State.respond_cmd (s : State) (st : Status) (x y : Byte) : (s.respond st x y).cmd = s.cmd := rfl
@[simp] theorem State.respond_lat (s : State) (st : Status) (x y : Byte) : (s.respond st x y).lat = s.lat := rfl
@[simp] theorem State.respond_mem (s : State) (st : Status) (x y : Byte) : (s.respond st x y).mem = s.mem := rfl
@[simp] theorem State.respond_commands (s : State) (st : Status) (x y : Byte) : (s.respond st x y).commands = s.commands := rfl
@[simp] theorem State.respond_responses (s : State) (st : Status) (x y : Byte) : (s.respond st x y).responses = s.responses ++ [responseWord st x y] := rfl
@[simp] theorem State.respond_backed (s : State) (st : Status) (x y : Byte) : (s.respond st x y).backed = s.backed := rfl
@[simp] theorem State.respond_freeIx (s : State) (st : Status) (x y : Byte) : (s.respond st x y).freeIx = s.freeIx := rfl

/-! `State.fail`. -/

@[simp] theorem State.fail_port (s : State) (st : Status) : (s.fail st).port = .idle := rfl
@[simp] theorem State.fail_cmd (s : State) (st : Status) : (s.fail st).cmd = s.cmd := rfl
@[simp] theorem State.fail_lat (s : State) (st : Status) : (s.fail st).lat = s.lat := rfl
@[simp] theorem State.fail_mem (s : State) (st : Status) : (s.fail st).mem = s.mem := rfl
@[simp] theorem State.fail_commands (s : State) (st : Status) : (s.fail st).commands = s.commands := rfl
@[simp] theorem State.fail_responses (s : State) (st : Status) : (s.fail st).responses = s.responses ++ [responseWord st 0#8 0#8] := rfl
@[simp] theorem State.fail_backed (s : State) (st : Status) : (s.fail st).backed = s.backed := rfl
@[simp] theorem State.fail_freeIx (s : State) (st : Status) : (s.fail st).freeIx = s.freeIx := rfl

/-! `State.present`. -/

@[simp] theorem State.present_port (s : State) (cw : CommandWord) : (s.present cw).port = .idle := rfl
@[simp] theorem State.present_cmd (s : State) (cw : CommandWord) : (s.present cw).cmd = s.cmd := rfl
@[simp] theorem State.present_lat (s : State) (cw : CommandWord) : (s.present cw).lat = s.lat := rfl
@[simp] theorem State.present_mem (s : State) (cw : CommandWord) : (s.present cw).mem = s.mem := rfl
@[simp] theorem State.present_commands (s : State) (cw : CommandWord) : (s.present cw).commands = cw :: s.commands := rfl
@[simp] theorem State.present_responses (s : State) (cw : CommandWord) : (s.present cw).responses = s.responses := rfl
@[simp] theorem State.present_backed (s : State) (cw : CommandWord) : (s.present cw).backed = s.backed := rfl
@[simp] theorem State.present_freeIx (s : State) (cw : CommandWord) : (s.present cw).freeIx = s.freeIx := rfl

/-! `State.resetCore`. -/

@[simp] theorem State.resetCore_port (s : State) : (s.resetCore).port = .idle := rfl
@[simp] theorem State.resetCore_cmd (s : State) : (s.resetCore).cmd = 0#224 := rfl
@[simp] theorem State.resetCore_lat (s : State) : (s.resetCore).lat = Latches.reset := rfl
@[simp] theorem State.resetCore_mem (s : State) : (s.resetCore).mem = s.mem := rfl
@[simp] theorem State.resetCore_commands (s : State) : (s.resetCore).commands = s.commands := rfl
@[simp] theorem State.resetCore_responses (s : State) : (s.resetCore).responses = s.responses := rfl
@[simp] theorem State.resetCore_backed (s : State) : (s.resetCore).backed = s.backed := rfl
@[simp] theorem State.resetCore_freeIx (s : State) : (s.resetCore).freeIx = s.freeIx := rfl

@[simp] theorem State.datapath_mem (s : State) : s.datapath.mem = s.mem := rfl
@[simp] theorem State.datapath_lat (s : State) : s.datapath.lat = s.lat := rfl
@[simp] theorem State.withDatapath_datapath (s : State) : s.withDatapath s.datapath = s := rfl
@[simp] theorem State.datapath_withDatapath (s : State) (d : Datapath) :
    (s.withDatapath d).datapath = d := rfl

/-! `Datapath.memWrite`. -/

@[simp] theorem Datapath.memWrite_mem (d : Datapath) (x : Addr) (v : Byte) : (d.memWrite x v).mem = Memory.write d.mem x.toNat v := rfl
@[simp] theorem Datapath.memWrite_xp (d : Datapath) (x : Addr) (v : Byte) : (d.memWrite x v).lat.xp = d.lat.xp := rfl
@[simp] theorem Datapath.memWrite_eng (d : Datapath) (x : Addr) (v : Byte) : (d.memWrite x v).lat.eng = d.lat.eng := rfl
@[simp] theorem Datapath.memWrite_cursor (d : Datapath) (x : Addr) (v : Byte) : (d.memWrite x v).lat.cursor = d.lat.cursor := rfl
@[simp] theorem Datapath.memWrite_pos (d : Datapath) (x : Addr) (v : Byte) : (d.memWrite x v).lat.pos = d.lat.pos := rfl
@[simp] theorem Datapath.memWrite_v (d : Datapath) (x : Addr) (v : Byte) : (d.memWrite x v).lat.v = d.lat.v := rfl
@[simp] theorem Datapath.memWrite_pp (d : Datapath) (x : Addr) (v : Byte) : (d.memWrite x v).lat.pp = d.lat.pp := rfl

@[simp] theorem Datapath.memWrite_lat (d : Datapath) (x : Addr) (v : Byte) : (d.memWrite x v).lat = d.lat := rfl

/-! `Datapath.setXp`. -/

@[simp] theorem Datapath.setXp_mem (d : Datapath) (x : XposeRegs) : (d.setXp x).mem = d.mem := rfl
@[simp] theorem Datapath.setXp_xp (d : Datapath) (x : XposeRegs) : (d.setXp x).lat.xp = x := rfl
@[simp] theorem Datapath.setXp_eng (d : Datapath) (x : XposeRegs) : (d.setXp x).lat.eng = d.lat.eng := rfl
@[simp] theorem Datapath.setXp_cursor (d : Datapath) (x : XposeRegs) : (d.setXp x).lat.cursor = d.lat.cursor := rfl
@[simp] theorem Datapath.setXp_pos (d : Datapath) (x : XposeRegs) : (d.setXp x).lat.pos = d.lat.pos := rfl
@[simp] theorem Datapath.setXp_v (d : Datapath) (x : XposeRegs) : (d.setXp x).lat.v = d.lat.v := rfl
@[simp] theorem Datapath.setXp_pp (d : Datapath) (x : XposeRegs) : (d.setXp x).lat.pp = d.lat.pp := rfl

/-! `Datapath.setEng`. -/

@[simp] theorem Datapath.setEng_mem (d : Datapath) (x : EngineRegs) : (d.setEng x).mem = d.mem := rfl
@[simp] theorem Datapath.setEng_xp (d : Datapath) (x : EngineRegs) : (d.setEng x).lat.xp = d.lat.xp := rfl
@[simp] theorem Datapath.setEng_eng (d : Datapath) (x : EngineRegs) : (d.setEng x).lat.eng = x := rfl
@[simp] theorem Datapath.setEng_cursor (d : Datapath) (x : EngineRegs) : (d.setEng x).lat.cursor = d.lat.cursor := rfl
@[simp] theorem Datapath.setEng_pos (d : Datapath) (x : EngineRegs) : (d.setEng x).lat.pos = d.lat.pos := rfl
@[simp] theorem Datapath.setEng_v (d : Datapath) (x : EngineRegs) : (d.setEng x).lat.v = d.lat.v := rfl
@[simp] theorem Datapath.setEng_pp (d : Datapath) (x : EngineRegs) : (d.setEng x).lat.pp = d.lat.pp := rfl

/-! `Datapath.setCursor`. -/

@[simp] theorem Datapath.setCursor_mem (d : Datapath) (x : BitCursor) : (d.setCursor x).mem = d.mem := rfl
@[simp] theorem Datapath.setCursor_xp (d : Datapath) (x : BitCursor) : (d.setCursor x).lat.xp = d.lat.xp := rfl
@[simp] theorem Datapath.setCursor_eng (d : Datapath) (x : BitCursor) : (d.setCursor x).lat.eng = d.lat.eng := rfl
@[simp] theorem Datapath.setCursor_cursor (d : Datapath) (x : BitCursor) : (d.setCursor x).lat.cursor = x := rfl
@[simp] theorem Datapath.setCursor_pos (d : Datapath) (x : BitCursor) : (d.setCursor x).lat.pos = d.lat.pos := rfl
@[simp] theorem Datapath.setCursor_v (d : Datapath) (x : BitCursor) : (d.setCursor x).lat.v = d.lat.v := rfl
@[simp] theorem Datapath.setCursor_pp (d : Datapath) (x : BitCursor) : (d.setCursor x).lat.pp = d.lat.pp := rfl

/-! `Datapath.setPos`. -/

@[simp] theorem Datapath.setPos_mem (d : Datapath) (x : LoopPos) : (d.setPos x).mem = d.mem := rfl
@[simp] theorem Datapath.setPos_xp (d : Datapath) (x : LoopPos) : (d.setPos x).lat.xp = d.lat.xp := rfl
@[simp] theorem Datapath.setPos_eng (d : Datapath) (x : LoopPos) : (d.setPos x).lat.eng = d.lat.eng := rfl
@[simp] theorem Datapath.setPos_cursor (d : Datapath) (x : LoopPos) : (d.setPos x).lat.cursor = d.lat.cursor := rfl
@[simp] theorem Datapath.setPos_pos (d : Datapath) (x : LoopPos) : (d.setPos x).lat.pos = x := rfl
@[simp] theorem Datapath.setPos_v (d : Datapath) (x : LoopPos) : (d.setPos x).lat.v = d.lat.v := rfl
@[simp] theorem Datapath.setPos_pp (d : Datapath) (x : LoopPos) : (d.setPos x).lat.pp = d.lat.pp := rfl

/-! `Datapath.setV`. -/

@[simp] theorem Datapath.setV_mem (d : Datapath) (x : BitVec 16) : (d.setV x).mem = d.mem := rfl
@[simp] theorem Datapath.setV_xp (d : Datapath) (x : BitVec 16) : (d.setV x).lat.xp = d.lat.xp := rfl
@[simp] theorem Datapath.setV_eng (d : Datapath) (x : BitVec 16) : (d.setV x).lat.eng = d.lat.eng := rfl
@[simp] theorem Datapath.setV_cursor (d : Datapath) (x : BitVec 16) : (d.setV x).lat.cursor = d.lat.cursor := rfl
@[simp] theorem Datapath.setV_pos (d : Datapath) (x : BitVec 16) : (d.setV x).lat.pos = d.lat.pos := rfl
@[simp] theorem Datapath.setV_v (d : Datapath) (x : BitVec 16) : (d.setV x).lat.v = x := rfl
@[simp] theorem Datapath.setV_pp (d : Datapath) (x : BitVec 16) : (d.setV x).lat.pp = d.lat.pp := rfl

/-! `Datapath.setPp`. -/

@[simp] theorem Datapath.setPp_mem (d : Datapath) (x : List Addr) : (d.setPp x).mem = d.mem := rfl
@[simp] theorem Datapath.setPp_xp (d : Datapath) (x : List Addr) : (d.setPp x).lat.xp = d.lat.xp := rfl
@[simp] theorem Datapath.setPp_eng (d : Datapath) (x : List Addr) : (d.setPp x).lat.eng = d.lat.eng := rfl
@[simp] theorem Datapath.setPp_cursor (d : Datapath) (x : List Addr) : (d.setPp x).lat.cursor = d.lat.cursor := rfl
@[simp] theorem Datapath.setPp_pos (d : Datapath) (x : List Addr) : (d.setPp x).lat.pos = d.lat.pos := rfl
@[simp] theorem Datapath.setPp_v (d : Datapath) (x : List Addr) : (d.setPp x).lat.v = d.lat.v := rfl
@[simp] theorem Datapath.setPp_pp (d : Datapath) (x : List Addr) : (d.setPp x).lat.pp = x := rfl

/-! `Datapath.atIndex`. -/

@[simp] theorem Datapath.atIndex_mem (d : Datapath) (i : Nat) : (d.atIndex i).mem = d.mem := rfl
@[simp] theorem Datapath.atIndex_xp (d : Datapath) (i : Nat) : (d.atIndex i).lat.xp = d.lat.xp := rfl
@[simp] theorem Datapath.atIndex_eng (d : Datapath) (i : Nat) : (d.atIndex i).lat.eng = d.lat.eng := rfl
@[simp] theorem Datapath.atIndex_cursor (d : Datapath) (i : Nat) : (d.atIndex i).lat.cursor = d.lat.cursor := rfl
@[simp] theorem Datapath.atIndex_pos (d : Datapath) (i : Nat) : (d.atIndex i).lat.pos = ⟨i, d.lat.pos.bi, d.lat.pos.pi⟩ := rfl
@[simp] theorem Datapath.atIndex_v (d : Datapath) (i : Nat) : (d.atIndex i).lat.v = d.lat.v := rfl
@[simp] theorem Datapath.atIndex_pp (d : Datapath) (i : Nat) : (d.atIndex i).lat.pp = d.lat.pp := rfl

/-! `Datapath.atBit`. -/

@[simp] theorem Datapath.atBit_mem (d : Datapath) (b p : Nat) : (d.atBit b p).mem = d.mem := rfl
@[simp] theorem Datapath.atBit_xp (d : Datapath) (b p : Nat) : (d.atBit b p).lat.xp = d.lat.xp := rfl
@[simp] theorem Datapath.atBit_eng (d : Datapath) (b p : Nat) : (d.atBit b p).lat.eng = d.lat.eng := rfl
@[simp] theorem Datapath.atBit_cursor (d : Datapath) (b p : Nat) : (d.atBit b p).lat.cursor = d.lat.cursor := rfl
@[simp] theorem Datapath.atBit_pos (d : Datapath) (b p : Nat) : (d.atBit b p).lat.pos = ⟨d.lat.pos.i, b, p⟩ := rfl
@[simp] theorem Datapath.atBit_v (d : Datapath) (b p : Nat) : (d.atBit b p).lat.v = d.lat.v := rfl
@[simp] theorem Datapath.atBit_pp (d : Datapath) (b p : Nat) : (d.atBit b p).lat.pp = d.lat.pp := rfl

end Sys2Proof.Machine
end

