-- ==== Sys2Proof/Laws/Ops.lean ====
section
/-! SUPPORT. What each shared operation can do, said once: loops, output bytes, the output region, the
transcoding skeleton. -/

namespace Sys2Proof.Machine

/-! Loops. -/

/-- Induction along a counted loop. -/
theorem forUp_induction {σ : Type} {f : Nat → σ → σ} (P : Nat → σ → Prop) {n : Nat} {x : σ}
    (h0 : P 0 x) (hs : ∀ k, k < n → ∀ y, P k y → P (k + 1) (f k y)) : P n (forUp n f x) := by
  induction n with
  | zero => exact h0
  | succ k ih => exact hs k (Nat.lt_succ_self k) _ (ih fun j hj => hs j (Nat.lt_succ_of_lt hj))

/-- Induction along a counted loop no iteration of which fails. -/
theorem forUpFlow_induction {f : Nat → Datapath → Flow} (P : Nat → Datapath → Prop) {n : Nat} {x : Datapath}
    (h0 : P 0 x) (hs : ∀ k, k < n → ∀ y, P k y → ∃ z, f k y = .done z ∧ P (k + 1) z) :
    ∃ z, forUpFlow n f x = .done z ∧ P n z := by
  induction n with
  | zero => exact ⟨x, rfl, h0⟩
  | succ k ih =>
    obtain ⟨y, hy, hP⟩ := ih fun j hj => hs j (Nat.lt_succ_of_lt hj)
    obtain ⟨z, hz, hQ⟩ := hs k (Nat.lt_succ_self k) y hP
    exact ⟨z, by simp [forUpFlow, hy, Flow.andThen, hz], hQ⟩

/-- A flow's datapath, wherever it ended. -/
def Flow.datapath : Flow → Datapath
  | .done d => d
  | .failed _ d => d

/-- Induction along a counted loop, whether or not it fails. -/
theorem forUpFlow_keeps {f : Nat → Datapath → Flow} (P : Datapath → Prop) {n : Nat} {x : Datapath}
    (h0 : P x) (hs : ∀ k, k < n → ∀ y, P y → P (f k y).datapath) : P (forUpFlow n f x).datapath := by
  induction n with
  | zero => exact h0
  | succ k ih =>
    have hk := ih fun j hj => hs j (Nat.lt_succ_of_lt hj)
    rw [forUpFlow]
    cases hf : forUpFlow k f x with
    | done y =>
      rw [hf] at hk
      exact hs k (Nat.lt_succ_self k) y hk
    | failed st y =>
      rw [hf] at hk
      exact hk

/-! Output addresses. -/

theorem Job.outAddr_add (c : Job) (i j : Nat) :
    c.outAddr (i + j) = c.outAddr i + BitVec.ofNat 32 j := by
  simp only [Job.outAddr, BitVec.ofNat_add, BitVec.add_assoc]

/-- Output addresses within `2^32` of each other are distinct. -/
theorem Job.outAddr_inj (c : Job) {i j : Nat} (hi : i < 2 ^ 32) (hj : j < 2 ^ 32)
    (h : c.outAddr i = c.outAddr j) : i = j := by
  have h' : BitVec.ofNat 32 i = BitVec.ofNat 32 j := by
    simpa [Job.outAddr] using h
  have := congrArg BitVec.toNat h'
  rwa [BitVec.toNat_ofNat, BitVec.toNat_ofNat, Nat.mod_eq_of_lt hi, Nat.mod_eq_of_lt hj] at this

theorem Job.outAddr_toNat_ne (c : Job) {i j : Nat} (hi : i < 2 ^ 32) (hj : j < 2 ^ 32) (h : i ≠ j) :
    (c.outAddr i).toNat ≠ (c.outAddr j).toNat := fun e =>
  h (c.outAddr_inj hi hj (BitVec.eq_of_toNat_eq e))

/-- An output byte's address is in the output region. -/
theorem Job.inOutput_outAddr (c : Job) {j : Nat} (h : j < c.planes * c.n) : c.inOutput (c.outAddr j) := by
  have e : c.outAddr j - c.out = BitVec.ofNat 32 j := by
    rw [Job.outAddr, BitVec.add_comm, BitVec.add_sub_cancel]
  show (c.outAddr j - c.out).toNat < c.planes * c.n
  rw [e, BitVec.toNat_ofNat]
  exact lt_of_le_of_lt (Nat.mod_le _ _) h

/-- An address that no output byte has is outside every output byte's cell. -/
theorem Job.ne_outAddr (c : Job) {x : Addr} (h : ¬ c.inOutput x) {j : Nat} (hj : j < c.planes * c.n) :
    x.toNat ≠ (c.outAddr j).toNat := fun e =>
  h (by rw [BitVec.eq_of_toNat_eq e]; exact c.inOutput_outAddr hj)

/-- A job whose output is apart from its plane table has fewer than `2^32` output bytes. -/
theorem Job.size_lt (c : Job) (hN : 0 < c.planes) (h : c.disjoint) : c.planes * c.n < 2 ^ 32 := by
  have h0 := h.1 0 (by omega)
  have h1 := (c.tableAddr 0 - c.out).isLt
  unfold Job.inOutput at h0
  omega

/-! Writing output bytes. -/

@[simp] theorem Datapath.out_lat (d : Datapath) (c : Job) (j : Nat) (v : Byte) :
    (d.out c j v).lat = d.lat := rfl

@[simp] theorem Datapath.out_mem (d : Datapath) (c : Job) (j : Nat) (v : Byte) :
    (d.out c j v).mem = Memory.write d.mem (c.outAddr j).toNat v := rfl

@[simp] theorem Datapath.emit_lat (c : Job) (j : Nat) (vs : List Byte) (d : Datapath) :
    (Datapath.emit c j vs d).lat = d.lat := by
  induction vs generalizing j d with
  | nil => rfl
  | cons v vs ih => rw [Datapath.emit, ih, Datapath.out_lat]

/-- `emit` writes only the bytes it is given. -/
theorem Datapath.emit_read_other (c : Job) (j : Nat) (vs : List Byte) (d : Datapath) {x : Nat}
    (h : ∀ i, i < vs.length → x ≠ (c.outAddr (j + i)).toNat) :
    Memory.read (Datapath.emit c j vs d).mem x = Memory.read d.mem x := by
  induction vs generalizing j d with
  | nil => rfl
  | cons v vs ih =>
    rw [Datapath.emit, ih]
    · exact Memory.read_write_ne _ _ (by simpa using h 0 (by simp))
    · intro i hi
      have := h (i + 1) (by simpa using hi)
      rwa [show j + 1 + i = j + (i + 1) by omega]

/-- `emit` writes every byte it is given. -/
theorem Datapath.emit_read (c : Job) (j : Nat) (vs : List Byte) (d : Datapath)
    (hl : j + vs.length ≤ 2 ^ 32) {i : Nat} (hi : i < vs.length) :
    Memory.read (Datapath.emit c j vs d).mem (c.outAddr (j + i)).toNat = vs[i] := by
  induction vs generalizing j d i with
  | nil => simp at hi
  | cons v vs ih =>
    simp only [List.length_cons] at hl hi
    cases i with
    | zero =>
      rw [Datapath.emit, Datapath.emit_read_other]
      · simp
      · intro i hi'
        exact c.outAddr_toNat_ne (by omega) (by omega) (by omega)
    | succ i =>
      rw [Datapath.emit, show j + (i + 1) = j + 1 + i by omega, ih _ _ (by omega) (by omega)]
      rfl

/-- How far a routine has come: the first `L` output bytes hold `B`, and every other byte of memory is as in
`m`. -/
def Progress (c : Job) (m : Memory) (B : Nat → Byte) (L : Nat) (d : Datapath) : Prop :=
  (∀ j, j < L → Memory.read d.mem (c.outAddr j).toNat = B j) ∧
    ∀ x, (∀ j, j < L → x ≠ (c.outAddr j).toNat) → Memory.read d.mem x = Memory.read m x

theorem Progress.start (c : Job) (B : Nat → Byte) (d : Datapath) : Progress c d.mem B 0 d :=
  ⟨fun j hj => absurd hj (Nat.not_lt_zero j), fun _ _ => rfl⟩

/-- Progress depends on memory alone. -/
theorem Progress.of_mem_eq {c : Job} {m : Memory} {B : Nat → Byte} {L : Nat} {d d' : Datapath}
    (h : Progress c m B L d) (e : d'.mem = d.mem) : Progress c m B L d' := by
  unfold Progress at *
  rwa [e]

/-- The next bytes, as expected, are progress. -/
theorem Progress.emit {c : Job} {m : Memory} {B : Nat → Byte} {L : Nat} {d : Datapath}
    (h : Progress c m B L d) {vs : List Byte} (hl : L + vs.length ≤ 2 ^ 32)
    (hv : ∀ i (hi : i < vs.length), vs[i] = B (L + i)) :
    Progress c m B (L + vs.length) (Datapath.emit c L vs d) := by
  refine ⟨fun j hj => ?_, fun x hx => ?_⟩
  · by_cases hjL : j < L
    · rw [Datapath.emit_read_other]
      · exact h.1 j hjL
      · intro i hi
        exact c.outAddr_toNat_ne (by omega) (by omega) (by omega)
    · obtain ⟨i, rfl⟩ : ∃ i, j = L + i := ⟨j - L, by omega⟩
      have hi : i < vs.length := by omega
      rw [Datapath.emit_read c L vs d hl hi, hv i hi]
  · rw [Datapath.emit_read_other]
    · exact h.2 x fun j hj => hx j (by omega)
    · intro i hi
      exact hx (L + i) (by omega)

/-- One byte written at the next output address is progress. -/
theorem Progress.memWrite {c : Job} {m : Memory} {B : Nat → Byte} {L : Nat} {d : Datapath}
    (h : Progress c m B L d) {v : Byte} (hl : L + 1 ≤ 2 ^ 32) (hv : v = B L) :
    Progress c m B (L + 1) (d.memWrite (c.outAddr L) v) := by
  have := h.emit (vs := [v]) (by simpa using hl) (by
    intro i hi
    have : i = 0 := by simpa using hi
    subst this
    simpa using hv)
  exact this

/-- Where the output is apart from what is read, a plane byte reads as at the start throughout. -/
theorem Progress.plane {c : Job} {m : Memory} {B : Nat → Byte} {L : Nat} {d : Datapath}
    (h : Progress c m B L d) (hd : c.disjoint) (hL : L ≤ c.planes * c.n) {p i : Nat}
    (hp : p < c.planes) (hi : i < c.n) :
    d.plane c p i = Memory.read m (c.inAddr p i).toNat :=
  h.2 _ fun _ hj => c.ne_outAddr (hd.2 p hp i hi) (lt_of_lt_of_le hj hL)

/-! What the skeleton can do. -/

/-- A length the checks pass. -/
theorem lengthCheck_eq_none {w : Nat} {n : Int} :
    lengthCheck w n = none ↔ 0 ≤ n ∧ (w = 12 → n % 3 = 0) ∧ (w = 16 → n % 2 = 0) := by
  unfold lengthCheck
  split
  · simp only [reduceCtorEq, false_iff]; omega
  · split
    · simp only [reduceCtorEq, false_iff]; omega
    · split
      · simp only [reduceCtorEq, false_iff]; omega
      · simp only [true_iff]; omega

/-- The only status a length check gives is InvalidArgument. -/
theorem lengthCheck_eq_some {w : Nat} {n : Int} {st : Status} (h : lengthCheck w n = some st) :
    st = .invalidArgument := by
  unfold lengthCheck at h
  repeat' split at h
  all_goals simp_all

/-- Everything a TRANSCODE can do: fail its length check, answer OK at once, run its routine to an end or a
failure, or touch an unbacked address. -/
theorem transcode_cases (a : TransferArgs) (planes w : Nat) (routine : Job → Datapath → Flow) (s : State) :
    (lengthCheck w a.nbytes.toInt = some .invalidArgument ∧
      transcode a planes w routine s = .next (s.fail .invalidArgument)) ∨
    (lengthCheck w a.nbytes.toInt = none ∧ (a.nbytes.toInt = 0 ∨ planes = 0) ∧
      transcode a planes w routine s = .next (s.respond .ok 0#8 0#8)) ∨
    (lengthCheck w a.nbytes.toInt = none ∧ 0 < a.nbytes.toInt ∧ 0 < planes ∧
      ((¬ (Job.start a planes s.mem).allBacked s.backed ∧
          transcode a planes w routine s = .refused .unbackedAddress) ∨
       ((Job.start a planes s.mem).allBacked s.backed ∧
          ((∃ d, routine (Job.start a planes s.mem)
                (s.datapath.setPp (Job.start a planes s.mem).pp) = .done d ∧
              transcode a planes w routine s
                = .next (((s.withDatapath d).settle (Job.start a planes s.mem)).respond .ok 0#8 0#8)) ∨
           ∃ st d, routine (Job.start a planes s.mem)
                (s.datapath.setPp (Job.start a planes s.mem).pp) = .failed st d ∧
              transcode a planes w routine s
                = .next (((s.withDatapath d).settle (Job.start a planes s.mem)).fail st))))) := by
  cases hl : lengthCheck w a.nbytes.toInt with
  | some st =>
    have := lengthCheck_eq_some hl
    subst this
    exact Or.inl ⟨rfl, by simp only [transcode, hl]⟩
  | none =>
    have hn := (lengthCheck_eq_none.mp hl).1
    by_cases hz : a.nbytes.toInt.toNat = 0 ∨ planes = 0
    · refine Or.inr (Or.inl ⟨rfl, ?_, by simp only [transcode, hl, if_pos hz]⟩)
      rcases hz with h | h
      · exact Or.inl (by omega)
      · exact Or.inr h
    · refine Or.inr (Or.inr ⟨rfl, by omega, by omega, ?_⟩)
      by_cases hb : (Job.start a planes s.mem).allBacked s.backed
      · refine Or.inr ⟨hb, ?_⟩
        cases hr : routine (Job.start a planes s.mem)
            (s.datapath.setPp (Job.start a planes s.mem).pp) with
        | done d =>
          exact Or.inl ⟨d, rfl, by simp only [transcode, hl, if_neg hz, if_pos hb, hr]⟩
        | failed st d =>
          exact Or.inr ⟨st, d, rfl, by simp only [transcode, hl, if_neg hz, if_pos hb, hr]⟩
      · exact Or.inl ⟨hb, by simp only [transcode, hl, if_neg hz, if_neg hb]⟩

/-- The skeleton where the routine runs and does not fail. -/
theorem transcode_done {a : TransferArgs} {planes w : Nat} {routine : Job → Datapath → Flow} {s : State}
    {d : Datapath} (hl : lengthCheck w a.nbytes.toInt = none) (hn : 0 < a.nbytes.toInt) (hp : 0 < planes)
    (hb : (Job.start a planes s.mem).allBacked s.backed)
    (hr : routine (Job.start a planes s.mem) (s.datapath.setPp (Job.start a planes s.mem).pp) = .done d) :
    transcode a planes w routine s
      = .next (((s.withDatapath d).settle (Job.start a planes s.mem)).respond .ok 0#8 0#8) := by
  have hz : ¬ (a.nbytes.toInt.toNat = 0 ∨ planes = 0) := by omega
  simp only [transcode, hl, if_neg hz, if_pos hb, hr]

theorem State.settle_of_disjoint {s : State} {c : Job} (h : c.disjoint) : s.settle c = s := if_pos h

theorem State.settle_of_overlap {s : State} {c : Job} (h : ¬ c.disjoint) : s.settle c = s.freeOutput c :=
  if_neg h

/-- Settling touches memory and the free-value counter alone. -/
theorem State.settle_frame (s : State) (c : Job) :
    (s.settle c).port = s.port ∧ (s.settle c).cmd = s.cmd ∧ (s.settle c).commands = s.commands ∧
      (s.settle c).responses = s.responses ∧ (s.settle c).backed = s.backed ∧
      (s.settle c).lat = s.lat := by
  unfold State.settle
  split
  · exact ⟨rfl, rfl, rfl, rfl, rfl, rfl⟩
  · refine ⟨rfl, rfl, rfl, rfl, rfl, ?_⟩
    refine forUp_induction (fun _ (d : Datapath) => d.lat = s.lat) rfl fun k _ y h => ?_
    rw [Datapath.out_lat, h]

/-- Settling writes output bytes only. -/
theorem State.settle_read_other (s : State) (c : Job) {x : Nat}
    (hx : ∀ j, j < c.planes * c.n → x ≠ (c.outAddr j).toNat) :
    Memory.read (s.settle c).mem x = Memory.read s.mem x := by
  unfold State.settle
  split
  · rfl
  · refine forUp_induction (fun _ (d : Datapath) => Memory.read d.mem x = Memory.read s.mem x) rfl
      fun k hk y h => ?_
    rw [Datapath.out_mem, Memory.read_write_ne _ _ (hx k hk), h]

/-- Settling keeps the canonical form of memory. -/
theorem State.settle_wf {s : State} (c : Job) (h : Memory.wf s.mem) : Memory.wf (s.settle c).mem := by
  unfold State.settle
  split
  · exact h
  · refine forUp_induction (fun _ (d : Datapath) => Memory.wf d.mem) h fun k _ y hy => ?_
    exact Memory.write_wf hy (BitVec.isLt _) _

/-- Entry `p` of the fetched plane table. -/
theorem Memory.planeTable_getD (m : Memory) (ptab : Addr) {planes p : Nat} (h : p < planes) :
    (Memory.planeTable m ptab planes).getD p 0#32 = Memory.readEntry m (ptab + BitVec.ofNat 32 (4 * p)) := by
  simp [Memory.planeTable, h]

/-- The fields of a response word (R55). -/
theorem responseWord_fields (st : Status) (rr rs : Byte) :
    (responseWord st rr rs).extractLsb 3 0 = statusCode st ∧ (responseWord st rr rs).extractLsb 7 4 = 0#4 ∧
    (responseWord st rr rs).extractLsb 15 8 = rr ∧ (responseWord st rr rs).extractLsb 23 16 = rs ∧
    (responseWord st rr rs).extractLsb 31 24 = 0#8 := by
  refine ⟨?_, ?_, ?_, ?_, ?_⟩ <;> refine BitVec.eq_of_getLsbD_eq fun j hj => ?_ <;>
    simp only [responseWord, BitVec.getLsbD_extract, BitVec.getLsbD_append] <;> interval_cases j <;> simp

/-- The status codes of R170 are 0 to 6. -/
theorem statusCode_le (st : Status) : (statusCode st).toNat ≤ 6 := by
  cases st <;> decide

/-- The two outcomes of accepting. -/
theorem State.accept_idle_none {s : State} (hp : s.port = .idle) (hc : s.commands = []) :
    s.accept = none := by simp [State.accept, hp, hc]

theorem State.accept_idle_some {s : State} {cw : CommandWord} {rest : List CommandWord}
    (hp : s.port = .idle) (hc : s.commands = cw :: rest) :
    s.accept = some { s with port := .busy, cmd := cw, commands := rest } := by
  simp [State.accept, hp, hc]

theorem State.accept_busy {s : State} (hp : s.port = .busy) : s.accept = some s := by
  simp [State.accept, hp]

end Sys2Proof.Machine
end

