-- ==== Sys2Proof/Laws/Routines.lean ====
section
/-! SUPPORT. Each routine as the function the transcoding skeleton runs, so that a statement about several
instructions needs one case split. -/

namespace Sys2Proof.Machine

/-- What the skeleton runs for an instruction; XPOSE runs nothing there. -/
def runOf : Instr → Job → Datapath → Flow
  | .flip3x1 _, c, d => .done (forUp c.n (flip3x1Group c) d)
  | .flip3x2 _, c, d => .done (forUp c.n (flip3x2Group c) d)
  | .flip3x4 _, c, d => .done (forUp c.n (flip3x4Group c) d)
  | .flip3x8 _, c, d => .done (forUp c.n (flip3x8Group c) d)
  | .flip3x12 _, c, d => .done (forUp (c.n / 3) (flip3x12Group c) d)
  | .flip3x16 _, c, d => .done (forUp (c.n / 2) (flip3x16Group c) d)
  | .flip4x1 _, c, d => .done (forUp c.n (flip4x1Group c) d)
  | .flip4x2 _, c, d => .done (forUp c.n (flip4x2Group c) d)
  | .flip4x4 _, c, d => .done (forUp c.n (flip4x4Group c) d)
  | .flip4x8 _, c, d => .done (forUp c.n (flip4x8Group c) d)
  | .flip4x12 _, c, d => .done (forUp (c.n / 3) (flip4x12Group c) d)
  | .flip4x16 _, c, d => .done (forUp (c.n / 2) (flip4x16Group c) d)
  | .flipnx1 _ _, c, d => packer 1 c d
  | .flipnx2 _ _, c, d => packer 2 c d
  | .flipnx4 _ _, c, d => packer 4 c d
  | .flipnx8 _ _, c, d => packer 8 c d
  | .flipnx12 _ _, c, d => .done (packer12 c d)
  | .flipnx16 _ _, c, d => .done (copy16 c d)
  | .xpose _ _ _ _, _, d => .done d

/-- A routine's meaning is the skeleton around what it runs. -/
theorem exec_eq_transcode {i : Instr} {a : TransferArgs} {planes w : Nat}
    (h : routineOf i = some (a, planes, w)) (s : State) : exec i s = transcode a planes w (runOf i) s := by
  cases i with
  | xpose r t mask shift => cases h
  | flip3x1 b => cases h; rfl
  | flip3x2 b => cases h; rfl
  | flip3x4 b => cases h; rfl
  | flip3x8 b => cases h; rfl
  | flip3x12 b => cases h; rfl
  | flip3x16 b => cases h; rfl
  | flip4x1 b => cases h; rfl
  | flip4x2 b => cases h; rfl
  | flip4x4 b => cases h; rfl
  | flip4x8 b => cases h; rfl
  | flip4x12 b => cases h; rfl
  | flip4x16 b => cases h; rfl
  | flipnx1 b np => cases h; rfl
  | flipnx2 b np => cases h; rfl
  | flipnx4 b np => cases h; rfl
  | flipnx8 b np => cases h; rfl
  | flipnx12 b np => cases h; rfl
  | flipnx16 b np => cases h; rfl

/-- The plane count and the depth of a routine that is ready are those its job runs with. -/
theorem Ready.lengthCheck {a : TransferArgs} {planes w : Nat} {s : State} (h : Ready a planes w s) :
    lengthCheck w a.nbytes.toInt = none :=
  lengthCheck_eq_none.mpr ⟨le_of_lt h.1.1, h.1.2⟩

/-- A routine that is ready and whose run is done answers OK. -/
theorem exec_of_done {i : Instr} {a : TransferArgs} {planes w : Nat} {s : State} {d : Datapath}
    (hi : routineOf i = some (a, planes, w)) (h : Ready a planes w s)
    (hd : runOf i (Job.start a planes s.mem) (s.datapath.setPp (Job.start a planes s.mem).pp) = .done d) :
    exec i s = .next (((s.withDatapath d).settle (Job.start a planes s.mem)).respond .ok 0#8 0#8) := by
  rw [exec_eq_transcode hi]
  exact transcode_done h.lengthCheck h.1.1 h.2.1 h.2.2 hd

/-- A state that answered OK through the skeleton is transcoded, if its run wrote output bytes only. -/
theorem transcoded_of_outputOnly {s : State} {c : Job} {d : Datapath} (h : OutputOnly c s.mem d.mem) :
    Transcoded c s (((s.withDatapath d).settle c).respond .ok 0#8 0#8) := by
  obtain ⟨_, h2, h3, h4, h5, _⟩ := State.settle_frame (s.withDatapath d) c
  refine ⟨⟨rfl, ?_, ?_, ?_, ?_⟩, fun x hx => ?_⟩
  · rw [State.respond_responses, h4]; rfl
  · rw [State.respond_cmd, h2]; rfl
  · rw [State.respond_commands, h3]; rfl
  · rw [State.respond_backed, h5]; rfl
  · rw [State.respond_mem, State.settle_read_other _ _ hx]
    exact h x hx

end Sys2Proof.Machine
end

