-- ==== Sys2Proof/Laws/Streams.lean ====
section
/-! SUPPORT. The reference stream of R89 bit by bit, and what a routine that writes it one group, or one
sample, at a time has to show. -/

namespace Sys2Proof.Machine

/-! Loops in two indices. -/

/-- Induction along the loops over samples and planes of R146, R151 and R152, counting planes done. -/
theorem forUp_nested {σ : Type} {f : Nat → Nat → σ → σ} {pre : Nat → σ → σ} (P : Nat → σ → Prop)
    {samples planes : Nat} {x : σ} (h0 : P 0 x) (hpre : ∀ k j y, P j y → P j (pre k y))
    (hs : ∀ k p, k < samples → p < planes → ∀ y, P (k * planes + p) y → P (k * planes + p + 1) (f k p y)) :
    P (samples * planes) (forUp samples (fun k y => forUp planes (f k) (pre k y)) x) := by
  refine forUp_induction (P := fun k y => P (k * planes) y) (by simpa using h0) fun k hk y hy => ?_
  rw [Nat.succ_mul]
  exact forUp_induction (P := fun p z => P (k * planes + p) z) (hpre k _ y hy)
    fun p hp z hz => hs k p hk hp z hz

/-- The same where an iteration may fail and none does. -/
theorem forUpFlow_nested {f : Nat → Nat → Datapath → Flow} (P : Nat → Datapath → Prop)
    {samples planes : Nat} {x : Datapath} (h0 : P 0 x)
    (hs : ∀ k p, k < samples → p < planes → ∀ y, P (k * planes + p) y →
      ∃ z, f k p y = .done z ∧ P (k * planes + p + 1) z) :
    ∃ z, forUpFlow samples (fun k y => forUpFlow planes (f k) y) x = .done z ∧ P (samples * planes) z := by
  refine forUpFlow_induction (P := fun k y => P (k * planes) y) (by simpa using h0) fun k hk y hy => ?_
  rw [Nat.succ_mul]
  exact forUpFlow_induction (P := fun p z => P (k * planes + p) z) hy fun p hp z hz => hs k p hk hp z hz

/-! The reference stream. -/

/-- Bit `q` of the reference stream of R89 at depth `w`. -/
def refBit (m : Memory) (c : Job) (w q : Nat) : Bool :=
  streamBit m (c.planeBase (q / w % c.planes)) (q / w / c.planes * w + q % w)

/-- Bit `t` of sample `k` of plane `p` in the reference stream. -/
theorem refBit_sample (m : Memory) (c : Job) {w k p t : Nat} (hp : p < c.planes) (ht : t < w) :
    refBit m c w ((k * c.planes + p) * w + t) = streamBit m (c.planeBase p) (k * w + t) := by
  have e1 : ((k * c.planes + p) * w + t) / w = k * c.planes + p := by
    rw [Nat.mul_comm, Nat.mul_add_div (by omega), Nat.div_eq_of_lt ht, Nat.add_zero]
  have e2 : ((k * c.planes + p) * w + t) % w = t := by
    rw [Nat.mul_comm, Nat.mul_add_mod, Nat.mod_eq_of_lt ht]
  have e3 : (k * c.planes + p) % c.planes = p := by
    rw [Nat.mul_comm, Nat.mul_add_mod, Nat.mod_eq_of_lt hp]
  have e4 : (k * c.planes + p) / c.planes = k := by
    rw [Nat.mul_comm, Nat.mul_add_div (by omega), Nat.div_eq_of_lt hp, Nat.add_zero]
  rw [refBit, e1, e2, e3, e4]

/-- Byte `j` of the reference stream. -/
def refByte (m : Memory) (c : Job) (w j : Nat) : Byte :=
  BitVec.ofFnLE fun u : Fin 8 => refBit m c w (8 * j + (7 - u.val))

theorem refByte_bit (m : Memory) (c : Job) (w j : Nat) {u : Nat} (hu : u < 8) :
    (refByte m c w j).getLsbD (7 - u) = refBit m c w (8 * j + u) := by
  rw [refByte, BitVec.getLsbD_ofFnLE, dif_pos (by omega)]
  simp only
  rw [show 7 - (7 - u) = u by omega]

/-- An output that holds the reference stream bit by bit is interleaved. -/
theorem interleaved_of_refBit {c : Job} {w : Nat} {m m' : Memory}
    (h : ∀ j u, j < c.planes * c.n → u < 8 → (outByte m' c j).getLsbD (7 - u) = refBit m c w (8 * j + u))
    (hw : w * (8 * c.n / w) = 8 * c.n) : Interleaved c w m m' := by
  intro k p t hk hp ht
  have hlt : (k * c.planes + p) * w + t < 8 * (c.planes * c.n) := by
    have h1 : k * c.planes + p + 1 ≤ (8 * c.n / w) * c.planes :=
      le_trans (by rw [Nat.succ_mul]; omega) (Nat.mul_le_mul_right c.planes hk)
    have h2 := Nat.mul_le_mul_right w h1
    have h3 : (8 * c.n / w) * c.planes * w = 8 * (c.planes * c.n) := by
      calc _ = c.planes * (w * (8 * c.n / w)) := by ring
        _ = _ := by rw [hw]; ring
    rw [Nat.succ_mul] at h2
    omega
  rw [← refBit_sample m c hp ht]
  generalize (k * c.planes + p) * w + t = q at hlt
  have := h (q / 8) (q % 8) (by omega) (by omega)
  rwa [show 8 * (q / 8) + q % 8 = q by omega] at this

/-! Routines that write one group at a time. -/

/-- The output a routine writes that writes `bytes g` as group `g` of size `size`. -/
def groupBytes (size : Nat) (bytes : Nat → List Byte) (j : Nat) : Byte := (bytes (j / size)).getD (j % size) 0

theorem groupBytes_at {size g r : Nat} (bytes : Nat → List Byte) (hr : r < size) :
    groupBytes size bytes (size * g + r) = (bytes g).getD r 0 := by
  rw [groupBytes, Nat.mul_add_div (by omega), Nat.mul_add_mod, Nat.div_eq_of_lt hr, Nat.mod_eq_of_lt hr,
    Nat.add_zero]

/-- A group written is progress. -/
theorem Progress.group {c : Job} {m : Memory} {size g : Nat} {bytes : Nat → List Byte} {d e : Datapath}
    (h : Progress c m (groupBytes size bytes) (size * g) d) (he : e.mem = d.mem)
    (hl : (bytes g).length = size) (hs : size * (g + 1) ≤ 2 ^ 32) :
    Progress c m (groupBytes size bytes) (size * (g + 1)) (Datapath.emit c (size * g) (bytes g) e) := by
  have := (h.of_mem_eq he).emit (vs := bytes g) (by rw [hl]; exact hs) fun i hi => by
    rw [groupBytes_at bytes (by omega), List.getD_eq_getElem _ _ hi]
  rwa [hl] at this

/-- A routine whose group `g` emits the bytes `X` computes from `gs` input bytes of each plane, and that is ready
with its output apart from what it reads, completes with those bytes in its output. -/
theorem exec_of_groups {i : Instr} {a : TransferArgs} {planes w : Nat} {s : State} {steps gs : Nat}
    {group : Nat → Datapath → Datapath} (X : (Nat → Nat → Byte) → List Byte)
    (pre : Nat → Datapath → Datapath)
    (hi : routineOf i = some (a, planes, w)) (hR : Ready a planes w s) (hS : Separate a planes s)
    (hst : gs * steps = (Job.start a planes s.mem).n)
    (hrun : ∀ d, runOf i (Job.start a planes s.mem) d = .done (forUp steps group d))
    (hg : ∀ g d, group g d = Datapath.emit (Job.start a planes s.mem) (planes * gs * g)
      (X fun p b => d.plane (Job.start a planes s.mem) p (gs * g + b)) (pre g d))
    (hX : ∀ x y : Nat → Nat → Byte, (∀ p b, p < planes → b < gs → x p b = y p b) → X x = X y)
    (hpre : ∀ g d, (pre g d).mem = d.mem) (hlen : ∀ x, (X x).length = planes * gs) :
    ∃ t, exec i s = .next t ∧ Transcoded (Job.start a planes s.mem) s t ∧
      ∀ g, g < steps → ∀ r, r < planes * gs →
        outByte t.mem (Job.start a planes s.mem) (planes * gs * g + r)
          = (X fun p b => inByte s.mem (Job.start a planes s.mem) p (gs * g + b)).getD r 0 := by
  generalize hc : Job.start a planes s.mem = c at *
  have hpl : c.planes = planes := by rw [← hc]; rfl
  have hd : c.disjoint := by rw [← hc]; exact hS
  have hsz : planes * gs * steps = c.planes * c.n := by rw [hpl, ← hst, Nat.mul_assoc]
  have hlt := c.size_lt (by rw [hpl]; exact hR.2.1) hd
  let bytes : Nat → List Byte := fun g => X fun p b => inByte s.mem c p (gs * g + b)
  have key : Progress c s.mem (groupBytes (planes * gs) bytes) (planes * gs * steps)
      (forUp steps group (s.datapath.setPp c.pp)) := by
    refine forUp_induction (P := fun g d => Progress c s.mem _ (planes * gs * g) d) ?_ fun g hgs d h => ?_
    · exact Progress.start c _ (s.datapath.setPp c.pp)
    · have hle : planes * gs * (g + 1) ≤ planes * gs * steps := Nat.mul_le_mul_left _ hgs
      have hle' : gs * (g + 1) ≤ gs * steps := Nat.mul_le_mul_left _ hgs
      have e1 : planes * gs * (g + 1) = planes * gs * g + planes * gs := Nat.mul_succ ..
      have e2 : gs * (g + 1) = gs * g + gs := Nat.mul_succ ..
      have hb : (X fun p b => d.plane c p (gs * g + b)) = bytes g := hX _ _ fun p b hp hb =>
        h.plane hd (by omega) (by omega) (by omega)
      rw [hg, hb]
      exact h.group (hpre g d) (hlen _) (by omega)
  have hrun' := hrun (s.datapath.setPp c.pp)
  rw [← hc] at hrun'
  refine ⟨_, exec_of_done hi hR hrun', ?_, fun g hgs r hr => ?_⟩
  · rw [hc]
    refine transcoded_of_outputOnly fun x hx => key.2 x fun j hj => hx j (by omega)
  · have hle : planes * gs * (g + 1) ≤ planes * gs * steps := Nat.mul_le_mul_left _ hgs
    have e1 : planes * gs * (g + 1) = planes * gs * g + planes * gs := Nat.mul_succ ..
    rw [hc, State.settle_of_disjoint hd]
    exact (key.1 _ (by omega)).trans (groupBytes_at bytes hr)

/-- The reference stream's bit at bit `u` of byte `r` of group `g`, in the group's own input bytes: a group takes
`gs` bytes, which are `spg` samples, from each plane. -/
theorem refBit_group {m : Memory} {c : Job} {w gs spg g r u : Nat} (hw : 0 < w) (hN : 0 < c.planes)
    (hgs : 8 * gs = w * spg) :
    refBit m c w (8 * (c.planes * gs * g + r) + u) =
      (inByte m c ((8 * r + u) / w % c.planes)
        (gs * g + ((8 * r + u) / w / c.planes * w + (8 * r + u) % w) / 8)).getLsbD
          (7 - ((8 * r + u) / w / c.planes * w + (8 * r + u) % w) % 8) := by
  have e0 : 8 * (c.planes * gs * g + r) + u = w * (c.planes * (spg * g)) + (8 * r + u) := by
    calc _ = c.planes * (8 * gs) * g + (8 * r + u) := by ring
      _ = _ := by rw [hgs]; ring
  rw [refBit, e0, Nat.mul_add_div hw, Nat.mul_add_mod, Nat.mul_add_mod, Nat.mul_add_div hN]
  have e1 : (spg * g + (8 * r + u) / w / c.planes) * w + (8 * r + u) % w
      = 8 * (gs * g) + ((8 * r + u) / w / c.planes * w + (8 * r + u) % w) := by
    calc _ = (w * spg) * g + ((8 * r + u) / w / c.planes * w + (8 * r + u) % w) := by ring
      _ = _ := by rw [← hgs]; ring
  rw [e1]
  unfold streamBit inByte Job.inAddr
  rw [Nat.mul_add_div (by decide), Nat.mul_add_mod]

/-- An output written in groups is interleaved if each group is, which is a finite check on `X`. -/
theorem interleaved_of_groups {c : Job} {m m' : Memory} {w gs spg steps : Nat}
    (X : (Nat → Nat → Byte) → List Byte) (hN : 0 < c.planes) (hw : 0 < w) (h0 : 0 < gs)
    (hst : gs * steps = c.n) (hgs : 8 * gs = w * spg)
    (hbit : ∀ (x : Nat → Nat → Byte) r u, r < c.planes * gs → u < 8 → ((X x).getD r 0).getLsbD (7 - u) =
      (x ((8 * r + u) / w % c.planes) (((8 * r + u) / w / c.planes * w + (8 * r + u) % w) / 8)).getLsbD
        (7 - ((8 * r + u) / w / c.planes * w + (8 * r + u) % w) % 8))
    (hb : ∀ g, g < steps → ∀ r, r < c.planes * gs → outByte m' c (c.planes * gs * g + r)
      = (X fun p b => inByte m c p (gs * g + b)).getD r 0) :
    Interleaved c w m m' := by
  refine interleaved_of_refBit (fun j u hj hu => ?_) ?_
  · have hj' : j < c.planes * gs * steps := by rwa [Nat.mul_assoc, hst]
    have hr := Nat.mod_lt j (Nat.mul_pos hN h0)
    have := hb _ (Nat.div_lt_of_lt_mul hj') _ hr
    rw [Nat.div_add_mod] at this
    rw [this, hbit _ _ _ hr hu]
    conv_rhs => rw [← Nat.div_add_mod j (c.planes * gs)]
    rw [refBit_group hw hN hgs]
  · rw [← hst, ← Nat.mul_assoc, hgs, Nat.mul_assoc, Nat.mul_div_cancel_left _ hw]

end Sys2Proof.Machine
end

