-- ==== Sys2Proof/Laws/Cursor.lean ====
section
/-! SUPPORT. What the operations of the generic path can do: how far the bit cursor of R19 has come, and what
an append to it does (R142, R143, R145). -/

namespace Sys2Proof.Machine

/-! How far the cursor has come, whatever the bits are. -/

/-- `T` bits have been appended from OUT: the cursor stands after them, ACC is clear below its filled bits, and
memory has changed in the output bytes completed only. -/
structure Advanced (c : Job) (m : Memory) (T : Nat) (d : Datapath) : Prop where
  mem : ∀ x, (∀ j, j < T / 8 → x ≠ (c.outAddr j).toNat) → Memory.read d.mem x = Memory.read m x
  dptr : d.lat.cursor.dptr = c.outAddr (T / 8)
  dbit : d.lat.cursor.dbit = T % 8
  acc : ∀ k, k < 8 - T % 8 → d.lat.cursor.acc.getLsbD k = false

theorem Advanced.start (c : Job) (d : Datapath) : Advanced c d.mem 0 (startCursor c d) where
  mem := fun _ _ => rfl
  dptr := by simp [startCursor, Datapath.atBit, Datapath.setPos, Datapath.setCursor, Job.outAddr]
  dbit := rfl
  acc := fun k _ => by simp [startCursor, Datapath.atBit, Datapath.setPos, Datapath.setCursor]

/-- Steps that leave memory and the cursor alone keep it. -/
theorem Advanced.of_eq {c : Job} {m : Memory} {T : Nat} {d d' : Datapath} (h : Advanced c m T d)
    (hm : d'.mem = d.mem) (hc : d'.lat.cursor = d.lat.cursor) : Advanced c m T d' where
  mem := by rw [hm]; exact h.mem
  dptr := by rw [hc]; exact h.dptr
  dbit := by rw [hc]; exact h.dbit
  acc := by rw [hc]; exact h.acc

/-- With no bit pending the cursor is empty and a flush writes nothing (R143, R153 item 1). -/
theorem Advanced.flush {c : Job} {m : Memory} {T : Nat} {d : Datapath} (h : Advanced c m T d) (hT : T % 8 = 0) :
    Machine.flush d = d ∧ d.lat.cursor = ⟨c.outAddr (T / 8), 0, 0#8⟩ := by
  have hb := h.dbit
  rw [hT] at hb
  refine ⟨by simp [Machine.flush, hb], ?_⟩
  have ha : d.lat.cursor.acc = 0#8 := BitVec.eq_of_getLsbD_eq fun i hi => by
    rw [h.acc i (by omega)]; simp
  calc d.lat.cursor = ⟨d.lat.cursor.dptr, d.lat.cursor.dbit, d.lat.cursor.acc⟩ := rfl
    _ = _ := by rw [h.dptr, hb, ha]

/-- The accumulator after an append, bit by bit. -/
theorem append_bit (acc : Byte) (v : BitVec 16) {dbit w : Nat} (hv : v.toNat < 2 ^ w) (hw : dbit + w ≤ 8)
    {u : Nat} (hu : u < 8) :
    (acc ||| (v.setWidth 8 <<< (8 - dbit - w))).getLsbD (7 - u)
      = (acc.getLsbD (7 - u) || (decide (dbit ≤ u ∧ u < dbit + w) && v.getLsbD (dbit + w - 1 - u))) := by
  rw [BitVec.getLsbD_or, BitVec.getLsbD_shiftLeft, BitVec.getLsbD_setWidth]
  congr 1
  by_cases h1 : u < dbit + w
  · have e1 : ¬ 7 - u < 8 - dbit - w := by omega
    have e2 : 7 - u - (8 - dbit - w) = dbit + w - 1 - u := by omega
    by_cases h2 : dbit ≤ u
    · simp [e1, e2, h1, h2, show 7 - u < 8 by omega, show dbit + w - 1 - u < 8 by omega]
    · have : v.getLsbD (dbit + w - 1 - u) = false := by
        rw [BitVec.getLsbD]
        exact Nat.testBit_lt_two_pow (lt_of_lt_of_le hv (Nat.pow_le_pow_right (by decide) (by omega)))
      simp [e2, h2, this]
  · simp [show 7 - u < 8 - dbit - w by omega, h1]

/-- An append of `w` bits advances by `w` bits (R142). -/
theorem Advanced.appendBits {c : Job} {m : Memory} {T w : Nat} {d : Datapath} (h : Advanced c m T d)
    (hw : 0 < w) (hTw : T % 8 + w ≤ 8) (hv : d.lat.v.toNat < 2 ^ w) :
    Advanced c m (T + w) (Machine.appendBits w d) := by
  have hb := h.dbit
  by_cases hf : d.lat.cursor.dbit + w = 8
  · rw [Machine.appendBits, if_pos hf]
    refine ⟨fun x hx => ?_, ?_, ?_, fun k _ => by simp [Datapath.setCursor]⟩
    · refine (Memory.read_write_ne _ _ ?_).trans (h.mem x fun j hj => hx j (by omega))
      rw [h.dptr]
      exact hx (T / 8) (by omega)
    · show d.lat.cursor.dptr + 1#32 = _
      rw [h.dptr, show (T + w) / 8 = T / 8 + 1 by omega, Job.outAddr_add]
    · show 0 = _
      omega
  · rw [Machine.appendBits, if_neg hf]
    refine ⟨fun x hx => h.mem x fun j hj => hx j (by omega), ?_, ?_, fun k hk => ?_⟩
    · show d.lat.cursor.dptr = _
      rw [h.dptr, show (T + w) / 8 = T / 8 by omega]
    · show d.lat.cursor.dbit + w = _
      omega
    · have hk' : k < 8 - (T % 8 + w) := by
        have : (T + w) % 8 = T % 8 + w := by omega
        omega
      have := append_bit d.lat.cursor.acc d.lat.v (dbit := d.lat.cursor.dbit) hv (by omega)
        (u := 7 - k) (by omega)
      rw [show 7 - (7 - k) = k by omega] at this
      refine this.trans ?_
      rw [h.acc k (by omega)]
      have : ¬ 7 - k < d.lat.cursor.dbit + w := by omega
      simp [this]

/-- An append of 12 bits advances by 12 bits (R145). -/
theorem Advanced.append12 {c : Job} {m : Memory} {T : Nat} {d : Datapath} (h : Advanced c m T d)
    (hT : T % 8 = 0 ∨ T % 8 = 4) : Advanced c m (T + 12) (Machine.append12 d) := by
  have hb := h.dbit
  by_cases hf : d.lat.cursor.dbit = 0
  · rw [Machine.append12, if_pos hf]
    refine ⟨fun x hx => ?_, ?_, ?_, fun k hk => ?_⟩
    · refine (Memory.read_write_ne _ _ ?_).trans (h.mem x fun j hj => hx j (by omega))
      rw [h.dptr]
      exact hx (T / 8) (by omega)
    · show d.lat.cursor.dptr + 1#32 = _
      rw [h.dptr, show (T + 12) / 8 = T / 8 + 1 by omega, Job.outAddr_add]
    · show 4 = _
      omega
    · have : k < 4 := by omega
      show (((d.lat.v &&& 0x0F#16) <<< 4).setWidth 8).getLsbD k = false
      simp [BitVec.getLsbD_setWidth, BitVec.getLsbD_shiftLeft, this]
  · rw [Machine.append12, if_neg hf]
    refine ⟨fun x hx => ?_, ?_, ?_, fun k _ => by simp [Datapath.setCursor]⟩
    · refine (Memory.read_write_ne _ _ ?_).trans
        ((Memory.read_write_ne _ _ ?_).trans (h.mem x fun j hj => hx j (by omega)))
      · rw [h.dptr]
        have := hx (T / 8 + 1) (by omega)
        rwa [Job.outAddr_add] at this
      · rw [h.dptr]
        exact hx (T / 8) (by omega)
    · show d.lat.cursor.dptr + 2#32 = _
      rw [h.dptr, show (T + 12) / 8 = T / 8 + 2 by omega, Job.outAddr_add]
    · show 0 = _
      omega

/-! What the bits are. -/

/-- The first `T` bits of the reference stream have been appended: the completed bytes are in memory and the
rest is in ACC. -/
structure Filled (c : Job) (m : Memory) (w T : Nat) (d : Datapath) : Prop where
  adv : Advanced c m T d
  bytes : ∀ j, j < T / 8 → Memory.read d.mem (c.outAddr j).toNat = refByte m c w j
  bits : ∀ u, u < T % 8 → d.lat.cursor.acc.getLsbD (7 - u) = refBit m c w (8 * (T / 8) + u)

theorem Filled.start (c : Job) (w : Nat) (d : Datapath) : Filled c d.mem w 0 (startCursor c d) :=
  ⟨Advanced.start c d, fun j hj => absurd hj (by omega), fun u hu => absurd hu (by omega)⟩

theorem Filled.of_eq {c : Job} {m : Memory} {w T : Nat} {d d' : Datapath} (h : Filled c m w T d)
    (hm : d'.mem = d.mem) (hc : d'.lat.cursor = d.lat.cursor) : Filled c m w T d' :=
  ⟨h.adv.of_eq hm hc, by rw [hm]; exact h.bytes, by rw [hc]; exact h.bits⟩

theorem Filled.progress {c : Job} {m : Memory} {w T : Nat} {d : Datapath} (h : Filled c m w T d) :
    Progress c m (refByte m c w) (T / 8) d := ⟨h.bytes, h.adv.mem⟩

/-- A byte of the reference stream, from its bits. -/
theorem eq_refByte {m : Memory} {c : Job} {w j : Nat} {x : Byte}
    (h : ∀ u, u < 8 → x.getLsbD (7 - u) = refBit m c w (8 * j + u)) : x = refByte m c w j :=
  BitVec.eq_of_getLsbD_eq fun i hi => by
    have e : 7 - (7 - i) = i := by omega
    have h1 := h (7 - i) (by omega)
    have h2 := refByte_bit m c w j (u := 7 - i) (by omega)
    rw [e] at h1 h2
    rw [h1, h2]

/-- Appending the next `w` bits of the reference stream (R142). -/
theorem Filled.appendBits {c : Job} {m : Memory} {w T : Nat} {d : Datapath} (h : Filled c m w T d)
    (hw : 0 < w) (hTw : T % 8 + w ≤ 8) (hlt : T / 8 + 1 ≤ 2 ^ 32) (hv : d.lat.v.toNat < 2 ^ w)
    (hbits : ∀ t, t < w → d.lat.v.getLsbD (w - 1 - t) = refBit m c w (T + t)) :
    Filled c m w (T + w) (Machine.appendBits w d) := by
  have hb := h.adv.dbit
  -- the accumulator holds the stream as far as it is filled
  have hacc : ∀ u, u < T % 8 + w →
      (d.lat.cursor.acc ||| (d.lat.v.setWidth 8 <<< (8 - d.lat.cursor.dbit - w))).getLsbD (7 - u)
        = refBit m c w (8 * (T / 8) + u) := by
    intro u hu
    rw [append_bit _ _ hv (by omega) (by omega), hb]
    by_cases h1 : u < T % 8
    · rw [h.bits u h1]
      simp [show ¬ T % 8 ≤ u by omega]
    · rw [h.adv.acc (7 - u) (by omega)]
      have := hbits (u - T % 8) (by omega)
      rw [show w - 1 - (u - T % 8) = T % 8 + w - 1 - u by omega,
        show T + (u - T % 8) = 8 * (T / 8) + u by omega] at this
      simp [this, show T % 8 ≤ u by omega, hu]
  refine ⟨h.adv.appendBits hw hTw hv, fun j hj => ?_, fun u hu => ?_⟩
  · by_cases hf : d.lat.cursor.dbit + w = 8
    · rw [Machine.appendBits, if_pos hf]
      show Memory.read (Memory.write d.mem d.lat.cursor.dptr.toNat _) _ = _
      rw [h.adv.dptr]
      by_cases hj' : j = T / 8
      · subst hj'
        rw [Memory.read_write_same]
        exact eq_refByte fun u hu => hacc u (by omega)
      · rw [Memory.read_write_ne _ _ (c.outAddr_toNat_ne (by omega) (by omega) hj')]
        exact h.bytes j (by omega)
    · rw [Machine.appendBits, if_neg hf]
      exact h.bytes j (by omega)
  · by_cases hf : d.lat.cursor.dbit + w = 8
    · exact absurd hu (by omega)
    · rw [Machine.appendBits, if_neg hf, show (T + w) / 8 = T / 8 by omega]
      exact hacc u (by omega)

/-- The bits of a 12-bit field above and below its low nibble. -/
theorem field12_bits (acc : Byte) (v : BitVec 16) {u : Nat} (hu : u < 8) :
    ((v >>> 4).setWidth 8 : Byte).getLsbD (7 - u) = v.getLsbD (11 - u) ∧
    ((((v &&& 0x0F#16) <<< 4).setWidth 8 : Byte).getLsbD (7 - u)
      = (decide (u < 4) && v.getLsbD (3 - u))) ∧
    (v.setWidth 8 : Byte).getLsbD (7 - u) = v.getLsbD (7 - u) ∧
    (v.toNat < 2 ^ 12 → (acc ||| ((v >>> 8).setWidth 8 : Byte)).getLsbD (7 - u)
      = (acc.getLsbD (7 - u) || (decide (4 ≤ u) && v.getLsbD (15 - u)))) := by
  have big : ∀ i, 12 ≤ i → v.toNat < 2 ^ 12 → v.getLsbD i = false := fun i hi hv => by
    rw [BitVec.getLsbD]
    exact Nat.testBit_lt_two_pow (lt_of_lt_of_le hv (Nat.pow_le_pow_right (by decide) hi))
  refine ⟨?_, ?_, ?_, fun hv => ?_⟩
  · rw [BitVec.getLsbD_setWidth, BitVec.getLsbD_ushiftRight, show 4 + (7 - u) = 11 - u by omega]
    simp [show 7 - u < 8 by omega]
  · interval_cases u <;> simp
  · rw [BitVec.getLsbD_setWidth]
    simp [show 7 - u < 8 by omega]
  · rw [BitVec.getLsbD_or, BitVec.getLsbD_setWidth, BitVec.getLsbD_ushiftRight,
      show 8 + (7 - u) = 15 - u by omega]
    by_cases h4 : 4 ≤ u
    · simp [h4, show 7 - u < 8 by omega]
    · simp [h4, big (15 - u) (by omega) hv]

/-- Appending the next 12 bits of the reference stream (R145). -/
theorem Filled.append12 {c : Job} {m : Memory} {T : Nat} {d : Datapath} (h : Filled c m 12 T d)
    (hT : T % 8 = 0 ∨ T % 8 = 4) (hlt : T / 8 + 2 ≤ 2 ^ 32) (hv : d.lat.v.toNat < 2 ^ 12)
    (hbits : ∀ t, t < 12 → d.lat.v.getLsbD (11 - t) = refBit m c 12 (T + t)) :
    Filled c m 12 (T + 12) (Machine.append12 d) := by
  have hb := h.adv.dbit
  have hF : ∀ u, u < 8 → _ := fun u hu => field12_bits d.lat.cursor.acc d.lat.v hu
  refine ⟨h.adv.append12 hT, fun j hj => ?_, fun u hu => ?_⟩
  · by_cases hf : d.lat.cursor.dbit = 0
    · rw [Machine.append12, if_pos hf]
      show Memory.read (Memory.write d.mem d.lat.cursor.dptr.toNat _) _ = _
      rw [h.adv.dptr]
      by_cases hj' : j = T / 8
      · subst hj'
        rw [Memory.read_write_same]
        refine eq_refByte fun u hu => ?_
        rw [(hF u hu).1, hbits u (by omega), show T + u = 8 * (T / 8) + u by omega]
      · rw [Memory.read_write_ne _ _ (c.outAddr_toNat_ne (by omega) (by omega) hj')]
        exact h.bytes j (by omega)
    · rw [Machine.append12, if_neg hf]
      show Memory.read (Memory.write (Memory.write d.mem d.lat.cursor.dptr.toNat _)
        (d.lat.cursor.dptr + 1#32).toNat _) _ = _
      rw [h.adv.dptr, ← Job.outAddr_add]
      by_cases h1 : j = T / 8 + 1
      · subst h1
        rw [Memory.read_write_same]
        refine eq_refByte fun u hu => ?_
        have := hbits (4 + u) (by omega)
        rw [(hF u hu).2.2.1, ← show 11 - (4 + u) = 7 - u by omega, this,
          show T + (4 + u) = 8 * (T / 8 + 1) + u by omega]
      · rw [Memory.read_write_ne _ _ (c.outAddr_toNat_ne (by omega) (by omega) h1)]
        by_cases h2 : j = T / 8
        · subst h2
          rw [Memory.read_write_same]
          refine eq_refByte fun u hu => ?_
          rw [(hF u hu).2.2.2 hv]
          by_cases h4 : 4 ≤ u
          · have := hbits (u - 4) (by omega)
            rw [h.adv.acc (7 - u) (by omega), ← show 11 - (u - 4) = 15 - u by omega, this,
              show T + (u - 4) = 8 * (T / 8) + u by omega]
            simp [h4]
          · rw [h.bits u (by omega)]
            simp [h4]
        · rw [Memory.read_write_ne _ _ (c.outAddr_toNat_ne (by omega) (by omega) h2)]
          exact h.bytes j (by omega)
  · by_cases hf : d.lat.cursor.dbit = 0
    · rw [Machine.append12, if_pos hf]
      show (((d.lat.v &&& 0x0F#16) <<< 4).setWidth 8 : Byte).getLsbD (7 - u) = _
      have := hbits (8 + u) (by omega)
      rw [(hF u (by omega)).2.1, ← show 11 - (8 + u) = 3 - u by omega, this,
        show T + (8 + u) = 8 * ((T + 12) / 8) + u by omega]
      simp [show u < 4 by omega]
    · exact absurd hu (by omega)

/-- A generic routine that is ready with its output apart from what it reads, and whose run fills the cursor
with the whole reference stream, completes with that stream in its output. -/
theorem exec_of_filled {i : Instr} {a : TransferArgs} {planes w : Nat} {s : State} {d : Datapath}
    (hi : routineOf i = some (a, planes, w)) (hR : Ready a planes w s) (hS : Separate a planes s)
    (hw : w * (8 * (Job.start a planes s.mem).n / w) = 8 * (Job.start a planes s.mem).n)
    (hrun : runOf i (Job.start a planes s.mem) (s.datapath.setPp (Job.start a planes s.mem).pp) = .done d)
    (hd : Filled (Job.start a planes s.mem) s.mem w (8 * (planes * (Job.start a planes s.mem).n)) d) :
    ∃ t, exec i s = .next t ∧ Transcoded (Job.start a planes s.mem) s t ∧
      Interleaved (Job.start a planes s.mem) w s.mem t.mem := by
  have hp := hd.progress
  rw [Nat.mul_div_cancel_left _ (by decide)] at hp
  refine ⟨_, exec_of_done hi hR hrun, transcoded_of_outputOnly fun x hx => hp.2 x hx, ?_⟩
  rw [State.settle_of_disjoint hS]
  refine interleaved_of_refBit (fun j u hj hu => ?_) hw
  exact (congrArg (fun x : Byte => x.getLsbD (7 - u)) (hp.1 j hj)).trans (refByte_bit _ _ _ _ hu)

end Sys2Proof.Machine
end

