-- ==== Sys2Proof/Laws/Decode.lean ====
section
/-! SUPPORT. The fields of an encoded word, and every word as the encoding of its fields. -/

namespace Sys2Proof

section FormatT
variable (a : TransferArgs) (np bps : BitVec 32)

theorem encodeT_extract (start len : Nat) : (encodeT a np bps).extractLsb' start len =
    BitVec.extractLsb' (n := 32 + 32 + 32 + 32 + 32 + 32 + 24 + 8) start len
      (bps ++ np ++ a.nbytes ++ a.offset ++ a.ptab ++ a.out ++ 0#24 ++ 0x01#8) := rfl

@[simp] theorem fieldOpcode_encodeT : fieldOpcode (encodeT a np bps) = 0x01#8 := by
  simp (disch := decide) only [fieldOpcode, encodeT_extract,
    BitVec.extractLsb'_append_eq_of_add_le]
  exact BitVec.extractLsb'_eq_self

@[simp] theorem fieldRsv0T_encodeT : fieldRsv0T (encodeT a np bps) = 0#24 := by
  simp (disch := decide) only [fieldRsv0T, encodeT_extract,
    BitVec.extractLsb'_append_eq_of_le, BitVec.extractLsb'_append_eq_of_add_le]
  exact BitVec.extractLsb'_eq_self

@[simp] theorem fieldOut_encodeT : fieldOut (encodeT a np bps) = a.out := by
  simp (disch := decide) only [fieldOut, encodeT_extract,
    BitVec.extractLsb'_append_eq_of_le, BitVec.extractLsb'_append_eq_of_add_le]
  exact BitVec.extractLsb'_eq_self

@[simp] theorem fieldPtab_encodeT : fieldPtab (encodeT a np bps) = a.ptab := by
  simp (disch := decide) only [fieldPtab, encodeT_extract,
    BitVec.extractLsb'_append_eq_of_le, BitVec.extractLsb'_append_eq_of_add_le]
  exact BitVec.extractLsb'_eq_self

@[simp] theorem fieldOffset_encodeT : fieldOffset (encodeT a np bps) = a.offset := by
  simp (disch := decide) only [fieldOffset, encodeT_extract,
    BitVec.extractLsb'_append_eq_of_le, BitVec.extractLsb'_append_eq_of_add_le]
  exact BitVec.extractLsb'_eq_self

@[simp] theorem fieldNbytes_encodeT : fieldNbytes (encodeT a np bps) = a.nbytes := by
  simp (disch := decide) only [fieldNbytes, encodeT_extract,
    BitVec.extractLsb'_append_eq_of_le, BitVec.extractLsb'_append_eq_of_add_le]
  exact BitVec.extractLsb'_eq_self

@[simp] theorem fieldNplanes_encodeT : fieldNplanes (encodeT a np bps) = np := by
  simp (disch := decide) only [fieldNplanes, encodeT_extract,
    BitVec.extractLsb'_append_eq_of_le, BitVec.extractLsb'_append_eq_of_add_le]
  exact BitVec.extractLsb'_eq_self

@[simp] theorem fieldBps_encodeT : fieldBps (encodeT a np bps) = bps := by
  simp (disch := decide) only [fieldBps, encodeT_extract,
    BitVec.extractLsb'_append_eq_of_le]
  exact BitVec.extractLsb'_eq_self

@[simp] theorem transferArgs_encodeT : transferArgs (encodeT a np bps) = a := by
  simp [transferArgs]

end FormatT

section FormatX
variable (r s mask : Byte) (shift : BitVec 3)

theorem encodeX_extract (start len : Nat) : (encodeX r s mask shift).extractLsb' start len =
    BitVec.extractLsb' (n := 160 + 21 + 3 + 8 + 8 + 8 + 8 + 8) start len
      (0#160 ++ 0#21 ++ shift ++ mask ++ 0#8 ++ s ++ r ++ 0x02#8) := rfl

@[simp] theorem fieldOpcode_encodeX : fieldOpcode (encodeX r s mask shift) = 0x02#8 := by
  simp (disch := decide) only [fieldOpcode, encodeX_extract,
    BitVec.extractLsb'_append_eq_of_add_le]
  exact BitVec.extractLsb'_eq_self

@[simp] theorem fieldR_encodeX : fieldR (encodeX r s mask shift) = r := by
  simp (disch := decide) only [fieldR, encodeX_extract,
    BitVec.extractLsb'_append_eq_of_le, BitVec.extractLsb'_append_eq_of_add_le]
  exact BitVec.extractLsb'_eq_self

@[simp] theorem fieldS_encodeX : fieldS (encodeX r s mask shift) = s := by
  simp (disch := decide) only [fieldS, encodeX_extract,
    BitVec.extractLsb'_append_eq_of_le, BitVec.extractLsb'_append_eq_of_add_le]
  exact BitVec.extractLsb'_eq_self

@[simp] theorem fieldRsv0X_encodeX : fieldRsv0X (encodeX r s mask shift) = 0#8 := by
  simp (disch := decide) only [fieldRsv0X, encodeX_extract,
    BitVec.extractLsb'_append_eq_of_le, BitVec.extractLsb'_append_eq_of_add_le]
  exact BitVec.extractLsb'_eq_self

@[simp] theorem fieldMask_encodeX : fieldMask (encodeX r s mask shift) = mask := by
  simp (disch := decide) only [fieldMask, encodeX_extract,
    BitVec.extractLsb'_append_eq_of_le, BitVec.extractLsb'_append_eq_of_add_le]
  exact BitVec.extractLsb'_eq_self

@[simp] theorem fieldShift_encodeX : fieldShift (encodeX r s mask shift) = shift := by
  simp (disch := decide) only [fieldShift, encodeX_extract,
    BitVec.extractLsb'_append_eq_of_le, BitVec.extractLsb'_append_eq_of_add_le]
  exact BitVec.extractLsb'_eq_self

@[simp] theorem fieldRsv1X_encodeX : fieldRsv1X (encodeX r s mask shift) = 0#21 := by
  simp (disch := decide) only [fieldRsv1X, encodeX_extract,
    BitVec.extractLsb'_append_eq_of_le, BitVec.extractLsb'_append_eq_of_add_le]
  exact BitVec.extractLsb'_eq_self

@[simp] theorem fieldRsv2X_encodeX : fieldRsv2X (encodeX r s mask shift) = 0#160 := by
  simp (disch := decide) only [fieldRsv2X, encodeX_extract,
    BitVec.extractLsb'_append_eq_of_le]
  exact BitVec.extractLsb'_eq_self

end FormatX

/-- A word is the format T encoding of its own fields, if OPCODE and RSV0 are those of TRANSCODE. -/
theorem encodeT_fields {cw : CommandWord} (ho : fieldOpcode cw = 0x01#8) (hr : fieldRsv0T cw = 0#24) :
    encodeT (transferArgs cw) (fieldNplanes cw) (fieldBps cw) = cw := by
  rw [encodeT, ← ho, ← hr]
  simp only [transferArgs, fieldOpcode, fieldRsv0T, fieldOut, fieldPtab, fieldOffset, fieldNbytes,
    fieldNplanes, fieldBps]
  rw [BitVec.extractLsb'_append_extractLsb'_eq_extractLsb' (by decide),
    BitVec.extractLsb'_append_extractLsb'_eq_extractLsb' (by decide),
    BitVec.extractLsb'_append_extractLsb'_eq_extractLsb' (by decide),
    BitVec.extractLsb'_append_extractLsb'_eq_extractLsb' (by decide),
    BitVec.extractLsb'_append_extractLsb'_eq_extractLsb' (by decide),
    BitVec.extractLsb'_append_extractLsb'_eq_extractLsb' (by decide),
    BitVec.extractLsb'_append_extractLsb'_eq_extractLsb' (by decide)]
  exact BitVec.extractLsb'_eq_self

/-- A word is the format X encoding of its own fields, if OPCODE and the reserved fields are those of
XPOSE. -/
theorem encodeX_fields {cw : CommandWord} (ho : fieldOpcode cw = 0x02#8) (h0 : fieldRsv0X cw = 0#8)
    (h1 : fieldRsv1X cw = 0#21) (h2 : fieldRsv2X cw = 0#160) :
    encodeX (fieldR cw) (fieldS cw) (fieldMask cw) (fieldShift cw) = cw := by
  rw [encodeX, ← ho, ← h0, ← h1, ← h2]
  simp only [fieldOpcode, fieldRsv0X, fieldRsv1X, fieldRsv2X, fieldR, fieldS, fieldMask, fieldShift]
  rw [BitVec.extractLsb'_append_extractLsb'_eq_extractLsb' (by decide),
    BitVec.extractLsb'_append_extractLsb'_eq_extractLsb' (by decide),
    BitVec.extractLsb'_append_extractLsb'_eq_extractLsb' (by decide),
    BitVec.extractLsb'_append_extractLsb'_eq_extractLsb' (by decide),
    BitVec.extractLsb'_append_extractLsb'_eq_extractLsb' (by decide),
    BitVec.extractLsb'_append_extractLsb'_eq_extractLsb' (by decide),
    BitVec.extractLsb'_append_extractLsb'_eq_extractLsb' (by decide)]
  exact BitVec.extractLsb'_eq_self

/-- What the depth lookup can answer: a depth of `D` whose number of bits is the field. -/
theorem depthOf_eq_some {bps : BitVec 32} {d : Depth} (h : depthOf bps = some d) :
    bps = BitVec.ofNat 32 d.bits := by
  unfold depthOf at h
  repeat' split at h
  all_goals first
    | (cases h; assumption)
    | cases h

/-- Where the depth lookup finds nothing. -/
theorem depthOf_eq_none {bps : BitVec 32} (h : depthOf bps = none) :
    bps ≠ 1#32 ∧ bps ≠ 2#32 ∧ bps ≠ 4#32 ∧ bps ≠ 8#32 ∧ bps ≠ 12#32 ∧ bps ≠ 16#32 := by
  unfold depthOf at h
  repeat' split at h
  all_goals first
    | (refine ⟨?_, ?_, ?_, ?_, ?_, ?_⟩ <;> assumption)
    | cases h

/-- A routine lookup answers the row's routine or UnsupportedCombination. -/
theorem routineAt_cases (row : Depth → Instr) (bps : BitVec 32) :
    (∃ d, depthOf bps = some d ∧ routineAt row bps = .ok (row d)) ∨
      (depthOf bps = none ∧ routineAt row bps = .error .unsupportedCombination) := by
  unfold routineAt
  cases h : depthOf bps with
  | some d => exact Or.inl ⟨d, rfl, rfl⟩
  | none => exact Or.inr ⟨rfl, rfl⟩

/-- Everything the dispatch checks can answer, in the order of R82. -/
theorem decodeTranscode_cases (a : TransferArgs) (np bps : BitVec 32) :
    ((bps.toInt < 1 ∨ 16 < bps.toInt) ∧ decodeTranscode a np bps = .error .invalidBitDepth) ∨
    (1 ≤ bps.toInt ∧ bps.toInt ≤ 16 ∧
      ((np.toInt = 3 ∧ decodeTranscode a np bps = routineAt (fixed3Routine a) bps) ∨
       (np.toInt = 4 ∧ decodeTranscode a np bps = routineAt (fixed4Routine a) bps) ∨
       (np.toInt < 0 ∧ decodeTranscode a np bps = .error .invalidPlaneCount) ∨
       (0 ≤ np.toInt ∧ np.toInt ≠ 3 ∧ np.toInt ≠ 4 ∧
         decodeTranscode a np bps = routineAt (genericRoutine a np) bps))) := by
  unfold decodeTranscode
  split
  · rename_i h; exact Or.inl ⟨h, rfl⟩
  · rename_i h
    push Not at h
    refine Or.inr ⟨h.1, h.2, ?_⟩
    split
    · rename_i h3; exact Or.inl ⟨h3, rfl⟩
    · rename_i h3
      split
      · rename_i h4; exact Or.inr (Or.inl ⟨h4, rfl⟩)
      · rename_i h4
        split
        · rename_i hn; exact Or.inr (Or.inr (Or.inl ⟨hn, rfl⟩))
        · rename_i hn; exact Or.inr (Or.inr (Or.inr ⟨not_lt.mp hn, h3, h4, rfl⟩))

/-- Everything the decoder can answer: an illegal word, a TRANSCODE passed to the dispatch checks, or an
XPOSE. -/
theorem decode_cases (cw : CommandWord) :
    (decode cw = .error .illegalCommand ∧
      ((fieldOpcode cw = 0x01#8 ∧ fieldRsv0T cw ≠ 0#24) ∨
       (fieldOpcode cw = 0x02#8 ∧
         (fieldRsv0X cw ≠ 0#8 ∨ fieldRsv1X cw ≠ 0#21 ∨ fieldRsv2X cw ≠ 0#160)) ∨
       (fieldOpcode cw ≠ 0x01#8 ∧ fieldOpcode cw ≠ 0x02#8))) ∨
    (fieldOpcode cw = 0x01#8 ∧ fieldRsv0T cw = 0#24 ∧
      decode cw = decodeTranscode (transferArgs cw) (fieldNplanes cw) (fieldBps cw)) ∨
    (fieldOpcode cw = 0x02#8 ∧ fieldRsv0X cw = 0#8 ∧ fieldRsv1X cw = 0#21 ∧ fieldRsv2X cw = 0#160 ∧
      decode cw = .ok (.xpose (fieldR cw) (fieldS cw) (fieldMask cw) (fieldShift cw))) := by
  unfold decode
  split
  · rename_i h1
    split
    · rename_i hr; exact Or.inl ⟨rfl, Or.inl ⟨h1, hr⟩⟩
    · rename_i hr
      push Not at hr
      exact Or.inr (Or.inl ⟨h1, hr, rfl⟩)
  · rename_i h1
    split
    · rename_i h2
      split
      · rename_i hr; exact Or.inl ⟨rfl, Or.inr (Or.inl ⟨h2, hr⟩)⟩
      · rename_i hr
        push Not at hr
        exact Or.inr (Or.inr ⟨h2, hr.1, hr.2.1, hr.2.2, rfl⟩)
    · rename_i h2; exact Or.inl ⟨rfl, Or.inr (Or.inr ⟨h1, h2⟩)⟩

end Sys2Proof
end

