-- ==== Sys2Proof/Laws/PerInstr.lean ====
section
/-! SUPPORT. The family EncodedFields: what the fields of an instruction's encoding hold, one lemma per
constructor of `Instr` (30_encoding.md R52, R53, R62). -/

namespace Sys2Proof.Laws.EncodedFields

/-- The encoding of `i` is a legal format T word with these operands. -/
def FormatT (i : Instr) (a : TransferArgs) (np bps : BitVec 32) : Prop :=
  fieldOpcode (encode i) = 0x01#8 ∧ fieldRsv0T (encode i) = 0#24 ∧ transferArgs (encode i) = a ∧
    fieldNplanes (encode i) = np ∧ fieldBps (encode i) = bps

/-- The encoding of `i` is a legal format X word with these operands. -/
def FormatX (i : Instr) (r s mask : Byte) (shift : BitVec 3) : Prop :=
  fieldOpcode (encode i) = 0x02#8 ∧
    (fieldRsv0X (encode i) = 0#8 ∧ fieldRsv1X (encode i) = 0#21 ∧ fieldRsv2X (encode i) = 0#160) ∧
    fieldR (encode i) = r ∧ fieldS (encode i) = s ∧ fieldMask (encode i) = mask ∧
    fieldShift (encode i) = shift

def Statement : Instr → Prop
  | .flip3x1 a => FormatT (.flip3x1 a) a 3#32 1#32
  | .flip3x2 a => FormatT (.flip3x2 a) a 3#32 2#32
  | .flip3x4 a => FormatT (.flip3x4 a) a 3#32 4#32
  | .flip3x8 a => FormatT (.flip3x8 a) a 3#32 8#32
  | .flip3x12 a => FormatT (.flip3x12 a) a 3#32 12#32
  | .flip3x16 a => FormatT (.flip3x16 a) a 3#32 16#32
  | .flip4x1 a => FormatT (.flip4x1 a) a 4#32 1#32
  | .flip4x2 a => FormatT (.flip4x2 a) a 4#32 2#32
  | .flip4x4 a => FormatT (.flip4x4 a) a 4#32 4#32
  | .flip4x8 a => FormatT (.flip4x8 a) a 4#32 8#32
  | .flip4x12 a => FormatT (.flip4x12 a) a 4#32 12#32
  | .flip4x16 a => FormatT (.flip4x16 a) a 4#32 16#32
  | .flipnx1 a np => FormatT (.flipnx1 a np) a np 1#32
  | .flipnx2 a np => FormatT (.flipnx2 a np) a np 2#32
  | .flipnx4 a np => FormatT (.flipnx4 a np) a np 4#32
  | .flipnx8 a np => FormatT (.flipnx8 a np) a np 8#32
  | .flipnx12 a np => FormatT (.flipnx12 a np) a np 12#32
  | .flipnx16 a np => FormatT (.flipnx16 a np) a np 16#32
  | .xpose r s mask shift => FormatX (.xpose r s mask shift) r s mask shift

theorem formatT_of_eq {i : Instr} {a : TransferArgs} {np bps : BitVec 32} (h : encode i = encodeT a np bps) :
    FormatT i a np bps := by
  rw [FormatT, h]
  exact ⟨fieldOpcode_encodeT a np bps, fieldRsv0T_encodeT a np bps, transferArgs_encodeT a np bps,
    fieldNplanes_encodeT a np bps, fieldBps_encodeT a np bps⟩

theorem flip3x1 (a : TransferArgs) : Statement (.flip3x1 a) := formatT_of_eq rfl
theorem flip3x2 (a : TransferArgs) : Statement (.flip3x2 a) := formatT_of_eq rfl
theorem flip3x4 (a : TransferArgs) : Statement (.flip3x4 a) := formatT_of_eq rfl
theorem flip3x8 (a : TransferArgs) : Statement (.flip3x8 a) := formatT_of_eq rfl
theorem flip3x12 (a : TransferArgs) : Statement (.flip3x12 a) := formatT_of_eq rfl
theorem flip3x16 (a : TransferArgs) : Statement (.flip3x16 a) := formatT_of_eq rfl
theorem flip4x1 (a : TransferArgs) : Statement (.flip4x1 a) := formatT_of_eq rfl
theorem flip4x2 (a : TransferArgs) : Statement (.flip4x2 a) := formatT_of_eq rfl
theorem flip4x4 (a : TransferArgs) : Statement (.flip4x4 a) := formatT_of_eq rfl
theorem flip4x8 (a : TransferArgs) : Statement (.flip4x8 a) := formatT_of_eq rfl
theorem flip4x12 (a : TransferArgs) : Statement (.flip4x12 a) := formatT_of_eq rfl
theorem flip4x16 (a : TransferArgs) : Statement (.flip4x16 a) := formatT_of_eq rfl
theorem flipnx1 (a : TransferArgs) (np : BitVec 32) : Statement (.flipnx1 a np) := formatT_of_eq rfl
theorem flipnx2 (a : TransferArgs) (np : BitVec 32) : Statement (.flipnx2 a np) := formatT_of_eq rfl
theorem flipnx4 (a : TransferArgs) (np : BitVec 32) : Statement (.flipnx4 a np) := formatT_of_eq rfl
theorem flipnx8 (a : TransferArgs) (np : BitVec 32) : Statement (.flipnx8 a np) := formatT_of_eq rfl
theorem flipnx12 (a : TransferArgs) (np : BitVec 32) : Statement (.flipnx12 a np) := formatT_of_eq rfl
theorem flipnx16 (a : TransferArgs) (np : BitVec 32) : Statement (.flipnx16 a np) := formatT_of_eq rfl

theorem xpose (r s mask : Byte) (shift : BitVec 3) : Statement (.xpose r s mask shift) :=
  ⟨fieldOpcode_encodeX r s mask shift,
    ⟨fieldRsv0X_encodeX r s mask shift, fieldRsv1X_encodeX r s mask shift, fieldRsv2X_encodeX r s mask shift⟩,
    fieldR_encodeX r s mask shift, fieldS_encodeX r s mask shift, fieldMask_encodeX r s mask shift,
    fieldShift_encodeX r s mask shift⟩

end Sys2Proof.Laws.EncodedFields
end

