-- ==== Sys2Proof/Tests/Slice0.lean ====
section
/-! SUPPORT. Tests of the model: the checks of WellFormed, the decoding of every row of opcode_table.json, one step
of every instruction on the vectors of 95_test_vectors.md, the failures, and a witness for the hypotheses of
each statement of Certificates/Slice0/Obligations.lean. -/

namespace Sys2Proof.Tests

open Sys2Proof.Machine

-- One kernel evaluation after another: all at once they need more threads than the memory limit leaves.
set_option Elab.async false

/-! ## Well-formed terms -/

/-- Operands with a different value in each field. -/
def args : TransferArgs := ⟨0x11223344#32, 0x55667788#32, 0x99AABBCC#32, 0xDDEEFF00#32⟩

/-- Each check of `genericCount`: a negative count, 3 and 4, at each row that carries a count. -/
theorem test_wellFormed_refuses :
    [0xFFFFFFFF#32, 0x80000000#32, 3#32, 4#32].map (fun np =>
      [(Instr.flipnx1 args np).wellFormed, (Instr.flipnx2 args np).wellFormed,
       (Instr.flipnx4 args np).wellFormed, (Instr.flipnx8 args np).wellFormed,
       (Instr.flipnx12 args np).wellFormed, (Instr.flipnx16 args np).wellFormed])
    = List.replicate 4 (List.replicate 6 false) := by
  decide +kernel

/-- The counts at the edges of the checks are accepted. -/
theorem test_wellFormed_accepts :
    [0#32, 1#32, 2#32, 5#32, 0x7FFFFFFF#32].map (fun np => (Instr.flipnx1 args np).wellFormed)
    = List.replicate 5 true := by
  decide +kernel

/-! ## Decoding: words written out from R52, R53 and R62 -/

theorem test_decode_flip3x :
    decode 0x0000000100000003DDEEFF0099AABBCC556677881122334400000001#224
      = .ok (.flip3x1 args) ∧
    decode 0x0000000200000003DDEEFF0099AABBCC556677881122334400000001#224
      = .ok (.flip3x2 args) ∧
    decode 0x0000000400000003DDEEFF0099AABBCC556677881122334400000001#224
      = .ok (.flip3x4 args) ∧
    decode 0x0000000800000003DDEEFF0099AABBCC556677881122334400000001#224
      = .ok (.flip3x8 args) ∧
    decode 0x0000000C00000003DDEEFF0099AABBCC556677881122334400000001#224
      = .ok (.flip3x12 args) ∧
    decode 0x0000001000000003DDEEFF0099AABBCC556677881122334400000001#224
      = .ok (.flip3x16 args) := by
  decide +kernel

theorem test_decode_flip4x :
    decode 0x0000000100000004DDEEFF0099AABBCC556677881122334400000001#224
      = .ok (.flip4x1 args) ∧
    decode 0x0000000200000004DDEEFF0099AABBCC556677881122334400000001#224
      = .ok (.flip4x2 args) ∧
    decode 0x0000000400000004DDEEFF0099AABBCC556677881122334400000001#224
      = .ok (.flip4x4 args) ∧
    decode 0x0000000800000004DDEEFF0099AABBCC556677881122334400000001#224
      = .ok (.flip4x8 args) ∧
    decode 0x0000000C00000004DDEEFF0099AABBCC556677881122334400000001#224
      = .ok (.flip4x12 args) ∧
    decode 0x0000001000000004DDEEFF0099AABBCC556677881122334400000001#224
      = .ok (.flip4x16 args) := by
  decide +kernel

theorem test_decode_flipnx :
    decode 0x000000017FFFFFFEDDEEFF0099AABBCC556677881122334400000001#224
      = .ok (.flipnx1 args 0x7FFFFFFE#32) ∧
    decode 0x000000027FFFFFFEDDEEFF0099AABBCC556677881122334400000001#224
      = .ok (.flipnx2 args 0x7FFFFFFE#32) ∧
    decode 0x000000047FFFFFFEDDEEFF0099AABBCC556677881122334400000001#224
      = .ok (.flipnx4 args 0x7FFFFFFE#32) ∧
    decode 0x000000087FFFFFFEDDEEFF0099AABBCC556677881122334400000001#224
      = .ok (.flipnx8 args 0x7FFFFFFE#32) ∧
    decode 0x0000000C7FFFFFFEDDEEFF0099AABBCC556677881122334400000001#224
      = .ok (.flipnx12 args 0x7FFFFFFE#32) ∧
    decode 0x000000107FFFFFFEDDEEFF0099AABBCC556677881122334400000001#224
      = .ok (.flipnx16 args 0x7FFFFFFE#32) := by
  decide +kernel

/-- R53, every field at its extreme: SHIFT 7 just below the reserved bits. -/
theorem test_decode_xpose :
    decode 0x000000000000000000000000000000000000000000000155003CA502#224 = .ok (.xpose 0xA5#8 0x3C#8 0x55#8 1#3) ∧
    decode 0x0000000000000000000000000000000000000000000007800001FF02#224 = .ok (.xpose 0xFF#8 0x01#8 0x80#8 7#3) := by
  decide +kernel

/-! One word of each family bit by bit, from BPS (high) or RSV2 down to OPCODE. -/

theorem test_decode_bits_flip3x1 :
    decode
      0b00000000000000000000000000000001000000000000000000000000000000110000000000000000000000000000011100000000000000000000000000000101000000000000000000000001000000000000000000000000001000000000000000000000000000000000000000000001#224
      = .ok (.flip3x1 ⟨0x2000#32, 0x100#32, 5#32, 7#32⟩) := by
  decide +kernel

theorem test_decode_bits_flip4x16 :
    decode
      0b00000000000000000000000000010000000000000000000000000000000001000000000000000000000000000000011100000000000000000000000000000101000000000000000000000001000000000000000000000000001000000000000000000000000000000000000000000001#224
      = .ok (.flip4x16 ⟨0x2000#32, 0x100#32, 5#32, 7#32⟩) := by
  decide +kernel

theorem test_decode_bits_flipnx12 :
    decode
      0b00000000000000000000000000001100000000000000000000000000000000100000000000000000000000000000011100000000000000000000000000000101000000000000000000000001000000000000000000000000001000000000000000000000000000000000000000000001#224
      = .ok (.flipnx12 ⟨0x2000#32, 0x100#32, 5#32, 7#32⟩ 2#32) := by
  decide +kernel

theorem test_decode_bits_xpose :
    decode
      0b00000000000000000000000000000000000000000000000000000000000000000000000000000000000000000000000000000000000000000000000000000000000000000000000000000000000000000000000000000000000001111111111100000000110011011010101100000010#224
      = .ok (.xpose 0xAB#8 0xCD#8 0xFF#8 7#3) := by
  decide +kernel

/-- The encoder on a row of each format. -/
theorem test_encode :
    encode (.flip4x2 ⟨0x2000#32, 0x100#32, 0#32, 2#32⟩) = 0x00000002000000040000000200000000000001000000200000000001#224 ∧
    encode (.xpose 0xAB#8 0xCD#8 0x0F#8 4#3) = 0x00000000000000000000000000000000000000000000040F00CDAB02#224 := by
  decide +kernel

/-- A table word shorter than a command word has zeros above. -/
theorem test_decodeTableWord :
    decodeTableWord 224 0x000000000000000000000000000000000000000000000155003CA502 = some (.xpose 0xA5#8 0x3C#8 0x55#8 1#3) ∧
    decodeTableWord 8 0x102 = some (.xpose 0#8 0#8 0#8 0#3) ∧ decodeTableWord 224 0 = none := by
  decide +kernel

/-! ## One step of each instruction, on layout M0 of 95_test_vectors.md -/

/-- Writes bytes from an address upward. -/
def put : Memory → Nat → List Byte → Memory
  | m, _, [] => m
  | m, x, v :: vs => put (Memory.write m x v) (x + 1) vs

/-- Plane `p` of layout M0 and its plane-table entry. -/
def putPlanes : Memory → Nat → List (List Byte) → Memory
  | m, _, [] => m
  | m, p, v :: vs =>
    putPlanes (put (put m (0x1000 + 0x100 * p) v) (0x100 + 4 * p) [0x00#8, BitVec.ofNat 8 (0x10 + p)])
      (p + 1) vs

/-- Layout M0 with these planes, `EE` in the output area. -/
def layout (planes : List (List Byte)) : State :=
  { State.reset with mem := putPlanes (put [] 0x2000 (List.replicate 22 0xEE#8)) 0 planes }

/-- The first `k` bytes at 0x2000 and the responses after one step that runs `cw`. -/
def result (s : State) (cw : CommandWord) (k : Nat) : Option (List Byte × List ResponseWord) :=
  match step (s.present cw) with
  | .next t => some ((List.range k).map fun j => Memory.read t.mem (0x2000 + j), t.responses)
  | _ => none

/-- The planes of sections 4 to 6 at depths 1 to 8, 12 and 16. -/
def planes8 : List (List Byte) := [[0xA5#8, 0x0F#8], [0x3C#8, 0xF0#8], [0x96#8, 0x55#8], [0xC3#8, 0xAA#8], [0x0F#8, 0xF1#8]]
def planes12 : List (List Byte) :=
  [[0x12#8, 0x34#8, 0x56#8], [0x78#8, 0x9A#8, 0xBC#8], [0xDE#8, 0xF0#8, 0x11#8], [0x23#8, 0x45#8, 0x67#8],
   [0x89#8, 0xAB#8, 0xCD#8]]
def planes16 : List (List Byte) :=
  [[0x11#8, 0x22#8, 0x33#8, 0x44#8], [0x55#8, 0x66#8, 0x77#8, 0x88#8], [0x99#8, 0xAA#8, 0xBB#8, 0xCC#8],
   [0xDD#8, 0xEE#8, 0xFF#8, 0x00#8], [0x01#8, 0x02#8, 0xFE#8, 0xFF#8]]

/-- Vector T3-1. -/
theorem test_flip3x1_T3_1 :
    result (layout planes8)
      0x00000001000000030000000200000000000001000000200000000001#224 8
    = some ([0xA3#8, 0x35#8, 0xCC#8, 0x4D#8, 0x39#8, 0x65#8, 0xEE#8, 0xEE#8], [0#32]) := by
  decide +kernel

/-- Vector T3-2. -/
theorem test_flip3x2_T3_2 :
    result (layout planes8)
      0x00000002000000030000000200000000000001000000200000000001#224 8
    = some ([0x8A#8, 0xD7#8, 0x52#8, 0x34#8, 0xDC#8, 0x71#8, 0xEE#8, 0xEE#8], [0#32]) := by
  decide +kernel

/-- Vector T3-4. -/
theorem test_flip3x4_T3_4 :
    result (layout planes8)
      0x00000004000000030000000200000000000001000000200000000001#224 8
    = some ([0xA3#8, 0x95#8, 0xC6#8, 0x0F#8, 0x5F#8, 0x05#8, 0xEE#8, 0xEE#8], [0#32]) := by
  decide +kernel

/-- Vector T3-8. -/
theorem test_flip3x8_T3_8 :
    result (layout planes8)
      0x00000008000000030000000200000000000001000000200000000001#224 8
    = some ([0xA5#8, 0x3C#8, 0x96#8, 0x0F#8, 0xF0#8, 0x55#8, 0xEE#8, 0xEE#8], [0#32]) := by
  decide +kernel

/-- Vector T3-12. -/
theorem test_flip3x12_T3_12 :
    result (layout planes12)
      0x0000000C000000030000000300000000000001000000200000000001#224 11
    = some ([0x12#8, 0x37#8, 0x89#8, 0xDE#8, 0xF4#8, 0x56#8, 0xAB#8, 0xC0#8, 0x11#8, 0xEE#8, 0xEE#8], [0#32]) := by
  decide +kernel

/-- Vector T3-16. -/
theorem test_flip3x16_T3_16 :
    result (layout planes16)
      0x00000010000000030000000400000000000001000000200000000001#224 14
    = some ([0x11#8, 0x22#8, 0x55#8, 0x66#8, 0x99#8, 0xAA#8, 0x33#8, 0x44#8, 0x77#8, 0x88#8, 0xBB#8,
      0xCC#8, 0xEE#8, 0xEE#8], [0#32]) := by
  decide +kernel

/-- Vector T4-1. -/
theorem test_flip4x1_T4_1 :
    result (layout planes8)
      0x00000001000000040000000200000000000001000000200000000001#224 10
    = some ([0xB1#8, 0xC6#8, 0x4E#8, 0x39#8, 0x56#8, 0x56#8, 0x9A#8, 0x9A#8, 0xEE#8, 0xEE#8], [0#32]) := by
  decide +kernel

/-- Vector T4-2. -/
theorem test_flip4x2_T4_2 :
    result (layout planes8)
      0x00000002000000040000000200000000000001000000200000000001#224 10
    = some ([0x8B#8, 0xB4#8, 0x74#8, 0x4B#8, 0x36#8, 0x36#8, 0xC6#8, 0xC6#8, 0xEE#8, 0xEE#8], [0#32]) := by
  decide +kernel

/-- Vector T4-4. -/
theorem test_flip4x4_T4_4 :
    result (layout planes8)
      0x00000004000000040000000200000000000001000000200000000001#224 10
    = some ([0xA3#8, 0x9C#8, 0x5C#8, 0x63#8, 0x0F#8, 0x5A#8, 0xF0#8, 0x5A#8, 0xEE#8, 0xEE#8], [0#32]) := by
  decide +kernel

/-- Vector T4-8. -/
theorem test_flip4x8_T4_8 :
    result (layout planes8)
      0x00000008000000040000000200000000000001000000200000000001#224 10
    = some ([0xA5#8, 0x3C#8, 0x96#8, 0xC3#8, 0x0F#8, 0xF0#8, 0x55#8, 0xAA#8, 0xEE#8, 0xEE#8], [0#32]) := by
  decide +kernel

/-- Vector T4-12. -/
theorem test_flip4x12_T4_12 :
    result (layout planes12)
      0x0000000C000000040000000300000000000001000000200000000001#224 14
    = some ([0x12#8, 0x37#8, 0x89#8, 0xDE#8, 0xF2#8, 0x34#8, 0x45#8, 0x6A#8, 0xBC#8, 0x01#8, 0x15#8,
      0x67#8, 0xEE#8, 0xEE#8], [0#32]) := by
  decide +kernel

/-- Vector T4-16. -/
theorem test_flip4x16_T4_16 :
    result (layout planes16)
      0x00000010000000040000000400000000000001000000200000000001#224 18
    = some ([0x11#8, 0x22#8, 0x55#8, 0x66#8, 0x99#8, 0xAA#8, 0xDD#8, 0xEE#8, 0x33#8, 0x44#8, 0x77#8,
      0x88#8, 0xBB#8, 0xCC#8, 0xFF#8, 0x00#8, 0xEE#8, 0xEE#8], [0#32]) := by
  decide +kernel

/-- Vector G5-1. -/
theorem test_flipnx1_G5_1 :
    result (layout planes8)
      0x00000001000000050000000200000000000001000000200000000001#224 12
    = some ([0xB0#8, 0xB0#8, 0xC4#8, 0xF4#8, 0xF3#8, 0x5B#8, 0x56#8, 0xD9#8, 0x52#8, 0x55#8, 0xEE#8, 0xEE#8], [0#32]) := by
  decide +kernel

/-- Vector G5-2. -/
theorem test_flipnx2_G5_2 :
    result (layout planes8)
      0x00000002000000050000000200000000000001000000200000000001#224 12
    = some ([0x8B#8, 0x2D#8, 0x07#8, 0x4D#8, 0x2F#8, 0x36#8, 0xCD#8, 0xBC#8, 0x63#8, 0x19#8, 0xEE#8, 0xEE#8], [0#32]) := by
  decide +kernel

/-- Vector G5-4. -/
theorem test_flipnx4_G5_4 :
    result (layout planes8)
      0x00000004000000050000000200000000000001000000200000000001#224 12
    = some ([0xA3#8, 0x9C#8, 0x05#8, 0xC6#8, 0x3F#8, 0x0F#8, 0x5A#8, 0xFF#8, 0x05#8, 0xA1#8, 0xEE#8, 0xEE#8], [0#32]) := by
  decide +kernel

/-- Vector G5-8. -/
theorem test_flipnx8_G5_8 :
    result (layout planes8)
      0x00000008000000050000000200000000000001000000200000000001#224 12
    = some ([0xA5#8, 0x3C#8, 0x96#8, 0xC3#8, 0x0F#8, 0x0F#8, 0xF0#8, 0x55#8, 0xAA#8, 0xF1#8, 0xEE#8, 0xEE#8], [0#32]) := by
  decide +kernel

/-- Vector G5-12. -/
theorem test_flipnx12_G5_12 :
    result (layout planes12)
      0x0000000C000000050000000300000000000001000000200000000001#224 17
    = some ([0x12#8, 0x37#8, 0x89#8, 0xDE#8, 0xF2#8, 0x34#8, 0x89#8, 0xA4#8, 0x56#8, 0xAB#8, 0xC0#8,
      0x11#8, 0x56#8, 0x7B#8, 0xCD#8, 0xEE#8, 0xEE#8], [0#32]) := by
  decide +kernel

/-- Vector G5-16. -/
theorem test_flipnx16_G5_16 :
    result (layout planes16)
      0x00000010000000050000000400000000000001000000200000000001#224 22
    = some ([0x11#8, 0x22#8, 0x55#8, 0x66#8, 0x99#8, 0xAA#8, 0xDD#8, 0xEE#8, 0x01#8, 0x02#8, 0x33#8,
      0x44#8, 0x77#8, 0x88#8, 0xBB#8, 0xCC#8, 0xFF#8, 0x00#8, 0xFE#8, 0xFF#8, 0xEE#8, 0xEE#8], [0#32]) := by
  decide +kernel

/-- Vector G2-1. -/
theorem test_flipnx1_G2_1 :
    result (layout planes8)
      0x00000001000000020000000200000000000001000000200000000001#224 6
    = some ([0x8D#8, 0x72#8, 0x55#8, 0xAA#8, 0xEE#8, 0xEE#8], [0#32]) := by
  decide +kernel

/-- Vector G2-2. -/
theorem test_flipnx2_G2_2 :
    result (layout planes8)
      0x00000002000000020000000200000000000001000000200000000001#224 6
    = some ([0x8B#8, 0x74#8, 0x33#8, 0xCC#8, 0xEE#8, 0xEE#8], [0#32]) := by
  decide +kernel

/-- Vector G2-4. -/
theorem test_flipnx4_G2_4 :
    result (layout planes8)
      0x00000004000000020000000200000000000001000000200000000001#224 6
    = some ([0xA3#8, 0x5C#8, 0x0F#8, 0xF0#8, 0xEE#8, 0xEE#8], [0#32]) := by
  decide +kernel

/-- Vector G2-8. -/
theorem test_flipnx8_G2_8 :
    result (layout planes8)
      0x00000008000000020000000200000000000001000000200000000001#224 6
    = some ([0xA5#8, 0x3C#8, 0x0F#8, 0xF0#8, 0xEE#8, 0xEE#8], [0#32]) := by
  decide +kernel

/-- Vector G2-12. -/
theorem test_flipnx12_G2_12 :
    result (layout planes12)
      0x0000000C000000020000000300000000000001000000200000000001#224 8
    = some ([0x12#8, 0x37#8, 0x89#8, 0x45#8, 0x6A#8, 0xBC#8, 0xEE#8, 0xEE#8], [0#32]) := by
  decide +kernel

/-- Vector G2-16. -/
theorem test_flipnx16_G2_16 :
    result (layout planes16)
      0x00000010000000020000000400000000000001000000200000000001#224 10
    = some ([0x11#8, 0x22#8, 0x55#8, 0x66#8, 0x33#8, 0x44#8, 0x77#8, 0x88#8, 0xEE#8, 0xEE#8], [0#32]) := by
  decide +kernel

/-- The second trace of R121, both stages active: an operand or a stage swapped gives other bytes. -/
theorem test_flip4x1_trace :
    result (layout [[0xF0#8], [0xCC#8], [0xAA#8], [0x01#8]])
      0x00000001000000040000000100000000000001000000200000000001#224 5
    = some ([0xEC#8, 0xA8#8, 0x64#8, 0x21#8, 0xEE#8], [0#32]) := by
  decide +kernel

/-- The example of R122. -/
theorem test_flip4x2_trace :
    result (layout [[0xF0#8], [0xCC#8], [0xAA#8], [0x01#8]])
      0x00000002000000040000000100000000000001000000200000000001#224 5
    = some ([0xF8#8, 0xC8#8, 0x38#8, 0x09#8, 0xEE#8], [0#32]) := by
  decide +kernel

/-- Vectors X2, X4, X7 and X9: the response word, and no byte of memory written. -/
theorem test_xpose :
    [0x000000000000000000000000000000000000000000000155003CA502#224,
      0x00000000000000000000000000000000000000000000040F00CDAB02#224,
      0x0000000000000000000000000000000000000000000007FF00CDAB02#224,
      0x0000000000000000000000000000000000000000000001FF00CDAB02#224].map (fun cw => result (layout []) cw 1)
    = [some ([0xEE#8], [0x001EB400#32]), some ([0xEE#8], [0x00BDAC00#32]),
      some ([0xEE#8], [0x00CD0100#32]), some ([0xEE#8], [0x00576600#32])] := by
  decide +kernel

/-- Program P4 with three planes: an OFFSET of 3 skips the three leading bytes of each plane. -/
theorem test_offset :
    result (layout [[0#8, 0#8, 0#8, 0x12#8, 0x34#8, 0x56#8], [0#8, 0#8, 0#8, 0x78#8, 0x9A#8, 0xBC#8],
        [0#8, 0#8, 0#8, 0xDE#8, 0xF0#8, 0x11#8]])
      0x0000000C000000030000000300000003000001000000200000000001#224 10
    = some ([0x12#8, 0x37#8, 0x89#8, 0xDE#8, 0xF4#8, 0x56#8, 0xAB#8, 0xC0#8, 0x11#8, 0xEE#8], [0#32]) := by
  decide +kernel

/-- R33: with PP[0] = 0xFFFFFFFF and OFFSET = 2 the first byte of plane 0 is read at address 1. -/
theorem test_address_wraps :
    (Job.start ⟨0#32, 0x100#32, 2#32, 1#32⟩ 1 (put [] 0x100 [0xFF#8, 0xFF#8, 0xFF#8, 0xFF#8])).inAddr 0 0
      = 1#32 := by
  decide +kernel

/-! ## Failures (section 3), and the two cases without memory access -/

/-- The responses after one step on a machine whose memory lists nothing. -/
def answer (cw : CommandWord) : Option (List ResponseWord) :=
  match step (State.reset.present cw) with
  | .next t => if t.mem = [] then some t.responses else none
  | _ => none

/-- Vectors E1 to E10. -/
theorem test_checks_E1_to_E10 :
    [0x00000000000000000000000000000000000000000000000000000001#224,
      0xFFFFFFFFFFFFFFFB0000000000000000000000000000000000000001#224,
      0x00000000FFFFFFFFFFFFFFFF00000000000000000000000000000001#224,
      0x00000003FFFFFFFFFFFFFFFF00000000000000000000000000000001#224,
      0x0000000300000003FFFFFFFF00000000000000000000000000000001#224,
      0x0000000100000005FFFFFFFF00000000000000000000000000000001#224,
      0x00000008000000000000000500000000000000000000000000000001#224,
      0x00000007000000000000000500000000000000000000000000000001#224,
      0x0000000800000000FFFFFFF900000000000000000000000000000001#224,
      0x00000010000000070000000000000000000000000000000000000001#224].map answer
    = [some [1#32], some [1#32], some [1#32], some [2#32], some [3#32], some [5#32], some [0#32], some [3#32], some [5#32], some [0#32]] := by
  decide +kernel

/-- Vectors E11 to E20. -/
theorem test_checks_E11_to_E20 :
    [0x00000010000000070000000300000000000000000000000000000001#224,
      0x0000000C000000070000000200000000000000000000000000000001#224,
      0x00000010000000030000000100000000000000000000000000000001#224,
      0x00000009000000010000000100000000000000000000000000000001#224,
      0x00000005000000030000000100000000000000000000000000000001#224,
      0x0000000F000000040000000100000000000000000000000000000001#224,
      0x00000008800000000000000100000000000000000000000000000001#224,
      0x000000037FFFFFFF0000000100000000000000000000000000000001#224,
      0x80000000000000030000000100000000000000000000000000000001#224,
      0x7FFFFFFF000000040000000100000000000000000000000000000001#224].map answer
    = [some [5#32], some [5#32], some [5#32], some [3#32], some [3#32], some [3#32], some [2#32], some [3#32], some [1#32], some [1#32]] := by
  decide +kernel

/-- Vectors I1 to I9. -/
theorem test_illegal_words :
    [0x00000000000000000000000000000000000000000000000000000000#224,
      0x00000000000000000000000000000000000000000000000000000003#224,
      0x000000000000000000000000000000000000000000000000000000FF#224,
      0x00000002000000040000000100000000000001000000200000000101#224,
      0x00000000000000000000000000000000000000000000080000000002#224,
      0x00000000000000000000000000000000000000000000000001000002#224,
      0x000000000000000000000000000000000000000100000155003CA502#224,
      0x800000000000000000000000000000000000000000000155003CA502#224,
      0x00000000000000040000000100000000000001000000200000000000#224].map answer
    = [some [6#32], some [6#32], some [6#32], some [6#32], some [6#32], some [6#32], some [6#32], some [6#32], some [6#32]] := by
  decide +kernel

/-! ## Micro-operations -/

/-- The RangeCheck vectors of section 6, `n = 1`: three extractions past bit 8 and three up to it. -/
theorem test_extract_range :
    let c : Job := ⟨0#32, 0#32, 0#32, 1, 1, [0x1000#32]⟩
    let d : Datapath := (layout [[0xA6#8]]).datapath
    (extract c 0 8 1 d = .failed .rangeCheck d ∧ extract c 0 6 4 d = .failed .rangeCheck d ∧
      extract c 0 1 8 d = .failed .rangeCheck d) ∧
    extract c 0 7 1 d = .done (d.setV 0#16) ∧ extract c 0 4 4 d = .done (d.setV 6#16) ∧
      extract c 0 0 8 d = .done (d.setV 0xA6#16) := by
  decide +kernel

/-- R20: entries of both tables, as rules R101 and R102 list them. -/
theorem test_tables :
    tab3x1 0xA5#8 = 0x820104#24 ∧ tab3x1 0xFF#8 = 0x924924#24 ∧ tab3x1 0x01#8 = 0x000004#24 ∧
    tab3x2 0xA5#8 = 0x820410#24 ∧ tab3x2 0xFF#8 = 0xC30C30#24 ∧ tab3x2 0x06#8 = 0x000420#24 := by
  decide +kernel

/-- R145: a 12-bit field at DBIT 0 leaves its low nibble waiting, and at DBIT 4 completes two bytes. -/
theorem test_append12 :
    let d : Datapath := ⟨[], { Latches.reset with v := 0x123#16 }⟩
    let e : Datapath := append12 d
    e.mem = [(0, 0x12#8)] ∧ e.lat.cursor = ⟨1#32, 4, 0x30#8⟩ ∧
    (append12 (e.setV 0x789#16)).mem = [(0, 0x12#8), (1, 0x37#8), (2, 0x89#8)] ∧
    (append12 (e.setV 0x789#16)).lat.cursor = ⟨3#32, 0, 0#8⟩ := by
  decide +kernel

/-- R143: a partly filled accumulator is emitted, an empty one is not. -/
theorem test_flush :
    (flush ⟨[], { Latches.reset with cursor := ⟨5#32, 4, 0x30#8⟩ }⟩).mem = [(5, 0x30#8)] ∧
    flush ⟨[], Latches.reset⟩ = ⟨[], Latches.reset⟩ := by
  decide +kernel

/-- Memory keeps its canonical form: a byte written and then written back to the unlisted value. -/
theorem test_memory_canonical :
    Memory.write (Memory.write [(1, 7#8)] 0 9#8) 0 0#8 = [(1, 7#8)] := by
  decide +kernel

/-- R200: the reset input in the middle of a command. -/
theorem test_reset_input :
    let s : State := { layout planes8 with port := .busy, cmd := 5#224 }
    s.resetCore.port = .idle ∧ s.resetCore.mem = s.mem ∧ s.resetCore.cmd = 0#224 := by
  decide +kernel

/-! ## Witnesses: for each statement with hypotheses, a state and operands that meet them together -/

/-- Operands of layout M0 with length `n`. -/
def ops (n : Nat) : TransferArgs := ⟨0x2000#32, 0x100#32, 0#32, BitVec.ofNat 32 n⟩

/-- Layout M0 with the five planes of depth 16. -/
def m0 : State := layout planes16

/-- `Ready` and `Separate` as one computation. -/
def readyCheck (a : TransferArgs) (planes w : Nat) (s : State) : Bool :=
  decide (0 < a.nbytes.toInt) && decide (w = 12 → a.nbytes.toInt % 3 = 0) &&
    decide (w = 16 → a.nbytes.toInt % 2 = 0) && decide (0 < planes) &&
    decide ((Job.start a planes s.mem).allBacked s.backed)

theorem ready_of_check {a : TransferArgs} {planes w : Nat} {s : State} (h : readyCheck a planes w s = true) :
    Ready a planes w s := by
  simp only [readyCheck, Bool.and_eq_true, decide_eq_true_eq] at h
  exact ⟨⟨h.1.1.1.1, h.1.1.1.2, h.1.1.2⟩, h.1.2, h.2⟩

theorem separate_of_check {a : TransferArgs} {planes : Nat} {s : State}
    (h : decide (Job.start a planes s.mem).disjoint = true) : Separate a planes s := by
  unfold Separate
  exact of_decide_eq_true h

/-- An output that overlaps, as one computation. -/
theorem not_separate_of_check {a : TransferArgs} {planes : Nat} {s : State}
    (h : decide (Job.start a planes s.mem).disjoint = false) : ¬ Separate a planes s := by
  unfold Separate
  exact of_decide_eq_false h

/-! Encoding and ports. -/

/-- The largest and smallest counts a FLIPNX row admits. -/
theorem witness_DecodeOfEncode :
    (Instr.flipnx12 args 0x7FFFFFFF#32).wellFormed = true ∧ (Instr.flipnx1 args 0#32).wellFormed = true := by
  decide +kernel

/-- The command word XPOSE r=0xA5, s=0x3C, mask=0x55, sh=1. -/
def xposeWord : CommandWord := encodeX 0xA5#8 0x3C#8 0x55#8 1#3

theorem witness_EncodeOfDecode : decode xposeWord = .ok (.xpose 0xA5#8 0x3C#8 0x55#8 1#3) := by
  decide +kernel

/-- Each way of being illegal, at a single set bit, and the two legal forms. -/
theorem witness_DecoderFollowsOpcode :
    IllegalBits 0x101#224 ∧ IllegalBits 0x01000002#224 ∧ IllegalBits 0x0000080000000002#224 ∧
    IllegalBits 0x000000010000000000000002#224 ∧ IllegalBits 0x00#224 ∧ IllegalBits 0x03#224 ∧
    (encodeT args 0#32 0#32).extractLsb 31 0 = 1#32 ∧
    (xposeWord.extractLsb 7 0 = 0x02#8 ∧ xposeWord.extractLsb 31 24 = 0#8 ∧
      xposeWord.extractLsb 63 43 = 0#21 ∧ xposeWord.extractLsb 223 64 = 0#160) := by
  unfold IllegalBits
  exact ⟨by decide +kernel, by decide +kernel, by decide +kernel, by decide +kernel, by decide +kernel,
    by decide +kernel, by decide +kernel, by decide +kernel⟩

theorem presented_present (s : State) (cw : CommandWord) : Presented (s.present cw) cw s.commands := ⟨rfl, rfl⟩

theorem witness_StepRunsDecodedCommand :
    (Presented (State.reset.present xposeWord) xposeWord [] ∧
      decode xposeWord = .ok (.xpose 0xA5#8 0x3C#8 0x55#8 1#3)) ∧
    ((⟨.busy, xposeWord, Latches.reset, [], [], [], [], 0⟩ : State).port = .busy ∧
      decode (⟨.busy, xposeWord, Latches.reset, [], [], [], [], 0⟩ : State).cmd
        = .ok (.xpose 0xA5#8 0x3C#8 0x55#8 1#3)) :=
  ⟨⟨presented_present _ _, witness_EncodeOfDecode⟩, rfl, witness_EncodeOfDecode⟩

theorem witness_IdleCoreWaits : State.reset.port = .idle ∧ State.reset.commands = [] := ⟨rfl, rfl⟩

theorem witness_OneResponsePerCommand : Presented (State.reset.present xposeWord) xposeWord [] :=
  presented_present _ _

/-- The refusal side: FLIP3X1 with `n = 1` where everything below the last output byte is backed is refused, and
where that byte is backed too it is answered. -/
theorem witness_OneResponsePerCommand_refused :
    [[⟨0#32, 0x2002⟩], [⟨0#32, 0x2003⟩]].map (fun backed : List Region =>
      match step ({ m0 with backed := backed }.present (encode (.flip3x1 (ops 1)))) with
      | .refused .unbackedAddress => (true, [])
      | .next t => (false, t.responses)
      | _ => (false, []))
    = [(true, []), (false, [0#32])] := by
  decide +kernel

/-- A step that delivers one response word. -/
theorem witness_RangeCheckNeverDelivered :
    ∃ t, step (State.reset.present xposeWord) = .next t ∧
      t.responses = (State.reset.present xposeWord).responses ++ [0x001EB400#32] := by
  rw [step, show (State.reset.present xposeWord).accept
    = some { State.reset with port := .busy, cmd := xposeWord } from rfl]
  simp only [witness_EncodeOfDecode]
  exact ⟨_, rfl, by decide +kernel⟩

theorem witness_StepKeepsWellFormed :
    (State.reset.present xposeWord).wf ∧ ∃ t, step (State.reset.present xposeWord) = .next t :=
  ⟨⟨by decide +kernel, by decide +kernel, by decide +kernel⟩,
    witness_RangeCheckNeverDelivered.imp fun _ h => h.1⟩

/-! Failures: each clause at the edge of its range. -/

/-- A TRANSCODE word with these lengths, plane counts and depths. -/
def word (n np bps : BitVec 32) : CommandWord := encodeT ⟨0#32, 0#32, 0#32, n⟩ np bps

/-- The three signed operands of a TRANSCODE word, presented to a core that has just been reset. -/
def operands (n np bps : BitVec 32) : BitVec 32 × Int × Int × Int :=
  ((word n np bps).extractLsb 31 0, ((word n np bps).extractLsb 159 128).toInt,
    ((word n np bps).extractLsb 191 160).toInt, ((word n np bps).extractLsb 223 192).toInt)

theorem witness_presented (n np bps : BitVec 32) :
    Presented (State.reset.present (word n np bps)) (word n np bps) [] := presented_present _ _

/-- BPS = 0, the least number, 17 and the largest. -/
theorem witness_BadDepthIsInvalidBitDepth :
    [operands 0#32 0#32 0#32, operands 0#32 0#32 0x80000000#32, operands 0#32 0#32 17#32,
      operands 0#32 0#32 0x7FFFFFFF#32]
    = [(1#32, 0, 0, 0), (1#32, 0, 0, -2147483648), (1#32, 0, 0, 17), (1#32, 0, 0, 2147483647)] := by
  decide +kernel

/-- NPLANES = -1 and the least number, at BPS = 1, 3 and 16. -/
theorem witness_NegativeCountIsInvalidPlaneCount :
    [operands 0#32 0xFFFFFFFF#32 1#32, operands 0#32 0xFFFFFFFF#32 3#32, operands 0#32 0x80000000#32 16#32]
    = [(1#32, 0, -1, 1), (1#32, 0, -1, 3), (1#32, 0, -2147483648, 16)] := by
  decide +kernel

/-- BPS = 3 and 15 are outside D, at NPLANES = 0, 3 and the largest. -/
theorem witness_OtherDepthIsUnsupported :
    [operands 0#32 0#32 3#32, operands 0#32 3#32 15#32, operands 0#32 0x7FFFFFFF#32 3#32]
      = [(1#32, 0, 0, 3), (1#32, 0, 3, 15), (1#32, 0, 2147483647, 3)] ∧
    ¬ InDepthSet 3 ∧ ¬ InDepthSet 15 := by
  unfold InDepthSet
  decide +kernel

/-- NBYTES = -1; 1 and 2 at depth 12; 1 at depth 16. -/
theorem witness_BadLengthIsInvalidArgument :
    [operands 0xFFFFFFFF#32 0#32 1#32, operands 1#32 0#32 12#32, operands 2#32 4#32 12#32,
      operands 1#32 3#32 16#32]
      = [(1#32, -1, 0, 1), (1#32, 1, 0, 12), (1#32, 2, 4, 12), (1#32, 1, 3, 16)] ∧
    InDepthSet 1 ∧ InDepthSet 12 ∧ InDepthSet 16 ∧ (1 : Int) % 3 ≠ 0 ∧ (2 : Int) % 3 ≠ 0 ∧
    (1 : Int) % 2 ≠ 0 := by
  unfold InDepthSet
  decide +kernel

theorem witness_IllegalWordIsIllegalCommand :
    Presented (State.reset.present 0x101#224) 0x101#224 [] ∧ IllegalBits 0x101#224 :=
  ⟨presented_present _ _, witness_DecoderFollowsOpcode.1⟩

/-- NBYTES = 0 at both ends of D, with no plane and with the most; at BPS = 3; with NPLANES = -1 at BPS = 1 and
16. -/
theorem witness_ZeroLengthIsOk :
    [operands 0#32 0#32 1#32, operands 0#32 0x7FFFFFFF#32 16#32, operands 0#32 0#32 3#32,
      operands 0#32 0xFFFFFFFF#32 1#32, operands 0#32 0xFFFFFFFF#32 16#32]
      = [(1#32, 0, 0, 1), (1#32, 0, 2147483647, 16), (1#32, 0, 0, 3), (1#32, 0, -1, 1), (1#32, 0, -1, 16)] ∧
    InDepthSet 1 ∧ InDepthSet 16 := by
  unfold InDepthSet
  decide +kernel

/-- NPLANES = 0 with the least lengths depths 1, 12 and 16 admit that are not 0. -/
theorem witness_ZeroPlanesIsOk :
    [operands 1#32 0#32 1#32, operands 3#32 0#32 12#32, operands 2#32 0#32 16#32]
      = [(1#32, 1, 0, 1), (1#32, 3, 0, 12), (1#32, 2, 0, 16)] ∧
    InDepthSet 1 ∧ InDepthSet 12 ∧ InDepthSet 16 ∧ (3 : Int) % 3 = 0 ∧ (2 : Int) % 2 = 0 := by
  unfold InDepthSet
  decide +kernel

/-- A platform that backs everything below the last of the three output bytes. -/
theorem witness_UnbackedAddressIsRefused :
    routineOf (.flip3x1 (ops 1)) = some (ops 1, 3, 1) ∧ Admitted 1 (ops 1).nbytes.toInt ∧ 0 < 3 ∧
    ¬ (Job.start (ops 1) 3 m0.mem).allBacked [⟨0#32, 0x2002⟩] :=
  ⟨rfl, by unfold Admitted; decide +kernel, by decide, by decide +kernel⟩

/-! Routines. -/

/-! The smallest length of each depth. -/

theorem witness_Flip3x1Bytes :
    Ready (ops 1) 3 1 m0 ∧ Separate (ops 1) 3 m0 :=
  ⟨ready_of_check (by decide +kernel), separate_of_check (by decide +kernel)⟩

theorem witness_Flip3x2Bytes :
    Ready (ops 1) 3 2 m0 ∧ Separate (ops 1) 3 m0 :=
  ⟨ready_of_check (by decide +kernel), separate_of_check (by decide +kernel)⟩

theorem witness_Flip3x4Bytes :
    Ready (ops 1) 3 4 m0 ∧ Separate (ops 1) 3 m0 :=
  ⟨ready_of_check (by decide +kernel), separate_of_check (by decide +kernel)⟩

theorem witness_Flip3x8Bytes :
    Ready (ops 1) 3 8 m0 ∧ Separate (ops 1) 3 m0 :=
  ⟨ready_of_check (by decide +kernel), separate_of_check (by decide +kernel)⟩

theorem witness_Flip3x12Bytes :
    Ready (ops 3) 3 12 m0 ∧ Separate (ops 3) 3 m0 :=
  ⟨ready_of_check (by decide +kernel), separate_of_check (by decide +kernel)⟩

theorem witness_Flip3x16Bytes :
    Ready (ops 2) 3 16 m0 ∧ Separate (ops 2) 3 m0 :=
  ⟨ready_of_check (by decide +kernel), separate_of_check (by decide +kernel)⟩

theorem witness_Flip4x1Bytes :
    Ready (ops 1) 4 1 m0 ∧ Separate (ops 1) 4 m0 :=
  ⟨ready_of_check (by decide +kernel), separate_of_check (by decide +kernel)⟩

theorem witness_Flip4x2Bytes :
    Ready (ops 1) 4 2 m0 ∧ Separate (ops 1) 4 m0 :=
  ⟨ready_of_check (by decide +kernel), separate_of_check (by decide +kernel)⟩

theorem witness_Flip4x4Bytes :
    Ready (ops 1) 4 4 m0 ∧ Separate (ops 1) 4 m0 :=
  ⟨ready_of_check (by decide +kernel), separate_of_check (by decide +kernel)⟩

theorem witness_Flip4x8Bytes :
    Ready (ops 1) 4 8 m0 ∧ Separate (ops 1) 4 m0 :=
  ⟨ready_of_check (by decide +kernel), separate_of_check (by decide +kernel)⟩

theorem witness_Flip4x12Bytes :
    Ready (ops 3) 4 12 m0 ∧ Separate (ops 3) 4 m0 :=
  ⟨ready_of_check (by decide +kernel), separate_of_check (by decide +kernel)⟩

theorem witness_Flip4x16Bytes :
    Ready (ops 2) 4 16 m0 ∧ Separate (ops 2) 4 m0 :=
  ⟨ready_of_check (by decide +kernel), separate_of_check (by decide +kernel)⟩

theorem witness_RoutinesWriteOutputOnly :
    routineOf (.flip3x1 (ops 1)) = some (ops 1, 3, 1) ∧ Ready (ops 1) 3 1 m0 ∧ Separate (ops 1) 3 m0 :=
  ⟨rfl, witness_Flip3x1Bytes⟩

/-- A generic routine at five planes. -/
theorem witness_RoutinesWriteReferenceStream :
    routineOf (.flipnx12 (ops 3) 5#32) = some (ops 3, 5, 12) ∧ Ready (ops 3) 5 12 m0 ∧ Separate (ops 3) 5 m0 :=
  ⟨rfl, ready_of_check (by decide +kernel), separate_of_check (by decide +kernel)⟩

/-- An output that starts one byte below plane 1, and one that ends on the first byte of the table. -/
theorem witness_OverlappedOutputIsFree :
    routineOf (.flip3x1 ⟨0x10FF#32, 0x100#32, 0#32, 1#32⟩) = some (⟨0x10FF#32, 0x100#32, 0#32, 1#32⟩, 3, 1) ∧
    (Ready ⟨0x10FF#32, 0x100#32, 0#32, 1#32⟩ 3 1 m0 ∧ ¬ Separate ⟨0x10FF#32, 0x100#32, 0#32, 1#32⟩ 3 m0 ∧
      3 * (⟨0x10FF#32, 0x100#32, 0#32, 1#32⟩ : TransferArgs).nbytes.toInt.toNat ≤ 2 ^ 32) ∧
    Ready ⟨0xFE#32, 0x100#32, 0#32, 1#32⟩ 3 1 m0 ∧ ¬ Separate ⟨0xFE#32, 0x100#32, 0#32, 1#32⟩ 3 m0 :=
  ⟨rfl, ⟨ready_of_check (by decide +kernel), not_separate_of_check (by decide +kernel), by decide +kernel⟩,
    ready_of_check (by decide +kernel), not_separate_of_check (by decide +kernel)⟩

/-- The first and the last entry of a table of three. -/
theorem witness_PlaneTableIsLittleEndian : 0 < 3 ∧ 2 < 3 := by decide

/-- A second state with another output byte and other latches, the same table and planes. -/
def m1 : State :=
  { m0 with mem := Memory.write m0.mem 0x2000 0x77#8, lat := { m0.lat with v := 5#16 }, freeIx := 9 }

theorem witness_RoutinesArePure :
    routineOf (.flip3x1 (ops 1)) = some (ops 1, 3, 1) ∧ Ready (ops 1) 3 1 m0 ∧ Separate (ops 1) 3 m0 ∧
    m1.backed = m0.backed ∧
    (∀ j, j < 4 * 3 → Memory.read m1.mem ((Job.start (ops 1) 3 m0.mem).tableAddr j).toNat
      = Memory.read m0.mem ((Job.start (ops 1) 3 m0.mem).tableAddr j).toNat) ∧
    (∀ p, p < 3 → ∀ k, k < (Job.start (ops 1) 3 m0.mem).n →
      inByte m1.mem (Job.start (ops 1) 3 m0.mem) p k = inByte m0.mem (Job.start (ops 1) 3 m0.mem) p k) ∧
    m1.mem ≠ m0.mem :=
  ⟨rfl, witness_Flip3x1Bytes.1, witness_Flip3x1Bytes.2, rfl, by decide +kernel, by decide +kernel,
    by decide +kernel⟩

/-! XPOSE and the tables. -/

/-- Both ends of SHIFT and of the bit positions, and a masked bit on each side of the edge of the byte. -/
theorem witness_XposeExchangesBits :
    0 ≤ 7 ∧ 7 ≤ 7 ∧ (0xFF#8).getLsbD 0 = true ∧ 0 + 7 ≤ 7 ∧ (0xFF#8).getLsbD 1 = true ∧ ¬ 1 + 7 ≤ 7 := by
  decide

theorem witness_XposeIsInvolution : 4 ≤ 7 ∧ ∀ i, i < 8 → 8 ≤ i + 4 → (0x0F#8).getLsbD i = false := by
  decide

theorem witness_XposeKeepsUnmaskedBits : 0 ≤ 7 ∧ 7 ≤ 7 := by decide

theorem witness_Tab3x1Relocates : 0 < 24 ∧ 0 % 3 ≠ 2 ∧ 23 < 24 ∧ 23 % 3 = 2 := by decide

theorem witness_Tab3x2Relocates : 3 < 24 ∧ ¬ 4 ≤ 3 % 6 ∧ 4 < 24 ∧ 4 ≤ 4 % 6 := by decide

/-! Families. -/

theorem witness_Fixed3IsReferenceStream :
    (Instr.flip3x12 (ops 3), 12) ∈ [(Instr.flip3x1 (ops 3), 1), (.flip3x2 (ops 3), 2), (.flip3x4 (ops 3), 4),
      (.flip3x8 (ops 3), 8), (.flip3x12 (ops 3), 12), (.flip3x16 (ops 3), 16)] ∧
    Ready (ops 3) 3 12 m0 ∧ Separate (ops 3) 3 m0 :=
  ⟨by simp, witness_Flip3x12Bytes⟩

theorem witness_Fixed3LatchFrame :
    routineOf (.flip3x16 (ops 2)) = some (ops 2, 3, 16) ∧
    Instr.flip3x16 (ops 2) ∈ [Instr.flip3x1 (ops 2), .flip3x2 (ops 2), .flip3x4 (ops 2), .flip3x8 (ops 2),
      .flip3x12 (ops 2), .flip3x16 (ops 2)] ∧ Ready (ops 2) 3 16 m0 :=
  ⟨rfl, by simp, witness_Flip3x16Bytes.1⟩

theorem witness_Fixed4IsReferenceStream :
    (Instr.flip4x1 (ops 1), 1) ∈ [(Instr.flip4x1 (ops 1), 1), (.flip4x2 (ops 1), 2), (.flip4x4 (ops 1), 4),
      (.flip4x8 (ops 1), 8), (.flip4x12 (ops 1), 12), (.flip4x16 (ops 1), 16)] ∧
    Ready (ops 1) 4 1 m0 ∧ Separate (ops 1) 4 m0 :=
  ⟨by simp, witness_Flip4x1Bytes⟩

/-- A routine that uses R, S and T, and one that must leave them. -/
theorem witness_Fixed4LatchFrame :
    (routineOf (.flip4x2 (ops 1)) = some (ops 1, 4, 2) ∧ Ready (ops 1) 4 2 m0) ∧
    (routineOf (.flip4x4 (ops 1)) = some (ops 1, 4, 4) ∧ Ready (ops 1) 4 4 m0) ∧
    (∀ i ∈ [Instr.flip4x2 (ops 1), .flip4x4 (ops 1)], i ∈ [Instr.flip4x1 (ops 1), .flip4x2 (ops 1),
      .flip4x4 (ops 1), .flip4x8 (ops 1), .flip4x12 (ops 1), .flip4x16 (ops 1)]) ∧
    Instr.flip4x4 (ops 1) ≠ .flip4x1 (ops 1) ∧ Instr.flip4x4 (ops 1) ≠ .flip4x2 (ops 1) :=
  ⟨⟨rfl, witness_Flip4x2Bytes.1⟩, ⟨rfl, witness_Flip4x4Bytes.1⟩, by simp, by simp, by simp⟩

/-- At `n = 1`: the last fields that lie in the plane and the first that do not. -/
theorem witness_ExtractGivesSample :
    (7 % 1 = 0 ∧ 7 + 1 ≤ 8 * 1 ∧ 8 % 1 = 0 ∧ 8 * 1 < 8 + 1) ∧
    (0 % 8 = 0 ∧ 0 + 8 ≤ 8 * 1 ∧ 8 % 8 = 0 ∧ 8 * 1 < 8 + 8) := by decide

/-- At `n = 3`: the first and the last field. -/
theorem witness_Extract12GivesSample : (0 % 12 = 0 ∧ 0 + 12 ≤ 8 * 3) ∧ 12 % 12 = 0 ∧ 12 + 12 ≤ 8 * 3 := by
  decide

theorem witness_PackerIsReferenceStream :
    (Instr.flipnx4 (ops 1) 5#32, 4) ∈ [(Instr.flipnx1 (ops 1) 5#32, 1), (.flipnx2 (ops 1) 5#32, 2),
      (.flipnx4 (ops 1) 5#32, 4), (.flipnx8 (ops 1) 5#32, 8)] ∧
    Ready (ops 1) (planeCount 5#32) 4 m0 ∧ Separate (ops 1) (planeCount 5#32) m0 :=
  ⟨by simp, ready_of_check (by decide +kernel), separate_of_check (by decide +kernel)⟩

theorem witness_Flipnx12IsReferenceStream :
    Ready (ops 3) (planeCount 5#32) 12 m0 ∧ Separate (ops 3) (planeCount 5#32) m0 :=
  ⟨ready_of_check (by decide +kernel), separate_of_check (by decide +kernel)⟩

theorem witness_Flipnx8Bytes :
    Ready (ops 1) (planeCount 5#32) 8 m0 ∧ Separate (ops 1) (planeCount 5#32) m0 :=
  ⟨ready_of_check (by decide +kernel), separate_of_check (by decide +kernel)⟩

theorem witness_Flipnx16Bytes :
    Ready (ops 2) (planeCount 5#32) 16 m0 ∧ Separate (ops 2) (planeCount 5#32) m0 :=
  ⟨ready_of_check (by decide +kernel), separate_of_check (by decide +kernel)⟩

theorem witness_OnePlaneIsCopied :
    (Instr.flipnx16 (ops 2) 1#32, 16) ∈ [(Instr.flipnx1 (ops 2) 1#32, 1), (.flipnx2 (ops 2) 1#32, 2),
      (.flipnx4 (ops 2) 1#32, 4), (.flipnx8 (ops 2) 1#32, 8), (.flipnx12 (ops 2) 1#32, 12),
      (.flipnx16 (ops 2) 1#32, 16)] ∧ Ready (ops 2) 1 16 m0 ∧ Separate (ops 2) 1 m0 :=
  ⟨by simp, ready_of_check (by decide +kernel), separate_of_check (by decide +kernel)⟩

theorem witness_FixedEqualsGeneric :
    (Instr.flip4x8 (ops 1), Instr.flipnx8 (ops 1) 4#32, 4, 8) ∈
      [(Instr.flip3x1 (ops 1), Instr.flipnx1 (ops 1) 3#32, 3, 1),
       (.flip3x2 (ops 1), .flipnx2 (ops 1) 3#32, 3, 2), (.flip3x4 (ops 1), .flipnx4 (ops 1) 3#32, 3, 4),
       (.flip3x8 (ops 1), .flipnx8 (ops 1) 3#32, 3, 8), (.flip3x12 (ops 1), .flipnx12 (ops 1) 3#32, 3, 12),
       (.flip3x16 (ops 1), .flipnx16 (ops 1) 3#32, 3, 16), (.flip4x1 (ops 1), .flipnx1 (ops 1) 4#32, 4, 1),
       (.flip4x2 (ops 1), .flipnx2 (ops 1) 4#32, 4, 2), (.flip4x4 (ops 1), .flipnx4 (ops 1) 4#32, 4, 4),
       (.flip4x8 (ops 1), .flipnx8 (ops 1) 4#32, 4, 8), (.flip4x12 (ops 1), .flipnx12 (ops 1) 4#32, 4, 12),
       (.flip4x16 (ops 1), .flipnx16 (ops 1) 4#32, 4, 16)] ∧ Ready (ops 1) 4 8 m0 ∧ Separate (ops 1) 4 m0 :=
  ⟨by simp, witness_Flip4x8Bytes⟩

theorem witness_CursorEndsPastOutput :
    (Instr.flipnx12 (ops 3) 5#32, 12) ∈ [(Instr.flipnx1 (ops 3) 5#32, 1), (.flipnx2 (ops 3) 5#32, 2),
      (.flipnx4 (ops 3) 5#32, 4), (.flipnx8 (ops 3) 5#32, 8), (.flipnx12 (ops 3) 5#32, 12)] ∧
    Ready (ops 3) (planeCount 5#32) 12 m0 :=
  ⟨by simp, witness_Flipnx12IsReferenceStream.1⟩

theorem witness_GenericLatchFrame :
    (Instr.flipnx16 (ops 2) 5#32, 16) ∈ [(Instr.flipnx1 (ops 2) 5#32, 1), (.flipnx2 (ops 2) 5#32, 2),
      (.flipnx4 (ops 2) 5#32, 4), (.flipnx8 (ops 2) 5#32, 8), (.flipnx12 (ops 2) 5#32, 12),
      (.flipnx16 (ops 2) 5#32, 16)] ∧ Ready (ops 2) (planeCount 5#32) 16 m0 :=
  ⟨by simp, witness_Flipnx16Bytes.1⟩

end Sys2Proof.Tests
end

section
/-! What a step is, by what the core accepts and what that decodes to; and the statements about the ports and
about reset. -/

namespace Sys2Proof.Machine

theorem step_of_accept_none {s : State} (h : s.accept = none) : step s = .next s := by
  simp only [step, h]

theorem step_of_decode_ok {s s' : State} {i : Instr} (h : s.accept = some s') (hd : decode s'.cmd = .ok i) :
    step s = exec i s' := by
  simp only [step, h, hd]

theorem step_of_decode_error {s s' : State} {st : Status} (h : s.accept = some s')
    (hd : decode s'.cmd = .error st) : step s = .next (s'.fail st) := by
  simp only [step, h, hd]

/-- Settles O5: the two ways to have a command latched. -/
theorem stepRunsDecodedCommand : Obligations.StepRunsDecodedCommand := by
  refine ⟨fun s cw rest i hpres hdec => ?_, fun s i hport hdec => ?_⟩
  · obtain ⟨hport, hcommands⟩ := hpres
    exact step_of_decode_ok (State.accept_idle_some hport hcommands) hdec
  · exact step_of_decode_ok (State.accept_busy hport) hdec

/-- Settles O6: an IDLE core with nothing presented accepts nothing. -/
theorem idleCoreWaits : Obligations.IdleCoreWaits := fun _ hport hcommands =>
  step_of_accept_none (State.accept_idle_none hport hcommands)

/-- Settles O9: the ports at reset, and the wait that follows from them. -/
theorem resetIsIdle : Obligations.ResetIsIdle :=
  ⟨rfl, rfl, rfl, rfl, idleCoreWaits State.reset rfl rfl⟩

/-- Settles O11: memory lists nothing, and the cursor is empty. -/
theorem resetIsWellFormed : Obligations.ResetIsWellFormed :=
  ⟨Memory.reset_wf, Nat.zero_lt_succ 7, fun _ _ => BitVec.getLsbD_zero⟩

end Sys2Proof.Machine
end

section
/-! The invariant as the datapath sees it, and steps of a routine to which no latch matters. -/

namespace Sys2Proof.Machine

/-! Counted loops. -/

/-- What every iteration keeps, the loop keeps. -/
theorem forUp_keeps {σ α : Type} (view : σ → α) {f : Nat → σ → σ} {n : Nat} {x : σ}
    (hs : ∀ k y, view (f k y) = view y) : view (forUp n f x) = view x :=
  forUp_induction (fun _ y => view y = view x) rfl fun k _ y hy => (hs k y).trans hy

/-- Two runs of a loop stay related if every iteration keeps them so. -/
theorem forUp_rel {σ : Type} {R : σ → σ → Prop} {f : Nat → σ → σ} {n : Nat} {x y : σ} (h : R x y)
    (hs : ∀ k x y, R x y → R (f k x) (f k y)) : R (forUp n f x) (forUp n f y) := by
  induction n with
  | zero => exact h
  | succ k ih => exact hs k _ _ ih

/-- A loop whose iterations do not fail is the plain loop. -/
theorem forUpFlow_eq_forUp {f : Nat → Datapath → Flow} {g : Nat → Datapath → Datapath} {n : Nat}
    (hs : ∀ k, k < n → ∀ y, f k y = .done (g k y)) (x : Datapath) :
    forUpFlow n f x = .done (forUp n g x) := by
  induction n with
  | zero => rfl
  | succ k ih =>
    rw [forUpFlow, ih fun j hj => hs j (Nat.lt_succ_of_lt hj)]
    exact hs k (Nat.lt_succ_self k) _

/-! The invariant. -/

/-- `State.wf` as a routine sees it: it speaks of memory and the bit cursor alone. -/
def Datapath.wf (d : Datapath) : Prop :=
  Memory.wf d.mem ∧ d.lat.cursor.dbit < 8 ∧
    ∀ k, k < 8 - d.lat.cursor.dbit → d.lat.cursor.acc.getLsbD k = false

theorem State.wf_iff_datapath (s : State) : s.wf ↔ s.datapath.wf := Iff.rfl

theorem Datapath.wf.of_eq {d e : Datapath} (h : d.wf) (hm : e.mem = d.mem)
    (hc : e.lat.cursor = d.lat.cursor) : e.wf := by
  unfold Datapath.wf
  rw [hm, hc]
  exact h

theorem Datapath.memWrite_mem_wf {d : Datapath} (h : Memory.wf d.mem) (x : Addr) (v : Byte) :
    Memory.wf (d.memWrite x v).mem := Memory.write_wf h x.isLt v

theorem Datapath.wf.memWrite {d : Datapath} (h : d.wf) (x : Addr) (v : Byte) : (d.memWrite x v).wf :=
  ⟨Datapath.memWrite_mem_wf h.1 x v, h.2⟩

theorem Datapath.wf.emit {d : Datapath} (h : d.wf) (c : Job) (j : Nat) (vs : List Byte) :
    (Datapath.emit c j vs d).wf := by
  induction vs generalizing j d with
  | nil => exact h
  | cons v vs ih => exact ih (h.memWrite _ v) (j + 1)

/-- An empty cursor is well formed. -/
theorem Datapath.wf_setCursor_empty {d : Datapath} (h : Memory.wf d.mem) (x : Addr) :
    (d.setCursor ⟨x, 0, 0#8⟩).wf := ⟨h, Nat.zero_lt_succ 7, fun k _ => by simp⟩

/-! What depends on memory alone. -/

theorem Datapath.plane_congr {d e : Datapath} (h : d.mem = e.mem) (c : Job) (p i : Nat) :
    d.plane c p i = e.plane c p i := by
  simp only [Datapath.plane, Datapath.memRead, h]

theorem Datapath.triple_congr {d e : Datapath} (h : d.mem = e.mem) (c : Job) (p g : Nat) :
    d.triple c p g = e.triple c p g := by
  simp only [Datapath.triple, Datapath.plane_congr h]

theorem Datapath.emit_mem_congr {d e : Datapath} (h : d.mem = e.mem) (c : Job) (j : Nat) (vs : List Byte) :
    (Datapath.emit c j vs d).mem = (Datapath.emit c j vs e).mem := by
  induction vs generalizing j d e with
  | nil => exact h
  | cons v vs ih => exact ih (by rw [Datapath.out_mem, Datapath.out_mem, h]) (j + 1)

/-- A step of a routine to which no latch matters: the memory it leaves depends on memory alone, and it keeps the
invariant. -/
structure LatchFree (f : Datapath → Datapath) : Prop where
  mem_congr : ∀ {d e : Datapath}, d.mem = e.mem → (f d).mem = (f e).mem
  keeps_wf : ∀ {d : Datapath}, d.wf → (f d).wf

theorem LatchFree.comp {f g : Datapath → Datapath} (hf : LatchFree f) (hg : LatchFree g) :
    LatchFree fun d => f (g d) :=
  ⟨fun h => hf.mem_congr (hg.mem_congr h), fun h => hf.keeps_wf (hg.keeps_wf h)⟩

theorem LatchFree.loop {f : Nat → Datapath → Datapath} (hf : ∀ k, LatchFree (f k)) (n : Nat) :
    LatchFree (forUp n f) where
  mem_congr := fun h => forUp_rel (R := fun d e : Datapath => d.mem = e.mem) h fun k _ _ => (hf k).mem_congr
  keeps_wf := fun h => forUp_induction (fun _ d => Datapath.wf d) h fun k _ _ => (hf k).keeps_wf

/-- Loading latches other than the bit cursor. -/
theorem LatchFree.of_load {f : Datapath → Datapath} (hm : ∀ d, (f d).mem = d.mem)
    (hc : ∀ d, (f d).lat.cursor = d.lat.cursor) : LatchFree f :=
  ⟨fun h => by rw [hm, hm, h], fun h => h.of_eq (hm _) (hc _)⟩

/-- Writing output bytes that depend on memory alone, after loading latches other than the bit cursor. -/
theorem LatchFree.of_emit {f load : Datapath → Datapath} {c : Job} {j : Nat} {bytes : Datapath → List Byte}
    (hf : ∀ d, f d = Datapath.emit c j (bytes d) (load d))
    (hb : ∀ {d e : Datapath}, d.mem = e.mem → bytes d = bytes e)
    (hm : ∀ d, (load d).mem = d.mem) (hc : ∀ d, (load d).lat.cursor = d.lat.cursor) : LatchFree f where
  mem_congr := fun {d e} h => by
    rw [hf, hf, hb h]
    exact Datapath.emit_mem_congr (by rw [hm, hm, h]) c j _
  keeps_wf := fun {d} h => by
    rw [hf]
    exact (h.of_eq (hm d) (hc d)).emit c j _

end Sys2Proof.Machine
end

section
/-! The groups of the fixed families (R103 to R108, R121 to R126) as steps to which no latch matters: each loads
latches from memory, computes its bytes from what it has just loaded and writes them. -/

namespace Sys2Proof.Machine

/-! The 3-plane groups. -/

theorem flip3x1Group_latchFree (c : Job) (i : Nat) : LatchFree (flip3x1Group c i) :=
  .of_emit (fun _ => rfl) (fun h => by simp only [Datapath.plane_congr h]) (fun _ => rfl) fun _ => rfl

theorem flip3x2Group_latchFree (c : Job) (i : Nat) : LatchFree (flip3x2Group c i) :=
  .of_emit (fun _ => rfl) (fun h => by simp only [Datapath.plane_congr h]) (fun _ => rfl) fun _ => rfl

theorem flip3x4Group_latchFree (c : Job) (i : Nat) : LatchFree (flip3x4Group c i) :=
  .of_emit (fun _ => rfl) (fun h => by simp only [Datapath.plane_congr h]) (fun _ => rfl) fun _ => rfl

theorem flip3x8Group_latchFree (c : Job) (i : Nat) : LatchFree (flip3x8Group c i) :=
  .of_emit (fun _ => rfl) (fun h => by simp only [Datapath.plane_congr h]) (fun _ => rfl) fun _ => rfl

theorem flip3x12Group_latchFree (c : Job) (g : Nat) : LatchFree (flip3x12Group c g) :=
  .of_emit (fun _ => rfl) (fun h => by simp only [Datapath.triple_congr h]) (fun _ => rfl) fun _ => rfl

theorem copySample16_latchFree (c : Job) (j k p : Nat) : LatchFree (copySample16 c j k p) :=
  .of_emit (fun _ => rfl) (fun h => by simp only [Datapath.plane_congr h]) (fun _ => rfl) fun _ => rfl

theorem flip3x16Group_latchFree (c : Job) (k : Nat) : LatchFree (flip3x16Group c k) :=
  (LatchFree.loop (fun p => copySample16_latchFree c (6 * k + 2 * p) k p) 3).comp
    (.of_load (f := (Datapath.atIndex · (2 * k))) (fun _ => rfl) fun _ => rfl)

/-! The 4-plane groups. -/

/-- Engine latches that agree in B1 to B4. -/
structure SameB (x y : EngineRegs) : Prop where
  b1 : x.b1 = y.b1
  b2 : x.b2 = y.b2
  b3 : x.b3 = y.b3
  b4 : x.b4 = y.b4

theorem loadB_sameB {d e : Datapath} (h : d.mem = e.mem) (c : Job) (i : Nat) :
    SameB (loadB c i d).lat.eng (loadB c i e).lat.eng :=
  ⟨Datapath.plane_congr h .., Datapath.plane_congr h .., Datapath.plane_congr h .., Datapath.plane_congr h ..⟩

theorem nibbleAssembly_congr {x y : EngineRegs} (h : SameB x y) : nibbleAssembly x = nibbleAssembly y := by
  simp only [nibbleAssembly, h.b1, h.b2, h.b3, h.b4]

theorem engineBytes_congr {x y : EngineRegs} (h : SameB x y) : engineBytes x = engineBytes y := by
  simp only [engineBytes, h.b1, h.b2, h.b3, h.b4]

section Stages
variable {d e : Datapath} (h : SameB d.lat.eng e.lat.eng) (mask : Byte) (shift : Nat)
include h

theorem xposeB12_sameB : SameB (xposeB12 mask shift d).lat.eng (xposeB12 mask shift e).lat.eng := by
  constructor <;> simp only [xposeB12, Datapath.setEng_eng, h.b1, h.b2, h.b3, h.b4]

theorem xposeB34_sameB : SameB (xposeB34 mask shift d).lat.eng (xposeB34 mask shift e).lat.eng := by
  constructor <;> simp only [xposeB34, Datapath.setEng_eng, h.b1, h.b2, h.b3, h.b4]

theorem xposeB13_sameB : SameB (xposeB13 mask shift d).lat.eng (xposeB13 mask shift e).lat.eng := by
  constructor <;> simp only [xposeB13, Datapath.setEng_eng, h.b1, h.b2, h.b3, h.b4]

theorem xposeB24_sameB : SameB (xposeB24 mask shift d).lat.eng (xposeB24 mask shift e).lat.eng := by
  constructor <;> simp only [xposeB24, Datapath.setEng_eng, h.b1, h.b2, h.b3, h.b4]

theorem transpose4x1_sameB : SameB (transpose4x1 d).lat.eng (transpose4x1 e).lat.eng :=
  xposeB24_sameB (xposeB13_sameB (xposeB34_sameB (xposeB12_sameB h _ _) _ _) _ _) _ _

theorem transpose4x2_sameB : SameB (transpose4x2 d).lat.eng (transpose4x2 e).lat.eng :=
  xposeB34_sameB (xposeB12_sameB (xposeB24_sameB (xposeB13_sameB h _ _) _ _) _ _) _ _

end Stages

theorem flip4x1Group_latchFree (c : Job) (i : Nat) : LatchFree (flip4x1Group c i) :=
  .of_emit (fun _ => rfl) (fun h => nibbleAssembly_congr (transpose4x1_sameB (loadB_sameB h c i)))
    (fun _ => rfl) fun _ => rfl

theorem flip4x2Group_latchFree (c : Job) (i : Nat) : LatchFree (flip4x2Group c i) :=
  .of_emit (fun _ => rfl) (fun h => engineBytes_congr (transpose4x2_sameB (loadB_sameB h c i)))
    (fun _ => rfl) fun _ => rfl

theorem flip4x4Group_latchFree (c : Job) (i : Nat) : LatchFree (flip4x4Group c i) :=
  .of_emit (fun _ => rfl) (fun h => nibbleAssembly_congr (loadB_sameB h c i)) (fun _ => rfl) fun _ => rfl

theorem flip4x8Group_latchFree (c : Job) (i : Nat) : LatchFree (flip4x8Group c i) :=
  .of_emit (fun _ => rfl) (fun h => engineBytes_congr (loadB_sameB h c i)) (fun _ => rfl) fun _ => rfl

theorem flip4x12Group_latchFree (c : Job) (g : Nat) : LatchFree (flip4x12Group c g) :=
  .of_emit (fun _ => rfl) (fun h => by simp only [Datapath.triple_congr h]) (fun _ => rfl) fun _ => rfl

theorem flip4x16Group_latchFree (c : Job) (k : Nat) : LatchFree (flip4x16Group c k) :=
  (LatchFree.loop (fun p => copySample16_latchFree c (8 * k + 2 * p) k p) 4).comp
    (.of_load (f := (Datapath.atIndex · (2 * k))) (fun _ => rfl) fun _ => rfl)

end Sys2Proof.Machine
end

section
/-! The generic path (R141 to R152): no routine fails its range check (R153 item 2), each is a plain loop, and no
latch it starts with matters, for the cursor is started (R146, R151) and V is extracted before either is read. -/

namespace Sys2Proof.Machine

/-! The packer as a plain loop. -/

/-- `V <- Extract(p, bi, w)` at the loop position, where the range check passes. -/
def readField (c : Job) (w bi p : Nat) (d : Datapath) : Datapath :=
  (d.atBit bi p).setV (extractField (d.plane c p (bi / 8)) (bi % 8) w)

/-- `Packer(w)` with no range check. -/
def packerRun (w : Nat) (c : Job) (d : Datapath) : Datapath :=
  flush (forUp (8 * c.n / w)
    (fun k d => forUp c.planes (fun p d => appendBits w (readField c w (k * w) p d)) d) (startCursor c d))

theorem packField_of_le {c : Job} {w bi : Nat} (h : bi + w ≤ 8 * c.n) (p : Nat) (d : Datapath) :
    packField c w bi p d = .done (appendBits w (readField c w bi p d)) := by
  rw [packField, extract, if_neg (Nat.not_lt.mpr h)]
  rfl

/-- R153 item 2: the packer never fails. -/
theorem packer_eq_done (w : Nat) (c : Job) (d : Datapath) : packer w c d = .done (packerRun w c d) := by
  have hloop : forUpFlow (8 * c.n / w) (fun k d => forUpFlow c.planes (packField c w (k * w)) d)
      (startCursor c d) = .done (forUp (8 * c.n / w)
        (fun k d => forUp c.planes (fun p d => appendBits w (readField c w (k * w) p d)) d)
        (startCursor c d)) := by
    refine forUpFlow_eq_forUp (fun k hk y => forUpFlow_eq_forUp (fun p _ z => ?_) y) _
    have hle : (k + 1) * w ≤ 8 * c.n :=
      (Nat.mul_le_mul_right w hk).trans (Nat.div_mul_le_self (8 * c.n) w)
    exact packField_of_le (by rwa [Nat.succ_mul] at hle) p z
  rw [packer, hloop]
  rfl

/-! Two runs of the generic path. -/

/-- Datapaths that agree in memory and in the bit cursor. -/
structure SameCursor (d e : Datapath) : Prop where
  mem : d.mem = e.mem
  cursor : d.lat.cursor = e.lat.cursor

theorem startCursor_sameCursor {d e : Datapath} (h : d.mem = e.mem) (c : Job) :
    SameCursor (startCursor c d) (startCursor c e) := ⟨h, rfl⟩

section TwoRuns
variable {d e : Datapath} (h : SameCursor d e)
include h

theorem SameCursor.memWrite (x : Addr) (v : Byte) : SameCursor (d.memWrite x v) (e.memWrite x v) :=
  ⟨by rw [Datapath.memWrite_mem, Datapath.memWrite_mem, h.mem], h.cursor⟩

theorem SameCursor.setCursor (x : BitCursor) : SameCursor (d.setCursor x) (e.setCursor x) := ⟨h.mem, rfl⟩

theorem readField_sameCursor (c : Job) (w bi p : Nat) :
    SameCursor (readField c w bi p d) (readField c w bi p e) := ⟨h.mem, h.cursor⟩

theorem readField_v_congr (c : Job) (w bi p : Nat) :
    (readField c w bi p d).lat.v = (readField c w bi p e).lat.v := by
  simp only [readField, Datapath.setV_v, Datapath.plane_congr h.mem]

theorem appendBits_sameCursor (hv : d.lat.v = e.lat.v) (w : Nat) :
    SameCursor (appendBits w d) (appendBits w e) := by
  simp only [appendBits, h.cursor, hv]
  split
  · exact (h.memWrite _ _).setCursor _
  · exact h.setCursor _

theorem extract12_sameCursor (c : Job) (p bi : Nat) :
    SameCursor (extract12 c p bi d) (extract12 c p bi e) := ⟨h.mem, h.cursor⟩

theorem extract12_v_congr (c : Job) (p bi : Nat) :
    (extract12 c p bi d).lat.v = (extract12 c p bi e).lat.v := by
  simp only [extract12, Datapath.setV_v, Datapath.plane_congr h.mem]

theorem append12_sameCursor (hv : d.lat.v = e.lat.v) : SameCursor (append12 d) (append12 e) := by
  simp only [append12, h.cursor, hv]
  split
  · exact (h.memWrite _ _).setCursor _
  · exact ((h.memWrite _ _).memWrite _ _).setCursor _

theorem flush_sameCursor : SameCursor (flush d) (flush e) := by
  simp only [flush, h.cursor]
  split
  · exact (h.memWrite _ _).setCursor _
  · exact h

theorem packField12_sameCursor (c : Job) (bi p : Nat) :
    SameCursor (packField12 c bi p d) (packField12 c bi p e) := by
  have hat : SameCursor (d.atBit bi p) (e.atBit bi p) := ⟨h.mem, h.cursor⟩
  exact append12_sameCursor (extract12_sameCursor hat c p bi) (extract12_v_congr hat c p bi)

end TwoRuns

/-! The invariant on the generic path. -/

/-- The invariant between two appends: memory is canonical and the cursor has advanced by a number of bits that
`g` divides. -/
def Packing (c : Job) (g : Nat) (d : Datapath) : Prop :=
  Memory.wf d.mem ∧ ∃ m T, g ∣ T ∧ Advanced c m T d

theorem Packing.start {d : Datapath} (h : Memory.wf d.mem) (c : Job) (g : Nat) :
    Packing c g (startCursor c d) := ⟨h, d.mem, 0, Nat.dvd_zero g, Advanced.start c d⟩

theorem Packing.of_eq {c : Job} {g : Nat} {d e : Datapath} (h : Packing c g d) (hm : e.mem = d.mem)
    (hc : e.lat.cursor = d.lat.cursor) : Packing c g e := by
  obtain ⟨hmem, m, T, hT, hadv⟩ := h
  exact ⟨hm ▸ hmem, m, T, hT, hadv.of_eq hm hc⟩

theorem Packing.wf {c : Job} {g : Nat} {d : Datapath} (h : Packing c g d) : d.wf := by
  obtain ⟨hmem, m, T, _, hadv⟩ := h
  refine ⟨hmem, ?_, ?_⟩
  · rw [hadv.dbit]; exact Nat.mod_lt T (by decide)
  · rw [hadv.dbit]; exact hadv.acc

theorem extractField_lt (x : Byte) (o : Nat) {w : Nat} (hw : w ≤ 8) : (extractField x o w).toNat < 2 ^ w := by
  have hpow : 2 ^ w ≤ 2 ^ 8 := Nat.pow_le_pow_right (by decide) hw
  have hpos : 0 < 2 ^ w := Nat.two_pow_pos w
  have hmask : (BitVec.ofNat 8 (2 ^ w - 1)).toNat = 2 ^ w - 1 := by
    rw [BitVec.toNat_ofNat]; exact Nat.mod_eq_of_lt (by omega)
  have hand : (x >>> (8 - o - w) &&& BitVec.ofNat 8 (2 ^ w - 1)).toNat ≤ 2 ^ w - 1 := by
    rw [BitVec.toNat_and, hmask]; exact Nat.and_le_right
  calc (extractField x o w).toNat
      ≤ (x >>> (8 - o - w) &&& BitVec.ofNat 8 (2 ^ w - 1)).toNat := by
        rw [extractField, BitVec.toNat_setWidth]; exact Nat.mod_le _ _
    _ < 2 ^ w := by omega

theorem appendBits_mem_wf {d : Datapath} (h : Memory.wf d.mem) (w : Nat) : Memory.wf (appendBits w d).mem := by
  simp only [appendBits]
  split
  · exact Datapath.memWrite_mem_wf h _ _
  · exact h

theorem append12_mem_wf {d : Datapath} (h : Memory.wf d.mem) : Memory.wf (append12 d).mem := by
  simp only [append12]
  split
  · exact Datapath.memWrite_mem_wf h _ _
  · exact Datapath.memWrite_mem_wf (Datapath.memWrite_mem_wf h _ _) _ _

/-- An aligned append never crosses a byte of the output, for `w` divides 8. -/
theorem Packing.appendBits {c : Job} {w : Nat} {d : Datapath} (h : Packing c w d)
    (hw : w = 1 ∨ w = 2 ∨ w = 4 ∨ w = 8) (hv : d.lat.v.toNat < 2 ^ w) :
    Packing c w (Machine.appendBits w d) := by
  obtain ⟨hmem, m, T, hT, hadv⟩ := h
  have hroom : T % 8 + w ≤ 8 := by rcases hw with rfl | rfl | rfl | rfl <;> omega
  exact ⟨appendBits_mem_wf hmem w, m, T + w, Nat.dvd_add_self_right.mpr hT,
    hadv.appendBits (by omega) hroom hv⟩

theorem Packing.append12 {c : Job} {d : Datapath} (h : Packing c 4 d) : Packing c 4 (Machine.append12 d) := by
  obtain ⟨hmem, m, T, hT, hadv⟩ := h
  exact ⟨append12_mem_wf hmem, m, T + 12, by omega, hadv.append12 (by omega)⟩

/-- A flush leaves the cursor empty, or leaves it as it was. -/
theorem Datapath.wf.flush {d : Datapath} (h : d.wf) : (Machine.flush d).wf := by
  simp only [Machine.flush]
  split
  · exact Datapath.wf_setCursor_empty (Datapath.memWrite_mem_wf h.1 _ _) _
  · exact h

/-! The generic routines as steps to which no latch matters. -/

/-- A routine that starts the cursor, appends sample by sample and flushes. -/
theorem LatchFree.of_packing {c : Job} {g : Nat} {step : Nat → Nat → Datapath → Datapath}
    (hsame : ∀ k p {d e : Datapath}, SameCursor d e → SameCursor (step k p d) (step k p e))
    (hkeep : ∀ k p {d : Datapath}, Packing c g d → Packing c g (step k p d)) (samples : Nat) :
    LatchFree fun d => flush (forUp samples (fun k d => forUp c.planes (step k) d) (startCursor c d)) where
  mem_congr := fun h => by
    refine (flush_sameCursor (forUp_rel (startCursor_sameCursor h c) fun k _ _ hk => ?_)).mem
    exact forUp_rel hk fun p _ _ hp => hsame k p hp
  keeps_wf := fun h =>
    (forUp_induction (fun _ => Packing c g) (Packing.start h.1 c g) fun k _ _ hk =>
      forUp_induction (fun _ => Packing c g) hk fun p _ _ hp => hkeep k p hp).wf.flush

theorem packerRun_latchFree {w : Nat} (hw : w = 1 ∨ w = 2 ∨ w = 4 ∨ w = 8) (c : Job) :
    LatchFree (packerRun w c) := by
  refine .of_packing (g := w) (fun k p _ _ h => ?_) (fun k p d h => ?_) (8 * c.n / w)
  · exact appendBits_sameCursor (readField_sameCursor h c w (k * w) p) (readField_v_congr h c w (k * w) p) w
  · have hread : Packing c w (readField c w (k * w) p d) := h.of_eq rfl rfl
    exact hread.appendBits hw (extractField_lt _ _ (by omega))

theorem packer12_latchFree (c : Job) : LatchFree (packer12 c) :=
  .of_packing (g := 4) (fun k p _ _ h => packField12_sameCursor h c (k * 12) p)
    (fun k p d h => by
      have hread : Packing c 4 (extract12 c p (k * 12) (d.atBit (k * 12) p)) := h.of_eq rfl rfl
      exact hread.append12) (8 * c.n / 12)

theorem startCursor_latchFree (c : Job) : LatchFree (startCursor c) where
  mem_congr := fun h => (startCursor_sameCursor h c).mem
  keeps_wf := fun h => (Packing.start h.1 c 1).wf

theorem copy16_latchFree (c : Job) : LatchFree (copy16 c) :=
  (LatchFree.loop (fun k => LatchFree.loop (fun p =>
    (copySample16_latchFree c (2 * (k * c.planes + p)) k p).comp
      (.of_load (f := (Datapath.atBit · (k * 16) p)) (fun _ => rfl) fun _ => rfl)) c.planes)
    (c.n / 2)).comp (startCursor_latchFree c)

end Sys2Proof.Machine
end

section
/-! What every step does to the invariant, and two steps from states that differ in the latches only: each routine
is a function that never fails and to which no latch matters, and the skeleton around it looks at no latch. -/

namespace Sys2Proof.Machine

/-- The routine the skeleton runs for any instruction never fails, and no latch matters to it. -/
theorem runOf_latchFree (i : Instr) (c : Job) :
    ∃ f : Datapath → Datapath, LatchFree f ∧ ∀ d, runOf i c d = .done (f d) := by
  cases i with
  | flip3x1 _ => exact ⟨_, .loop (flip3x1Group_latchFree c) c.n, fun _ => rfl⟩
  | flip3x2 _ => exact ⟨_, .loop (flip3x2Group_latchFree c) c.n, fun _ => rfl⟩
  | flip3x4 _ => exact ⟨_, .loop (flip3x4Group_latchFree c) c.n, fun _ => rfl⟩
  | flip3x8 _ => exact ⟨_, .loop (flip3x8Group_latchFree c) c.n, fun _ => rfl⟩
  | flip3x12 _ => exact ⟨_, .loop (flip3x12Group_latchFree c) (c.n / 3), fun _ => rfl⟩
  | flip3x16 _ => exact ⟨_, .loop (flip3x16Group_latchFree c) (c.n / 2), fun _ => rfl⟩
  | flip4x1 _ => exact ⟨_, .loop (flip4x1Group_latchFree c) c.n, fun _ => rfl⟩
  | flip4x2 _ => exact ⟨_, .loop (flip4x2Group_latchFree c) c.n, fun _ => rfl⟩
  | flip4x4 _ => exact ⟨_, .loop (flip4x4Group_latchFree c) c.n, fun _ => rfl⟩
  | flip4x8 _ => exact ⟨_, .loop (flip4x8Group_latchFree c) c.n, fun _ => rfl⟩
  | flip4x12 _ => exact ⟨_, .loop (flip4x12Group_latchFree c) (c.n / 3), fun _ => rfl⟩
  | flip4x16 _ => exact ⟨_, .loop (flip4x16Group_latchFree c) (c.n / 2), fun _ => rfl⟩
  | flipnx1 _ _ => exact ⟨_, packerRun_latchFree (by simp) c, packer_eq_done 1 c⟩
  | flipnx2 _ _ => exact ⟨_, packerRun_latchFree (by simp) c, packer_eq_done 2 c⟩
  | flipnx4 _ _ => exact ⟨_, packerRun_latchFree (by simp) c, packer_eq_done 4 c⟩
  | flipnx8 _ _ => exact ⟨_, packerRun_latchFree (by simp) c, packer_eq_done 8 c⟩
  | flipnx12 _ _ => exact ⟨_, packer12_latchFree c, fun _ => rfl⟩
  | flipnx16 _ _ => exact ⟨_, copy16_latchFree c, fun _ => rfl⟩
  | xpose _ _ _ _ => exact ⟨_, .of_load (fun _ => rfl) fun _ => rfl, fun _ => rfl⟩

/-- Every instruction is a TRANSCODE routine or XPOSE. -/
theorem routineOf_or_xpose (i : Instr) :
    (∃ a planes w, routineOf i = some (a, planes, w)) ∨ ∃ r s mask shift, i = .xpose r s mask shift := by
  cases i with
  | xpose r s mask shift => exact .inr ⟨r, s, mask, shift, rfl⟩
  | _ => exact .inl ⟨_, _, _, rfl⟩

/-! The invariant. -/

/-- An accepted command changes neither memory nor the latches. -/
theorem State.accept_datapath {s s' : State} (h : s.accept = some s') : s'.datapath = s.datapath := by
  cases hp : s.port with
  | busy =>
    rw [State.accept_busy hp] at h
    cases h
    rfl
  | idle =>
    cases hc : s.commands with
    | nil =>
      rw [State.accept_idle_none hp hc] at h
      cases h
    | cons cw rest =>
      rw [State.accept_idle_some hp hc] at h
      cases h
      rfl

theorem State.wf.settle {s : State} (h : s.wf) (c : Job) : (s.settle c).wf := by
  obtain ⟨_, _, _, _, _, hlat⟩ := State.settle_frame s c
  obtain ⟨hmem, hcursor⟩ := h
  refine ⟨State.settle_wf c hmem, ?_⟩
  rw [hlat]
  exact hcursor

/-- A routine that keeps the invariant keeps it through the skeleton. -/
theorem transcode_keeps_wf {a : TransferArgs} {planes w : Nat} {routine : Job → Datapath → Flow} {s t : State}
    (hr : ∀ c, ∃ f, LatchFree f ∧ ∀ d, routine c d = .done (f d)) (hs : s.wf)
    (ht : transcode a planes w routine s = .next t) : t.wf := by
  obtain ⟨f, hf, hrun⟩ := hr (Job.start a planes s.mem)
  rcases transcode_cases a planes w routine s with
    ⟨_, h⟩ | ⟨_, _, h⟩ | ⟨_, _, _, ⟨_, h⟩ | ⟨_, ⟨d, hd, h⟩ | ⟨st, d, hd, _⟩⟩⟩
  · cases h.symm.trans ht
    exact hs
  · cases h.symm.trans ht
    exact hs
  · cases h.symm.trans ht
  · cases h.symm.trans ht
    have hdone : f (s.datapath.setPp (Job.start a planes s.mem).pp) = d :=
      Flow.done.inj ((hrun _).symm.trans hd)
    have hwf : d.wf := hdone ▸ hf.keeps_wf hs
    have hstate : (s.withDatapath d).wf := hwf
    exact hstate.settle _
  · cases (hrun _).symm.trans hd

theorem exec_keeps_wf {i : Instr} {s t : State} (hs : s.wf) (ht : exec i s = .next t) : t.wf := by
  rcases routineOf_or_xpose i with ⟨a, planes, w, hi⟩ | ⟨r, u, mask, shift, rfl⟩
  · rw [exec_eq_transcode hi] at ht
    exact transcode_keeps_wf (runOf_latchFree i) hs ht
  · cases ht
    exact hs

/-- Settles O12: a routine keeps the invariant because it starts the bit cursor and appends aligned fields, or does
not touch it, and every write keeps memory canonical; the rest of a step touches neither. -/
theorem stepKeepsWellFormed : Obligations.StepKeepsWellFormed := by
  intro s t hs ht
  cases hacc : s.accept with
  | none =>
    rw [step_of_accept_none hacc] at ht
    cases ht
    exact hs
  | some s' =>
    have hs' : s'.wf := by rwa [State.wf_iff_datapath, State.accept_datapath hacc]
    cases hdec : decode s'.cmd with
    | ok i =>
      rw [step_of_decode_ok hacc hdec] at ht
      exact exec_keeps_wf hs' ht
    | error st =>
      rw [step_of_decode_error hacc hdec] at ht
      cases ht
      exact hs'

/-! Two steps from states that differ in the latches only. -/

/-- `s` with other transient latches. -/
def State.withLat (s : State) (l : Latches) : State := { s with lat := l }

theorem agreeButLatches_withLat (t : State) (l : Latches) : AgreeButLatches (.next t) (.next (t.withLat l)) :=
  rfl

theorem State.accept_withLat (s : State) (l : Latches) :
    (s.withLat l).accept = s.accept.map (State.withLat · l) := by
  obtain ⟨port, cmd, lat, mem, commands, responses, backed, freeIx⟩ := s
  cases port with
  | busy => rfl
  | idle => cases commands <;> rfl

theorem State.withDatapath_withLat (s : State) (l : Latches) {d e : Datapath} (h : d.mem = e.mem) :
    (s.withLat l).withDatapath e = (s.withDatapath d).withLat e.lat := by
  simp only [State.withDatapath, State.withLat, h]

/-- Filling output bytes with values fixed in advance looks at no latch. -/
theorem forUp_out_mem_congr {d e : Datapath} (h : d.mem = e.mem) (c : Job) (n : Nat) (bytes : Nat → Byte) :
    (forUp n (fun j y => y.out c j (bytes j)) d).mem = (forUp n (fun j y => y.out c j (bytes j)) e).mem := by
  refine forUp_rel (R := fun d e : Datapath => d.mem = e.mem) h fun j d e h => ?_
  rw [Datapath.out_mem, Datapath.out_mem, h]

theorem forUp_out_lat (d : Datapath) (c : Job) (n : Nat) (bytes : Nat → Byte) :
    (forUp n (fun j y => y.out c j (bytes j)) d).lat = d.lat :=
  forUp_keeps Datapath.lat fun j y => Datapath.out_lat y c j (bytes j)

theorem State.freeOutput_withLat (s : State) (l : Latches) (c : Job) :
    (s.withLat l).freeOutput c = (s.freeOutput c).withLat l := by
  have hmem : s.datapath.mem = (s.withLat l).datapath.mem := rfl
  have hfill := State.withDatapath_withLat s l
    (forUp_out_mem_congr hmem c (c.planes * c.n) fun j => Config.overlapByte (s.freeIx + j))
  rw [forUp_out_lat] at hfill
  exact congrArg (fun t : State => { t with freeIx := s.freeIx + c.planes * c.n }) hfill

theorem State.settle_withLat (s : State) (l : Latches) (c : Job) :
    (s.withLat l).settle c = (s.settle c).withLat l := by
  by_cases hc : c.disjoint
  · rw [State.settle_of_disjoint hc, State.settle_of_disjoint hc]
  · rw [State.settle_of_overlap hc, State.settle_of_overlap hc, State.freeOutput_withLat]

theorem State.respond_withLat (s : State) (l : Latches) (st : Status) (rr rs : Byte) :
    (s.withLat l).respond st rr rs = (s.respond st rr rs).withLat l := rfl

/-- The skeleton around a routine to which no latch matters looks at no latch. -/
theorem transcode_agrees {a : TransferArgs} {planes w : Nat} {routine : Job → Datapath → Flow}
    (hr : ∀ c, ∃ f, LatchFree f ∧ ∀ d, routine c d = .done (f d)) (s : State) (l : Latches) :
    AgreeButLatches (transcode a planes w routine s) (transcode a planes w routine (s.withLat l)) := by
  have hstart : Job.start a planes (s.withLat l).mem = Job.start a planes s.mem := rfl
  have hbacked : (s.withLat l).backed = s.backed := rfl
  obtain ⟨f, hf, hrun⟩ := hr (Job.start a planes s.mem)
  unfold transcode
  rw [hstart, hbacked]
  simp only [hrun]
  split
  · exact agreeButLatches_withLat _ l
  · split
    · exact agreeButLatches_withLat _ l
    · split
      · have hmem : (f (s.datapath.setPp (Job.start a planes s.mem).pp)).mem
            = (f ((s.withLat l).datapath.setPp (Job.start a planes s.mem).pp)).mem := hf.mem_congr rfl
        rw [State.withDatapath_withLat s l hmem, State.settle_withLat, State.respond_withLat]
        exact agreeButLatches_withLat _ _
      · exact rfl

theorem exec_agrees (i : Instr) (s : State) (l : Latches) :
    AgreeButLatches (exec i s) (exec i (s.withLat l)) := by
  rcases routineOf_or_xpose i with ⟨a, planes, w, hi⟩ | ⟨r, u, mask, shift, rfl⟩
  · rw [exec_eq_transcode hi, exec_eq_transcode hi]
    exact transcode_agrees (runOf_latchFree i) s l
  · exact rfl

/-- Settles O13: accepting, decoding and failing look at no latch, and neither does a routine, which writes every
latch before it reads it. -/
theorem latchesDoNotPersist : Obligations.LatchesDoNotPersist := by
  intro s l
  change AgreeButLatches (step s) (step (s.withLat l))
  have hacc' := State.accept_withLat s l
  cases hacc : s.accept with
  | none =>
    rw [hacc] at hacc'
    rw [step_of_accept_none hacc, step_of_accept_none hacc']
    exact agreeButLatches_withLat s l
  | some s' =>
    rw [hacc] at hacc'
    cases hdec : decode s'.cmd with
    | ok i =>
      rw [step_of_decode_ok hacc hdec, step_of_decode_ok hacc' hdec]
      exact exec_agrees i s' l
    | error st =>
      rw [step_of_decode_error hacc hdec, step_of_decode_error hacc' hdec]
      exact agreeButLatches_withLat (s'.fail st) l

end Sys2Proof.Machine
end

section
/-! The latches each family of routines leaves alone (R17 to R19, R74; notes/assumptions/10.md), as the part of the
latches outside those the family uses. -/

namespace Sys2Proof.Machine

/-- The latches with those a 3-plane routine uses blanked: B24, the first three group latches, `i` and PP. -/
def Latches.outsideFixed3 (l : Latches) : Latches :=
  { l with
    eng := { Latches.reset.eng with b1 := l.eng.b1, b2 := l.eng.b2, b3 := l.eng.b3, b4 := l.eng.b4, gd := l.eng.gd }
    pos := { l.pos with i := 0 }
    pp := [] }

/-- The latches with those a 4-plane routine uses blanked: R, S and T, B1 to B4, the group latches, `i` and PP. -/
def Latches.outsideFixed4 (l : Latches) : Latches :=
  { l with
    xp := Latches.reset.xp
    eng := { Latches.reset.eng with b24 := l.eng.b24 }
    pos := { l.pos with i := 0 }
    pp := [] }

/-- The latches with those a generic routine uses blanked: the bit cursor, BI, PI, V and PP. -/
def Latches.outsideGeneric (l : Latches) : Latches :=
  { l with cursor := Latches.reset.cursor, pos := { l.pos with bi := 0, pi := 0 }, v := 0#16, pp := [] }

/-- A routine that is ready and whose run is done answers, with the latches the run leaves. -/
theorem exec_lat_of_done {i : Instr} {a : TransferArgs} {planes w : Nat} {s : State} {d : Datapath}
    (hi : routineOf i = some (a, planes, w)) (h : Ready a planes w s)
    (hd : runOf i (Job.start a planes s.mem) (s.datapath.setPp (Job.start a planes s.mem).pp) = .done d) :
    ∃ t, exec i s = .next t ∧ t.lat = d.lat := by
  obtain ⟨_, _, _, _, _, hlat⟩ := State.settle_frame (s.withDatapath d) (Job.start a planes s.mem)
  exact ⟨_, exec_of_done hi h hd, hlat⟩

/-! The 3-plane family. -/

theorem flip3x16Group_outside (c : Job) (k : Nat) (d : Datapath) :
    (flip3x16Group c k d).lat.outsideFixed3 = d.lat.outsideFixed3 :=
  forUp_keeps (fun e : Datapath => e.lat.outsideFixed3) fun _ _ => rfl

/-- A 3-plane routine completes and loads no latch outside those of its family. -/
theorem runOf_fixed3 {i : Instr} {a : TransferArgs}
    (hi : i ∈ [Instr.flip3x1 a, .flip3x2 a, .flip3x4 a, .flip3x8 a, .flip3x12 a, .flip3x16 a])
    (c : Job) (d : Datapath) :
    ∃ e, runOf i c d = .done e ∧ e.lat.outsideFixed3 = d.lat.outsideFixed3 := by
  have hloop {n : Nat} {group : Nat → Datapath → Datapath}
      (hg : ∀ k y, (group k y).lat.outsideFixed3 = y.lat.outsideFixed3) :
      (forUp n group d).lat.outsideFixed3 = d.lat.outsideFixed3 :=
    forUp_keeps (fun e : Datapath => e.lat.outsideFixed3) hg
  simp only [List.mem_cons, List.not_mem_nil, or_false] at hi
  rcases hi with rfl | rfl | rfl | rfl | rfl | rfl
  · exact ⟨_, rfl, hloop fun _ _ => rfl⟩
  · exact ⟨_, rfl, hloop fun _ _ => rfl⟩
  · exact ⟨_, rfl, hloop fun _ _ => rfl⟩
  · exact ⟨_, rfl, hloop fun _ _ => rfl⟩
  · exact ⟨_, rfl, hloop fun _ _ => rfl⟩
  · exact ⟨_, rfl, hloop (flip3x16Group_outside c)⟩

/-- Settles O39: settling the output keeps the latches, and the loops load only those of the family. -/
theorem fixed3LatchFrame : Obligations.Fixed3LatchFrame := by
  intro i a w s hi hmem hR
  obtain ⟨d, hrun, hout⟩ := runOf_fixed3 hmem (Job.start a 3 s.mem)
    (s.datapath.setPp (Job.start a 3 s.mem).pp)
  obtain ⟨t, ht, hlat⟩ := exec_lat_of_done hi hR hrun
  have h : t.lat.outsideFixed3 = s.lat.outsideFixed3 := by rw [hlat, hout]; rfl
  exact ⟨t, ht, congrArg (·.xp) h, congrArg (·.cursor) h, congrArg (·.v) h,
    congrArg (·.pos.bi) h, congrArg (·.pos.pi) h, congrArg (·.eng.b1) h, congrArg (·.eng.b2) h,
    congrArg (·.eng.b3) h, congrArg (·.eng.b4) h, congrArg (·.eng.gd) h⟩

/-! The 4-plane family. -/

theorem flip4x16Group_outside (c : Job) (k : Nat) (d : Datapath) :
    (flip4x16Group c k d).lat.outsideFixed4 = d.lat.outsideFixed4 :=
  forUp_keeps (fun e : Datapath => e.lat.outsideFixed4) fun _ _ => rfl

theorem flip4x16Group_xp (c : Job) (k : Nat) (d : Datapath) : (flip4x16Group c k d).lat.xp = d.lat.xp :=
  forUp_keeps (fun e : Datapath => e.lat.xp) fun _ _ => rfl

/-- A 4-plane routine completes and loads no latch outside those of its family, and only FLIP4X1 and FLIP4X2 use
the primitive. -/
theorem runOf_fixed4 {i : Instr} {a : TransferArgs}
    (hi : i ∈ [Instr.flip4x1 a, .flip4x2 a, .flip4x4 a, .flip4x8 a, .flip4x12 a, .flip4x16 a])
    (c : Job) (d : Datapath) :
    ∃ e, runOf i c d = .done e ∧ e.lat.outsideFixed4 = d.lat.outsideFixed4 ∧
      (i ≠ .flip4x1 a → i ≠ .flip4x2 a → e.lat.xp = d.lat.xp) := by
  have hloop {n : Nat} {group : Nat → Datapath → Datapath}
      (hg : ∀ k y, (group k y).lat.outsideFixed4 = y.lat.outsideFixed4) :
      (forUp n group d).lat.outsideFixed4 = d.lat.outsideFixed4 :=
    forUp_keeps (fun e : Datapath => e.lat.outsideFixed4) hg
  have hxp {n : Nat} {group : Nat → Datapath → Datapath}
      (hg : ∀ k y, (group k y).lat.xp = y.lat.xp) : (forUp n group d).lat.xp = d.lat.xp :=
    forUp_keeps (fun e : Datapath => e.lat.xp) hg
  simp only [List.mem_cons, List.not_mem_nil, or_false] at hi
  rcases hi with rfl | rfl | rfl | rfl | rfl | rfl
  · exact ⟨_, rfl, hloop fun _ _ => rfl, fun h _ => absurd rfl h⟩
  · exact ⟨_, rfl, hloop fun _ _ => rfl, fun _ h => absurd rfl h⟩
  · exact ⟨_, rfl, hloop fun _ _ => rfl, fun _ _ => hxp fun _ _ => rfl⟩
  · exact ⟨_, rfl, hloop fun _ _ => rfl, fun _ _ => hxp fun _ _ => rfl⟩
  · exact ⟨_, rfl, hloop fun _ _ => rfl, fun _ _ => hxp fun _ _ => rfl⟩
  · exact ⟨_, rfl, hloop (flip4x16Group_outside c), fun _ _ => hxp (flip4x16Group_xp c)⟩

/-- Settles O47: settling the output keeps the latches, and the loops load only those of the family. -/
theorem fixed4LatchFrame : Obligations.Fixed4LatchFrame := by
  intro i a w s hi hmem hR
  obtain ⟨d, hrun, hout, hxp⟩ := runOf_fixed4 hmem (Job.start a 4 s.mem)
    (s.datapath.setPp (Job.start a 4 s.mem).pp)
  obtain ⟨t, ht, hlat⟩ := exec_lat_of_done hi hR hrun
  have h : t.lat.outsideFixed4 = s.lat.outsideFixed4 := by rw [hlat, hout]; rfl
  exact ⟨t, ht, congrArg (·.cursor) h, congrArg (·.v) h, congrArg (·.pos.bi) h,
    congrArg (·.pos.pi) h, congrArg (·.eng.b24) h,
    fun h1 h2 => (congrArg Latches.xp hlat).trans (hxp h1 h2)⟩

/-! The generic path. -/

theorem appendBits_outside (w : Nat) (d : Datapath) :
    (appendBits w d).lat.outsideGeneric = d.lat.outsideGeneric := by
  simp only [appendBits]
  split <;> rfl

theorem append12_outside (d : Datapath) : (append12 d).lat.outsideGeneric = d.lat.outsideGeneric := by
  simp only [append12]
  split <;> rfl

theorem flush_outside (d : Datapath) : (flush d).lat.outsideGeneric = d.lat.outsideGeneric := by
  simp only [flush]
  split <;> rfl

theorem copySample16_outside (c : Job) (j k p : Nat) (d : Datapath) :
    (copySample16 c j k p d).lat.outsideGeneric = d.lat.outsideGeneric := by
  rw [copySample16, Datapath.emit_lat]

/-- The loops over samples and planes load no latch outside those of the generic path if their body loads none. -/
theorem samples_outside {step : Nat → Nat → Datapath → Datapath}
    (hs : ∀ k p y, (step k p y).lat.outsideGeneric = y.lat.outsideGeneric) (samples planes : Nat) (d : Datapath) :
    (forUp samples (fun k d => forUp planes (step k) d) d).lat.outsideGeneric = d.lat.outsideGeneric :=
  forUp_keeps (fun e : Datapath => e.lat.outsideGeneric) fun k _ =>
    forUp_keeps (fun e : Datapath => e.lat.outsideGeneric) (hs k)

theorem packerRun_outside (w : Nat) (c : Job) (d : Datapath) :
    (packerRun w c d).lat.outsideGeneric = d.lat.outsideGeneric :=
  (flush_outside _).trans
    (samples_outside (fun k p y => appendBits_outside w (readField c w (k * w) p y)) _ _ _)

theorem packer12_outside (c : Job) (d : Datapath) :
    (packer12 c d).lat.outsideGeneric = d.lat.outsideGeneric :=
  (flush_outside _).trans
    (samples_outside (fun k p y => append12_outside (extract12 c p (k * 12) (y.atBit (k * 12) p))) _ _ _)

theorem copy16_outside (c : Job) (d : Datapath) : (copy16 c d).lat.outsideGeneric = d.lat.outsideGeneric :=
  samples_outside
    (fun k p y => copySample16_outside c (2 * (k * c.planes + p)) k p (y.atBit (k * 16) p)) _ _ _

/-- A generic routine completes and loads no latch outside those of the generic path. -/
theorem runOf_generic {i : Instr} {a : TransferArgs} {np : BitVec 32} {w : Nat}
    (hi : (i, w) ∈ [(Instr.flipnx1 a np, 1), (.flipnx2 a np, 2), (.flipnx4 a np, 4), (.flipnx8 a np, 8),
      (.flipnx12 a np, 12), (.flipnx16 a np, 16)]) :
    routineOf i = some (a, planeCount np, w) ∧
      ∀ c d, ∃ e, runOf i c d = .done e ∧ e.lat.outsideGeneric = d.lat.outsideGeneric := by
  simp only [List.mem_cons, List.not_mem_nil, or_false, Prod.mk.injEq] at hi
  rcases hi with ⟨rfl, rfl⟩ | ⟨rfl, rfl⟩ | ⟨rfl, rfl⟩ | ⟨rfl, rfl⟩ | ⟨rfl, rfl⟩ | ⟨rfl, rfl⟩
  · exact ⟨rfl, fun c d => ⟨_, packer_eq_done 1 c d, packerRun_outside 1 c d⟩⟩
  · exact ⟨rfl, fun c d => ⟨_, packer_eq_done 2 c d, packerRun_outside 2 c d⟩⟩
  · exact ⟨rfl, fun c d => ⟨_, packer_eq_done 4 c d, packerRun_outside 4 c d⟩⟩
  · exact ⟨rfl, fun c d => ⟨_, packer_eq_done 8 c d, packerRun_outside 8 c d⟩⟩
  · exact ⟨rfl, fun c d => ⟨_, rfl, packer12_outside c d⟩⟩
  · exact ⟨rfl, fun c d => ⟨_, rfl, copy16_outside c d⟩⟩

/-- Settles O58: settling the output keeps the latches, and the loops use only those of the generic path. -/
theorem genericLatchFrame : Obligations.GenericLatchFrame := by
  intro i a np w s hmem hR
  obtain ⟨hi, hruns⟩ := runOf_generic hmem
  obtain ⟨d, hrun, hout⟩ := hruns (Job.start a (planeCount np) s.mem)
    (s.datapath.setPp (Job.start a (planeCount np) s.mem).pp)
  obtain ⟨t, ht, hlat⟩ := exec_lat_of_done hi hR hrun
  have h : t.lat.outsideGeneric = s.lat.outsideGeneric := by rw [hlat, hout]; rfl
  exact ⟨t, ht, congrArg (·.xp) h, congrArg (·.eng) h, congrArg (·.pos.i) h⟩

end Sys2Proof.Machine
end

section
/-! What a TRANSCODE reads and writes of memory (R31, R36, R38): the entries of the plane table, the refusal of an
access set that is not backed, and the bytes each routine's loops write. -/

namespace Sys2Proof.Machine

/-! The plane table. -/

/-- Appending puts the right operand below the left one. -/
theorem toNat_append_eq_add {k l : Nat} (x : BitVec k) (y : BitVec l) :
    (x ++ y).toNat = x.toNat * 2 ^ l + y.toNat := by
  rw [BitVec.toNat_append, ← Nat.shiftLeft_add_eq_or_of_lt y.isLt, Nat.shiftLeft_eq]

theorem Memory.readEntry_toNat (m : Memory) (x : Addr) :
    (Memory.readEntry m x).toNat = (Memory.read m x.toNat).toNat
      + 2 ^ 8 * (Memory.read m (x + 1#32).toNat).toNat
      + 2 ^ 16 * (Memory.read m (x + 2#32).toNat).toNat
      + 2 ^ 24 * (Memory.read m (x + 3#32).toNat).toNat := by
  simp only [Memory.readEntry, toNat_append_eq_add]
  omega

/-- Settles O24: an entry is read as four bytes, and addresses add modulo `2^32`. -/
theorem planeTableIsLittleEndian : Obligations.PlaneTableIsLittleEndian := by
  intro a planes p m hp
  have hbyte (r : Nat) : a.ptab + BitVec.ofNat 32 (4 * p + r)
      = a.ptab + BitVec.ofNat 32 (4 * p) + BitVec.ofNat 32 r := by
    rw [BitVec.ofNat_add, BitVec.add_assoc]
  rw [hbyte 1, hbyte 2, hbyte 3, ← Memory.readEntry_toNat]
  exact congrArg BitVec.toNat (Memory.planeTable_getD m a.ptab hp)

/-! Refusal. -/

theorem Admitted.lengthCheck {w : Nat} {n : Int} (h : Admitted w n) : lengthCheck w n = none :=
  lengthCheck_eq_none.mpr ⟨le_of_lt h.1, h.2⟩

/-- The skeleton where the access set is not backed: it refuses before it runs the routine. -/
theorem transcode_refused {a : TransferArgs} {planes w : Nat} {s : State}
    (hA : Admitted w a.nbytes.toInt) (hp : 0 < planes) (hb : ¬ (Job.start a planes s.mem).allBacked s.backed)
    (routine : Job → Datapath → Flow) : transcode a planes w routine s = .refused .unbackedAddress := by
  have hpos := hA.1
  have hz : ¬ (a.nbytes.toInt.toNat = 0 ∨ planes = 0) := by omega
  simp only [transcode, hA.lengthCheck, if_neg hz, if_neg hb]

/-- Settles O21: every routine runs in the skeleton, which looks at the access set first. -/
theorem unbackedAddressIsRefused : Obligations.UnbackedAddressIsRefused := by
  intro i a planes w s hi hA hp hb
  rw [exec_eq_transcode hi]
  exact transcode_refused hA hp hb (runOf i)

/-! Steps that write a range of output bytes. -/

/-- The step changes no byte of memory but output bytes `j .. j + len - 1`. -/
def WritesWithin (c : Job) (j len : Nat) (f : Datapath → Datapath) : Prop :=
  ∀ d x, (∀ r, r < len → x ≠ (c.outAddr (j + r)).toNat) → Memory.read (f d).mem x = Memory.read d.mem x

/-- Emitting `len` bytes, whatever they are, after loading latches. -/
theorem WritesWithin.of_emit {c : Job} {j len : Nat} {f load : Datapath → Datapath} {bytes : Datapath → List Byte}
    (hf : ∀ d, f d = Datapath.emit c j (bytes d) (load d)) (hlen : ∀ d, (bytes d).length = len)
    (hm : ∀ d, (load d).mem = d.mem) : WritesWithin c j len f := by
  intro d x hx
  rw [hf, Datapath.emit_read_other c j (bytes d) (load d) (by rwa [hlen]), hm]

theorem WritesWithin.comp_load {c : Job} {j len : Nat} {f load : Datapath → Datapath}
    (h : WritesWithin c j len f) (hm : ∀ d, (load d).mem = d.mem) : WritesWithin c j len fun d => f (load d) := by
  intro d x hx
  rw [h (load d) x hx, hm]

/-- A loop whose iteration `k` writes the `k`-th block of `size` bytes. -/
theorem WritesWithin.loop {c : Job} {j size n : Nat} {f : Nat → Datapath → Datapath}
    (hf : ∀ k, WritesWithin c (j + size * k) size (f k)) : WritesWithin c j (size * n) (forUp n f) := by
  intro d x hx
  refine forUp_induction (fun _ (y : Datapath) => Memory.read y.mem x = Memory.read d.mem x) rfl
    fun k hk y hy => (hf k y x fun r hr => ?_).trans hy
  have hblock : size * (k + 1) ≤ size * n := Nat.mul_le_mul_left size hk
  rw [Nat.mul_succ] at hblock
  rw [Nat.add_assoc]
  exact hx (size * k + r) (by omega)

/-- A routine whose group `g` writes the `g`-th block of `size` output bytes, with room for every group. -/
theorem outputOnly_of_groups {c : Job} {size steps : Nat} {group : Nat → Datapath → Datapath}
    (hg : ∀ g, WritesWithin c (size * g) size (group g)) (hroom : size * steps ≤ c.planes * c.n) (d : Datapath) :
    OutputOnly c d.mem (forUp steps group d).mem := by
  intro x hx
  have hloop : WritesWithin c 0 (size * steps) (forUp steps group) :=
    WritesWithin.loop fun g => by rw [Nat.zero_add]; exact hg g
  refine hloop d x fun r hr => ?_
  rw [Nat.zero_add]
  exact hx r (lt_of_lt_of_le hr hroom)

/-! The groups. -/

theorem flip3x1Group_writes (c : Job) (i : Nat) : WritesWithin c (3 * i) 3 (flip3x1Group c i) :=
  .of_emit (fun _ => rfl) (fun _ => rfl) fun _ => rfl

theorem flip3x2Group_writes (c : Job) (i : Nat) : WritesWithin c (3 * i) 3 (flip3x2Group c i) :=
  .of_emit (fun _ => rfl) (fun _ => rfl) fun _ => rfl

theorem flip3x4Group_writes (c : Job) (i : Nat) : WritesWithin c (3 * i) 3 (flip3x4Group c i) :=
  .of_emit (fun _ => rfl) (fun _ => rfl) fun _ => rfl

theorem flip3x8Group_writes (c : Job) (i : Nat) : WritesWithin c (3 * i) 3 (flip3x8Group c i) :=
  .of_emit (fun _ => rfl) (fun _ => rfl) fun _ => rfl

theorem flip3x12Group_writes (c : Job) (g : Nat) : WritesWithin c (9 * g) 9 (flip3x12Group c g) :=
  .of_emit (fun _ => rfl) (fun _ => rfl) fun _ => rfl

theorem copySample16_writes (c : Job) (j k p : Nat) : WritesWithin c j 2 (copySample16 c j k p) :=
  .of_emit (fun _ => rfl) (fun _ => rfl) fun _ => rfl

theorem flip3x16Group_writes (c : Job) (k : Nat) : WritesWithin c (6 * k) 6 (flip3x16Group c k) :=
  (WritesWithin.loop (n := 3) fun p => copySample16_writes c (6 * k + 2 * p) k p).comp_load
    (load := (Datapath.atIndex · (2 * k))) fun _ => rfl

theorem flip4x1Group_writes (c : Job) (i : Nat) : WritesWithin c (4 * i) 4 (flip4x1Group c i) :=
  .of_emit (fun _ => rfl) (fun _ => rfl) fun _ => rfl

theorem flip4x2Group_writes (c : Job) (i : Nat) : WritesWithin c (4 * i) 4 (flip4x2Group c i) :=
  .of_emit (fun _ => rfl) (fun _ => rfl) fun _ => rfl

theorem flip4x4Group_writes (c : Job) (i : Nat) : WritesWithin c (4 * i) 4 (flip4x4Group c i) :=
  .of_emit (fun _ => rfl) (fun _ => rfl) fun _ => rfl

theorem flip4x8Group_writes (c : Job) (i : Nat) : WritesWithin c (4 * i) 4 (flip4x8Group c i) :=
  .of_emit (fun _ => rfl) (fun _ => rfl) fun _ => rfl

theorem flip4x12Group_writes (c : Job) (g : Nat) : WritesWithin c (12 * g) 12 (flip4x12Group c g) :=
  .of_emit (fun _ => rfl) (fun _ => rfl) fun _ => rfl

theorem flip4x16Group_writes (c : Job) (k : Nat) : WritesWithin c (8 * k) 8 (flip4x16Group c k) :=
  (WritesWithin.loop (n := 4) fun p => copySample16_writes c (8 * k + 2 * p) k p).comp_load
    (load := (Datapath.atIndex · (2 * k))) fun _ => rfl

/-! The generic path. -/

/-- A flush writes at most the output byte the cursor stands in (R143). -/
theorem Advanced.flush_outputOnly {c : Job} {m : Memory} {T : Nat} {d : Datapath} (h : Advanced c m T d)
    (hT : T ≤ 8 * (c.planes * c.n)) : OutputOnly c m (Machine.flush d).mem := by
  intro x hx
  have hd : Memory.read d.mem x = Memory.read m x := h.mem x fun j hj => hx j (by omega)
  simp only [Machine.flush]
  split
  · rename_i hpending
    rw [h.dbit] at hpending
    rw [Datapath.setCursor_mem, Datapath.memWrite_mem, h.dptr,
      Memory.read_write_ne _ _ (hx (T / 8) (by omega)), hd]
  · exact hd

/-- A routine that starts the cursor, appends `w` bits for every sample of every plane and flushes. -/
theorem outputOnly_of_packing {c : Job} {w samples : Nat} {step : Nat → Nat → Datapath → Datapath}
    (hstep : ∀ k p q {m : Memory} {d : Datapath}, Advanced c m (q * w) d → Advanced c m ((q + 1) * w) (step k p d))
    (hroom : samples * w ≤ 8 * c.n) (d : Datapath) :
    OutputOnly c d.mem
      (flush (forUp samples (fun k d => forUp c.planes (step k) d) (startCursor c d))).mem := by
  have hstart : Advanced c d.mem (0 * w) (startCursor c d) := by
    rw [Nat.zero_mul]
    exact Advanced.start c d
  have hloop := forUp_nested (pre := fun _ y => y) (fun q y => Advanced c d.mem (q * w) y) hstart
    (fun _ _ _ h => h) fun k p (_ : k < samples) (_ : p < c.planes) y h => hstep k p (k * c.planes + p) h
  refine hloop.flush_outputOnly ?_
  calc samples * c.planes * w = c.planes * (samples * w) := by ring
    _ ≤ c.planes * (8 * c.n) := Nat.mul_le_mul_left c.planes hroom
    _ = 8 * (c.planes * c.n) := by ring

theorem packerRun_outputOnly {w : Nat} (hw : w = 1 ∨ w = 2 ∨ w = 4 ∨ w = 8) (c : Job) (d : Datapath) :
    OutputOnly c d.mem (packerRun w c d).mem := by
  refine outputOnly_of_packing (fun k p q {m d} h => ?_) (Nat.div_mul_le_self (8 * c.n) w) d
  have hread : Advanced c m (q * w) (readField c w (k * w) p d) := h.of_eq rfl rfl
  have hroom : q * w % 8 + w ≤ 8 := by rcases hw with rfl | rfl | rfl | rfl <;> omega
  rw [Nat.succ_mul]
  exact hread.appendBits (by omega) hroom (extractField_lt _ _ (by omega))

theorem packer12_outputOnly (c : Job) (d : Datapath) : OutputOnly c d.mem (packer12 c d).mem := by
  refine outputOnly_of_packing (fun k p q {m d} h => ?_) (Nat.div_mul_le_self (8 * c.n) 12) d
  have hread : Advanced c m (q * 12) (extract12 c p (k * 12) (d.atBit (k * 12) p)) := h.of_eq rfl rfl
  rw [Nat.succ_mul]
  exact hread.append12 (by omega)

/-- One iteration over the planes in R152 writes one sample of each. -/
theorem copy16_samples_write (c : Job) (k : Nat) :
    WritesWithin c (2 * c.planes * k) (2 * c.planes)
      (forUp c.planes fun p d => copySample16 c (2 * (k * c.planes + p)) k p (d.atBit (k * 16) p)) := by
  refine WritesWithin.loop fun p => ?_
  rw [show 2 * c.planes * k + 2 * p = 2 * (k * c.planes + p) by ring]
  exact (copySample16_writes c (2 * (k * c.planes + p)) k p).comp_load fun _ => rfl

theorem copy16_outputOnly (c : Job) (d : Datapath) : OutputOnly c d.mem (copy16 c d).mem := by
  refine outputOnly_of_groups (copy16_samples_write c) ?_ (startCursor c d)
  calc 2 * c.planes * (c.n / 2) = c.planes * (c.n / 2 * 2) := by ring
    _ ≤ c.planes * c.n := Nat.mul_le_mul_left c.planes (Nat.div_mul_le_self c.n 2)

/-! Every routine. -/

/-- Each of the 18 routines runs to its end and writes output bytes only. -/
theorem runOf_outputOnly {i : Instr} {a : TransferArgs} {planes w : Nat} {c : Job}
    (hi : routineOf i = some (a, planes, w)) (hc : c.planes = planes) (d : Datapath) :
    ∃ e, runOf i c d = .done e ∧ OutputOnly c d.mem e.mem := by
  cases i with
  | xpose r t mask shift => cases hi
  | flip3x1 b => cases hi; exact ⟨_, rfl, outputOnly_of_groups (flip3x1Group_writes c) (by rw [hc]) d⟩
  | flip3x2 b => cases hi; exact ⟨_, rfl, outputOnly_of_groups (flip3x2Group_writes c) (by rw [hc]) d⟩
  | flip3x4 b => cases hi; exact ⟨_, rfl, outputOnly_of_groups (flip3x4Group_writes c) (by rw [hc]) d⟩
  | flip3x8 b => cases hi; exact ⟨_, rfl, outputOnly_of_groups (flip3x8Group_writes c) (by rw [hc]) d⟩
  | flip3x12 b => cases hi; exact ⟨_, rfl, outputOnly_of_groups (flip3x12Group_writes c) (by rw [hc]; omega) d⟩
  | flip3x16 b => cases hi; exact ⟨_, rfl, outputOnly_of_groups (flip3x16Group_writes c) (by rw [hc]; omega) d⟩
  | flip4x1 b => cases hi; exact ⟨_, rfl, outputOnly_of_groups (flip4x1Group_writes c) (by rw [hc]) d⟩
  | flip4x2 b => cases hi; exact ⟨_, rfl, outputOnly_of_groups (flip4x2Group_writes c) (by rw [hc]) d⟩
  | flip4x4 b => cases hi; exact ⟨_, rfl, outputOnly_of_groups (flip4x4Group_writes c) (by rw [hc]) d⟩
  | flip4x8 b => cases hi; exact ⟨_, rfl, outputOnly_of_groups (flip4x8Group_writes c) (by rw [hc]) d⟩
  | flip4x12 b => cases hi; exact ⟨_, rfl, outputOnly_of_groups (flip4x12Group_writes c) (by rw [hc]; omega) d⟩
  | flip4x16 b => cases hi; exact ⟨_, rfl, outputOnly_of_groups (flip4x16Group_writes c) (by rw [hc]; omega) d⟩
  | flipnx1 b np => exact ⟨_, packer_eq_done 1 c d, packerRun_outputOnly (by simp) c d⟩
  | flipnx2 b np => exact ⟨_, packer_eq_done 2 c d, packerRun_outputOnly (by simp) c d⟩
  | flipnx4 b np => exact ⟨_, packer_eq_done 4 c d, packerRun_outputOnly (by simp) c d⟩
  | flipnx8 b np => exact ⟨_, packer_eq_done 8 c d, packerRun_outputOnly (by simp) c d⟩
  | flipnx12 b np => exact ⟨_, rfl, packer12_outputOnly c d⟩
  | flipnx16 b np => exact ⟨_, rfl, copy16_outputOnly c d⟩

/-- Settles O22: the routine's loops write output bytes only, and so does settling an output that overlaps; where it
does not overlap, settling does nothing. -/
theorem routinesWriteOutputOnly : Obligations.RoutinesWriteOutputOnly := by
  intro i a planes w s hi hR
  obtain ⟨d, hrun, hout⟩ := runOf_outputOnly (c := Job.start a planes s.mem) hi rfl
    (s.datapath.setPp (Job.start a planes s.mem).pp)
  refine ⟨_, exec_of_done hi hR hrun, transcoded_of_outputOnly hout, fun hS => ?_⟩
  rw [State.respond_freeIx, State.settle_of_disjoint hS, State.withDatapath_freeIx]

end Sys2Proof.Machine
end

section
/-! The decoder and the encoder as inverses (R52, R53, R54, R62): the rows of the dispatch table as one function of the
operands, the plane count and the depth, and the words that select no entry of it. -/

namespace Sys2Proof

/-! The decoder forwards: what it answers when OPCODE and the reserved fields are known. -/

theorem decode_of_formatT {cw : CommandWord} (hop : fieldOpcode cw = 0x01#8) (hrsv : fieldRsv0T cw = 0#24) :
    decode cw = decodeTranscode (transferArgs cw) (fieldNplanes cw) (fieldBps cw) := by
  simp [decode, hop, hrsv]

theorem decode_of_formatX {cw : CommandWord} (hop : fieldOpcode cw = 0x02#8) (h0 : fieldRsv0X cw = 0#8)
    (h1 : fieldRsv1X cw = 0#21) (h2 : fieldRsv2X cw = 0#160) :
    decode cw = .ok (.xpose (fieldR cw) (fieldS cw) (fieldMask cw) (fieldShift cw)) := by
  simp [decode, hop, h0, h1, h2]

theorem decode_encodeT (a : TransferArgs) (np bps : BitVec 32) :
    decode (encodeT a np bps) = decodeTranscode a np bps := by
  simp [decode_of_formatT]

theorem decode_encodeX (r s mask : Byte) (shift : BitVec 3) :
    decode (encodeX r s mask shift) = .ok (.xpose r s mask shift) := by
  simp [decode_of_formatX]

/-! The BPS field of a depth. -/

/-- The value of the BPS field that names a depth (R82). -/
def Depth.field (d : Depth) : BitVec 32 := BitVec.ofNat 32 d.bits

theorem depthOf_eq_some_iff {bps : BitVec 32} {d : Depth} : depthOf bps = some d ↔ bps = d.field := by
  refine ⟨depthOf_eq_some, ?_⟩
  rintro rfl
  cases d <;> rfl

theorem Depth.field_toInt (d : Depth) : 1 ≤ d.field.toInt ∧ d.field.toInt ≤ 16 := by
  cases d <;> decide

theorem routineAt_eq_ok_iff {row : Depth → Instr} {bps : BitVec 32} {i : Instr} :
    routineAt row bps = .ok i ↔ ∃ d : Depth, bps = d.field ∧ i = row d := by
  constructor
  · intro h
    rcases routineAt_cases row bps with ⟨d, hd, hrow⟩ | ⟨_, hrow⟩
    · cases hrow.symm.trans h
      exact ⟨d, depthOf_eq_some hd, rfl⟩
    · cases hrow.symm.trans h
  · rintro ⟨d, hbps, rfl⟩
    rw [routineAt, depthOf_eq_some_iff.mpr hbps]

/-! The dispatch table. -/

theorem genericCount_iff {np : BitVec 32} :
    genericCount np = true ↔ 0 ≤ np.toInt ∧ np.toInt ≠ 3 ∧ np.toInt ≠ 4 := by
  have h3 : np.toInt = 3 ↔ np = 3#32 := BitVec.toInt_inj (y := 3#32)
  have h4 : np.toInt = 4 ↔ np = 4#32 := BitVec.toInt_inj (y := 4#32)
  simp [genericCount, h3, h4, and_assoc]

/-- The row of the dispatch table (R84) for a plane count that is not negative. -/
def dispatchRow (a : TransferArgs) (np : BitVec 32) : Depth → Instr :=
  if np.toInt = 3 then fixed3Routine a
  else if np.toInt = 4 then fixed4Routine a
  else genericRoutine a np

/-- A property of plane counts and their rows, shown for each of the three kinds of row. -/
theorem dispatchRow_cases {P : BitVec 32 → (Depth → Instr) → Prop} {a : TransferArgs}
    (fixed3 : P 3#32 (fixed3Routine a)) (fixed4 : P 4#32 (fixed4Routine a))
    (generic : ∀ np : BitVec 32, np.toInt ≠ 3 → np.toInt ≠ 4 → P np (genericRoutine a np)) (np : BitVec 32) :
    P np (dispatchRow a np) := by
  unfold dispatchRow
  split
  case isTrue h3 =>
    cases BitVec.toInt_inj (y := 3#32).mp h3
    exact fixed3
  case isFalse h3 =>
    split
    case isTrue h4 =>
      cases BitVec.toInt_inj (y := 4#32).mp h4
      exact fixed4
    case isFalse h4 => exact generic np h3 h4

theorem encode_dispatchRow (a : TransferArgs) (np : BitVec 32) (d : Depth) :
    encode (dispatchRow a np d) = encodeT a np d.field := by
  refine dispatchRow_cases (P := fun np row => encode (row d) = encodeT a np d.field) ?_ ?_ (fun np _ _ => ?_) np <;>
    cases d <;> rfl

theorem wellFormed_dispatchRow {a : TransferArgs} {np : BitVec 32} (h : 0 ≤ np.toInt) (d : Depth) :
    (dispatchRow a np d).wellFormed = true := by
  refine dispatchRow_cases (P := fun np row => 0 ≤ np.toInt → (row d).wellFormed = true) ?_ ?_ ?_ np h
  · cases d <;> exact fun _ => rfl
  · cases d <;> exact fun _ => rfl
  · intro np h3 h4 h0
    have hnp : genericCount np = true := genericCount_iff.mpr ⟨h0, h3, h4⟩
    cases d <;> exact hnp

theorem dispatchRow_of_genericCount {a : TransferArgs} {np : BitVec 32} (h : genericCount np = true) :
    0 ≤ np.toInt ∧ dispatchRow a np = genericRoutine a np := by
  obtain ⟨h0, h3, h4⟩ := genericCount_iff.mp h
  exact ⟨h0, by rw [dispatchRow, if_neg h3, if_neg h4]⟩

/-- The well-formed instructions are the entries of the dispatch table and the XPOSEs. -/
theorem Instr.wellFormed_cases {i : Instr} (h : i.wellFormed = true) :
    (∃ a np d, 0 ≤ np.toInt ∧ i = dispatchRow a np d) ∨ ∃ r s mask shift, i = .xpose r s mask shift := by
  have hfixed3 (a : TransferArgs) (d : Depth) : ∃ b np e, 0 ≤ np.toInt ∧ fixed3Routine a d = dispatchRow b np e :=
    ⟨a, 3#32, d, by decide, rfl⟩
  have hfixed4 (a : TransferArgs) (d : Depth) : ∃ b np e, 0 ≤ np.toInt ∧ fixed4Routine a d = dispatchRow b np e :=
    ⟨a, 4#32, d, by decide, rfl⟩
  have hgeneric (a : TransferArgs) {np : BitVec 32} (hnp : genericCount np = true) (d : Depth) :
      ∃ b mp e, 0 ≤ mp.toInt ∧ genericRoutine a np d = dispatchRow b mp e := by
    obtain ⟨h0, hrow⟩ := dispatchRow_of_genericCount (a := a) hnp
    exact ⟨a, np, d, h0, by rw [hrow]⟩
  cases i with
  | flip3x1 a => exact .inl (hfixed3 a .d1)
  | flip3x2 a => exact .inl (hfixed3 a .d2)
  | flip3x4 a => exact .inl (hfixed3 a .d4)
  | flip3x8 a => exact .inl (hfixed3 a .d8)
  | flip3x12 a => exact .inl (hfixed3 a .d12)
  | flip3x16 a => exact .inl (hfixed3 a .d16)
  | flip4x1 a => exact .inl (hfixed4 a .d1)
  | flip4x2 a => exact .inl (hfixed4 a .d2)
  | flip4x4 a => exact .inl (hfixed4 a .d4)
  | flip4x8 a => exact .inl (hfixed4 a .d8)
  | flip4x12 a => exact .inl (hfixed4 a .d12)
  | flip4x16 a => exact .inl (hfixed4 a .d16)
  | flipnx1 a np => exact .inl (hgeneric a h .d1)
  | flipnx2 a np => exact .inl (hgeneric a h .d2)
  | flipnx4 a np => exact .inl (hgeneric a h .d4)
  | flipnx8 a np => exact .inl (hgeneric a h .d8)
  | flipnx12 a np => exact .inl (hgeneric a h .d12)
  | flipnx16 a np => exact .inl (hgeneric a h .d16)
  | xpose r s mask shift => exact .inr ⟨r, s, mask, shift, rfl⟩

/-- The dispatch checks pass exactly at a depth of `D` and a plane count that is not negative, and then select the
table's entry (R82, R84). -/
theorem decodeTranscode_eq_ok_iff {a : TransferArgs} {np bps : BitVec 32} {i : Instr} :
    decodeTranscode a np bps = .ok i ↔ 0 ≤ np.toInt ∧ ∃ d : Depth, bps = d.field ∧ i = dispatchRow a np d := by
  rw [← routineAt_eq_ok_iff (row := dispatchRow a np)]
  rcases decodeTranscode_cases a np bps with
    ⟨hbps, h⟩ | ⟨_, _, ⟨hnp, h⟩ | ⟨hnp, h⟩ | ⟨hnp, h⟩ | ⟨hnp, h3, h4, h⟩⟩
  · rw [h, routineAt_eq_ok_iff]
    simp only [reduceCtorEq, false_iff]
    rintro ⟨_, d, rfl, _⟩
    have := d.field_toInt
    omega
  · simp [h, dispatchRow, hnp]
  · simp [h, dispatchRow, hnp]
  · simp [h, hnp]
  · simp [h, dispatchRow, hnp, h3, h4]

/-- Settles O1: an XPOSE is read back field by field, and every other well-formed instruction is the entry of the
dispatch table at the operands its word carries. -/
theorem decodeOfEncode : Obligations.DecodeOfEncode := by
  intro i hwf
  rcases Instr.wellFormed_cases hwf with ⟨a, np, d, hnp, rfl⟩ | ⟨r, s, mask, shift, rfl⟩
  · rw [encode_dispatchRow, decode_encodeT, decodeTranscode_eq_ok_iff]
    exact ⟨hnp, d, rfl, rfl⟩
  · exact decode_encodeX r s mask shift

/-- Settles O2: a word that is not illegal is the encoding of its own fields, and those are the operands of the
instruction it decodes to. -/
theorem encodeOfDecode : Obligations.EncodeOfDecode := by
  intro cw i hdec
  rcases decode_cases cw with ⟨h, _⟩ | ⟨hop, hrsv, h⟩ | ⟨hop, h0, h1, h2, h⟩
  · cases h.symm.trans hdec
  · obtain ⟨hnp, d, hbps, rfl⟩ := decodeTranscode_eq_ok_iff.mp (h.symm.trans hdec)
    refine ⟨?_, wellFormed_dispatchRow hnp d⟩
    rw [encode_dispatchRow, ← hbps, encodeT_fields hop hrsv]
  · cases h.symm.trans hdec
    exact ⟨encodeX_fields hop h0 h1 h2, rfl⟩

/-! Illegal words. -/

theorem routineAt_ne_illegalCommand (row : Depth → Instr) (bps : BitVec 32) :
    routineAt row bps ≠ .error .illegalCommand := by
  rcases routineAt_cases row bps with ⟨d, _, h⟩ | ⟨_, h⟩ <;> simp [h]

/-- The dispatch checks have statuses of their own. -/
theorem decodeTranscode_ne_illegalCommand (a : TransferArgs) (np bps : BitVec 32) :
    decodeTranscode a np bps ≠ .error .illegalCommand := by
  rcases decodeTranscode_cases a np bps with
    ⟨_, h⟩ | ⟨_, _, ⟨_, h⟩ | ⟨_, h⟩ | ⟨_, h⟩ | ⟨_, _, _, h⟩⟩
  · simp [h]
  · exact h ▸ routineAt_ne_illegalCommand _ _
  · exact h ▸ routineAt_ne_illegalCommand _ _
  · simp [h]
  · exact h ▸ routineAt_ne_illegalCommand _ _

/-- `IllegalBits` in the words of the decoder's fields. -/
theorem illegalBits_iff_fields {cw : CommandWord} :
    Machine.IllegalBits cw ↔
      (fieldOpcode cw = 0x01#8 ∧ fieldRsv0T cw ≠ 0#24) ∨
      (fieldOpcode cw = 0x02#8 ∧ (fieldRsv0X cw ≠ 0#8 ∨ fieldRsv1X cw ≠ 0#21 ∨ fieldRsv2X cw ≠ 0#160)) ∨
      (fieldOpcode cw ≠ 0x01#8 ∧ fieldOpcode cw ≠ 0x02#8) := Iff.rfl

theorem decode_eq_illegalCommand_iff {cw : CommandWord} :
    decode cw = .error .illegalCommand ↔ Machine.IllegalBits cw := by
  rw [illegalBits_iff_fields]
  rcases decode_cases cw with ⟨h, hbits⟩ | ⟨hop, hrsv, h⟩ | ⟨hop, h0, h1, h2, h⟩
  · exact iff_of_true h hbits
  · refine iff_of_false (h ▸ decodeTranscode_ne_illegalCommand _ _ _) ?_
    simp [hop, hrsv]
  · refine iff_of_false (by simp [h]) ?_
    simp [hop, h0, h1, h2]

/-- A word whose low 32 bits read 1 has OPCODE 1 and RSV0 zero. -/
theorem formatT_of_lowWord {cw : CommandWord} (h : cw.extractLsb 31 0 = 1#32) :
    fieldOpcode cw = 0x01#8 ∧ fieldRsv0T cw = 0#24 := by
  have hop : fieldOpcode cw = (cw.extractLsb 31 0).extractLsb' 0 8 :=
    (BitVec.extractLsb'_extractLsb'_of_le (by decide)).symm
  have hrsv : fieldRsv0T cw = (cw.extractLsb 31 0).extractLsb' 8 24 :=
    (BitVec.extractLsb'_extractLsb'_of_le (by decide)).symm
  rw [hop, hrsv, h]
  decide

/-- Settles O3: the fields the decoder reads are the bits R54 names. -/
theorem decoderFollowsOpcode : Obligations.DecoderFollowsOpcode := by
  intro cw
  refine ⟨decode_eq_illegalCommand_iff, fun hlow => ?_, fun hop h0 h1 h2 => decode_of_formatX hop h0 h1 h2⟩
  obtain ⟨hop, hrsv⟩ := formatT_of_lowWord hlow
  exact decode_of_formatT hop hrsv

theorem decode_of_encode_eq {i : Instr} {cw : CommandWord} (hwf : i.wellFormed = true) (hcw : encode i = cw) :
    decode cw = .ok i :=
  hcw ▸ decodeOfEncode i hwf

/-- Settles O4: each written word is the encoding of its instruction. -/
theorem writtenWordsDecode : Obligations.WrittenWordsDecode :=
  ⟨decode_of_encode_eq rfl (by decide), decode_of_encode_eq rfl (by decide), decode_of_encode_eq (by decide) (by decide),
    decode_of_encode_eq rfl (by decide)⟩

end Sys2Proof
end

section
/-! The one response every accepted word is owed (R55): what the skeleton, XPOSE and a failed decoding answer with. -/

namespace Sys2Proof.Machine

theorem answered_settle_respond (s : State) (d : Datapath) (c : Job) (st : Status) (rr rs : Byte) :
    Answered s (((s.withDatapath d).settle c).respond st rr rs) (responseWord st rr rs) := by
  obtain ⟨_, hcmd, hcommands, hresponses, hbacked, _⟩ := State.settle_frame (s.withDatapath d) c
  simp [Answered, hcmd, hcommands, hresponses, hbacked]

/-- A TRANSCODE is refused because its access set is not backed, or answers once, with both results 0. -/
theorem transcode_refused_or_answers (a : TransferArgs) (planes w : Nat) (routine : Job → Datapath → Flow) (s : State) :
    (transcode a planes w routine s = .refused .unbackedAddress ∧ Admitted w a.nbytes.toInt ∧ 0 < planes ∧
      ¬ (Job.start a planes s.mem).allBacked s.backed) ∨
    ∃ t st, transcode a planes w routine s = .next t ∧ Answered s t (responseWord st 0#8 0#8) := by
  rcases transcode_cases a planes w routine s with
    ⟨_, h⟩ | ⟨_, _, h⟩ | ⟨hlen, hn, hp, ⟨hb, h⟩ | ⟨_, ⟨d, _, h⟩ | ⟨st, d, _, h⟩⟩⟩
  · exact .inr ⟨_, _, h, rfl, rfl, rfl, rfl, rfl⟩
  · exact .inr ⟨_, _, h, rfl, rfl, rfl, rfl, rfl⟩
  · exact .inl ⟨h, ⟨hn, (lengthCheck_eq_none.mp hlen).2⟩, hp, hb⟩
  · exact .inr ⟨_, _, h, answered_settle_respond s d _ _ _ _⟩
  · exact .inr ⟨_, _, h, answered_settle_respond s d _ _ _ _⟩

/-- What R55 asks of the response to `cw`: a status of R170, reserved bits 0, and results only from an XPOSE that
is OK. -/
def ResponseFits (cw : CommandWord) (resp : ResponseWord) : Prop :=
  (resp.extractLsb 3 0).toNat ≤ 6 ∧ resp.extractLsb 7 4 = 0#4 ∧ resp.extractLsb 31 24 = 0#8 ∧
    ((resp.extractLsb 15 8 ≠ 0#8 ∨ resp.extractLsb 23 16 ≠ 0#8) →
      resp.extractLsb 3 0 = 0#4 ∧ cw.extractLsb 7 0 = 0x02#8)

theorem responseWord_fits {cw : CommandWord} {st : Status} {rr rs : Byte}
    (h : rr ≠ 0#8 ∨ rs ≠ 0#8 → st = .ok ∧ fieldOpcode cw = 0x02#8) : ResponseFits cw (responseWord st rr rs) := by
  obtain ⟨hst, hlow, hrr, hrs, hhigh⟩ := responseWord_fields st rr rs
  rw [ResponseFits, hst, hlow, hrr, hrs, hhigh]
  refine ⟨statusCode_le st, rfl, rfl, fun hres => ?_⟩
  obtain ⟨rfl, hop⟩ := h hres
  exact ⟨rfl, hop⟩

theorem responseWord_zero_fits (cw : CommandWord) (st : Status) : ResponseFits cw (responseWord st 0#8 0#8) :=
  responseWord_fits fun h => by simp at h

/-- Executing a decoded command: a routine is refused for its access set, or there is one response, which fits. -/
theorem exec_refused_or_answers {cw : CommandWord} {i : Instr} (hdec : decode cw = .ok i) (s : State) :
    (exec i s = .refused .unbackedAddress ∧ ∃ a planes w, routineOf i = some (a, planes, w) ∧
      Admitted w a.nbytes.toInt ∧ 0 < planes ∧ ¬ (Job.start a planes s.mem).allBacked s.backed) ∨
    ∃ t resp, exec i s = .next t ∧ Answered s t resp ∧ ResponseFits cw resp := by
  rcases routineOf_or_xpose i with ⟨a, planes, w, hi⟩ | ⟨r, u, mask, shift, rfl⟩
  · rw [exec_eq_transcode hi]
    rcases transcode_refused_or_answers a planes w (runOf i) s with ⟨h, hcause⟩ | ⟨t, st, h, hans⟩
    · exact .inl ⟨h, a, planes, w, hi, hcause⟩
    · exact .inr ⟨t, _, h, hans, responseWord_zero_fits cw st⟩
  · obtain ⟨rfl, _⟩ := encodeOfDecode cw _ hdec
    exact .inr ⟨_, _, rfl, ⟨rfl, rfl, rfl, rfl, rfl⟩,
      responseWord_fits fun _ => ⟨rfl, fieldOpcode_encodeX r u mask shift⟩⟩

/-- Settles O7: a word that decodes is executed, and any other is answered with its status. -/
theorem oneResponsePerCommand : Obligations.OneResponsePerCommand := by
  intro s cw rest hpres
  obtain ⟨hport, hcommands⟩ := hpres
  have hacc := State.accept_idle_some hport hcommands
  cases hdec : decode cw with
  | error st =>
    exact .inr ⟨_, _, step_of_decode_error hacc hdec, rfl, rfl, rfl, rfl, rfl, responseWord_zero_fits cw st⟩
  | ok i =>
    rw [step_of_decode_ok hacc hdec]
    rcases exec_refused_or_answers hdec _ with ⟨h, a, planes, w, hcause⟩ | ⟨t, resp, h, hans, hfits⟩
    · exact .inl ⟨h, i, a, planes, w, rfl, hcause⟩
    · obtain ⟨hidle, hresponses, hcmd, hcommands, hbacked⟩ := hans
      exact .inr ⟨t, resp, h, hidle, hcmd, hcommands, hresponses, hbacked, hfits⟩

end Sys2Proof.Machine
end

section
/-! The bit-transpose primitive (R70): what each result bit is, and what follows for the pair of operands. -/

namespace Sys2Proof.Machine

/-! Bits by their place relative to a shift: the low `shift` ones have no partner, the others are `i + shift`. -/

/-- Two bytes agree when they agree below a shift and at every position moved up by it. -/
theorem byte_ext_at_shift {x y : Byte} (shift : Nat) (hlow : ∀ j, j < shift → x.getLsbD j = y.getLsbD j)
    (hhigh : ∀ i, i + shift < 8 → x.getLsbD (i + shift) = y.getLsbD (i + shift)) : x = y := by
  refine BitVec.eq_of_getLsbD_eq fun j hj => ?_
  rcases Nat.lt_or_ge j shift with hlt | hle
  · exact hlow j hlt
  · obtain ⟨i, rfl⟩ := Nat.exists_eq_add_of_le' hle
    exact hhigh i hj

theorem ones_eq_sum (x : Byte) : ones x = ∑ i ∈ Finset.range 8, (x.getLsbD i).toNat := rfl

/-- The ones of a byte below a shift and those above it; positions past the byte add nothing. -/
theorem ones_eq_sum_at_shift (x : Byte) (shift : Nat) :
    ones x = ∑ j ∈ Finset.range shift, (x.getLsbD j).toNat
      + ∑ i ∈ Finset.range 8, (x.getLsbD (i + shift)).toNat := by
  have past : ∑ k ∈ Finset.range shift, (x.getLsbD (8 + k)).toNat = 0 :=
    Finset.sum_eq_zero fun k _ => by rw [BitVec.getLsbD_of_ge x _ (Nat.le_add_right 8 k)]; rfl
  calc ones x = ∑ j ∈ Finset.range (8 + shift), (x.getLsbD j).toNat := by
        rw [Finset.sum_range_add, past, ones_eq_sum, Nat.add_zero]
    _ = _ := by rw [Nat.add_comm 8 shift, Finset.sum_range_add]; simp only [Nat.add_comm shift]

/-! The bits of the two results (R71). -/

/-- T marks the masked positions at which R and the partner in S differ. -/
theorem xposeRegs_t_getLsbD (r s mask : Byte) (shift i : Nat) :
    (xposeRegs r s mask shift).t.getLsbD i
      = (Bool.xor (s.getLsbD (i + shift)) (r.getLsbD i) && mask.getLsbD i) := by
  rw [xposeRegs, BitVec.getLsbD_and, BitVec.getLsbD_xor, BitVec.getLsbD_ushiftRight, Nat.add_comm]

/-- A masked bit of the first result comes from its partner, which is 0 past the byte. -/
theorem xpose_fst_getLsbD (r s mask : Byte) (shift i : Nat) :
    (xpose r s mask shift).1.getLsbD i = if mask.getLsbD i then s.getLsbD (i + shift) else r.getLsbD i := by
  change (r ^^^ (xposeRegs r s mask shift).t).getLsbD i = _
  rw [BitVec.getLsbD_xor, xposeRegs_t_getLsbD]
  cases mask.getLsbD i <;> simp [Bool.xor_comm (s.getLsbD (i + shift))]

theorem xpose_snd_getLsbD_of_lt (r s mask : Byte) {shift j : Nat} (h : j < shift) :
    (xpose r s mask shift).2.getLsbD j = s.getLsbD j := by
  simp [xpose, xposeRegs, h]

/-- A bit of the second result whose partner is masked comes from that partner, where the byte reaches so far. -/
theorem xpose_snd_getLsbD_add (r s mask : Byte) {shift i : Nat} (h : mask.getLsbD i = true → i + shift < 8) :
    (xpose r s mask shift).2.getLsbD (i + shift)
      = if mask.getLsbD i then r.getLsbD i else s.getLsbD (i + shift) := by
  change (s ^^^ (xposeRegs r s mask shift).t <<< shift).getLsbD (i + shift) = _
  rw [BitVec.getLsbD_xor, BitVec.getLsbD_shiftLeft, Nat.add_sub_cancel, xposeRegs_t_getLsbD]
  cases hm : mask.getLsbD i
  · simp
  · rw [decide_eq_true (h hm), decide_eq_false (Nat.not_lt.mpr (Nat.le_add_left shift i))]
    cases s.getLsbD (i + shift) <;> cases r.getLsbD i <;> rfl

/-- Settles O27: the second result splits at the shift, below which no bit has a partner. -/
theorem xposeExchangesBits : Obligations.XposeExchangesBits := by
  refine fun r s mask shift _ => ⟨fun i _ => ?_, fun j hj => ?_⟩
  · rw [xpose_fst_getLsbD]
    cases mask.getLsbD i
    · rfl
    · by_cases hin : i + shift ≤ 7
      · simp [hin]
      · simp [hin, BitVec.getLsbD_of_ge s (i + shift) (by omega)]
  · rcases Nat.lt_or_ge j shift with hlt | hle
    · rw [xpose_snd_getLsbD_of_lt r s mask hlt, if_neg fun h => Nat.not_lt.mpr h.1 hlt]
    · obtain ⟨i, rfl⟩ := Nat.exists_eq_add_of_le' hle
      simp [xpose_snd_getLsbD_add r s mask fun _ => hj]

/-! Where no set bit of the mask is shifted out, the primitive exchanges bits in pairs (R72 item 1). -/

section NoBitLost
variable {mask : Byte} {shift : Nat} (hkept : ∀ i, mask.getLsbD i = true → i + shift < 8)
include hkept

/-- The bits at `i` and at its partner are kept or exchanged, so together they have as many ones as before. -/
theorem xpose_pair_ones (r s : Byte) (i : Nat) :
    ((xpose r s mask shift).1.getLsbD i).toNat + ((xpose r s mask shift).2.getLsbD (i + shift)).toNat
      = (r.getLsbD i).toNat + (s.getLsbD (i + shift)).toNat := by
  rw [xpose_fst_getLsbD, xpose_snd_getLsbD_add r s mask (hkept i)]
  split
  · exact Nat.add_comm _ _
  · rfl

theorem xpose_keeps_ones (r s : Byte) :
    ones (xpose r s mask shift).1 + ones (xpose r s mask shift).2 = ones r + ones s := by
  have low : ∑ j ∈ Finset.range shift, ((xpose r s mask shift).2.getLsbD j).toNat
      = ∑ j ∈ Finset.range shift, (s.getLsbD j).toNat :=
    Finset.sum_congr rfl fun j hj => by rw [xpose_snd_getLsbD_of_lt r s mask (Finset.mem_range.mp hj)]
  have pairs := Finset.sum_congr (rfl : Finset.range 8 = _) fun i _ => xpose_pair_ones hkept r s i
  rw [Finset.sum_add_distrib, Finset.sum_add_distrib, ← ones_eq_sum, ← ones_eq_sum] at pairs
  rw [ones_eq_sum_at_shift (xpose r s mask shift).2 shift, ones_eq_sum_at_shift s shift, low]
  omega

theorem xpose_xpose (r s : Byte) :
    xpose (xpose r s mask shift).1 (xpose r s mask shift).2 mask shift = (r, s) := by
  refine Prod.ext (BitVec.eq_of_getLsbD_eq fun i _ => ?_)
    (byte_ext_at_shift shift (fun j hj => ?_) fun i _ => ?_)
  · rw [xpose_fst_getLsbD, xpose_snd_getLsbD_add r s mask (hkept i), xpose_fst_getLsbD]
    cases mask.getLsbD i <;> rfl
  · rw [xpose_snd_getLsbD_of_lt _ _ _ hj, xpose_snd_getLsbD_of_lt _ _ _ hj]
  · rw [xpose_snd_getLsbD_add _ _ mask (hkept i), xpose_fst_getLsbD, xpose_snd_getLsbD_add _ _ mask (hkept i)]
    cases mask.getLsbD i <;> rfl

end NoBitLost

/-- Settles O28: the condition puts the partner of every masked bit inside the byte. -/
theorem xposeIsInvolution : Obligations.XposeIsInvolution := by
  intro r s mask shift _ hlost
  have hkept : ∀ i, mask.getLsbD i = true → i + shift < 8 := fun i hm =>
    Nat.lt_of_not_le fun hout => by simp [hlost i (BitVec.lt_of_getLsbD hm) hout] at hm
  exact ⟨xpose_keeps_ones hkept r s, xpose_xpose hkept r s⟩

/-! R72 items 2 to 4. -/

theorem xpose_mask_zero (r s : Byte) (shift : Nat) : xpose r s 0x00#8 shift = (r, s) := by
  simp [xpose, xposeRegs]

theorem xpose_full_mask (r s : Byte) : xpose r s 0xFF#8 0 = (s, r) := by
  have full : ∀ i, i < 8 → (0xFF#8).getLsbD i = true := by decide
  refine Prod.ext (BitVec.eq_of_getLsbD_eq fun i hi => ?_) (BitVec.eq_of_getLsbD_eq fun i hi => ?_)
  · rw [xpose_fst_getLsbD, if_pos (full i hi), Nat.add_zero]
  · exact (xpose_snd_getLsbD_add r s _ fun _ => hi).trans (if_pos (full i hi))

theorem xpose_fst_and_not_mask (r s mask : Byte) (shift : Nat) :
    (xpose r s mask shift).1 &&& ~~~mask = r &&& ~~~mask := by
  refine BitVec.eq_of_getLsbD_eq fun i hi => ?_
  rw [BitVec.getLsbD_and, BitVec.getLsbD_and, xpose_fst_getLsbD]
  cases hm : mask.getLsbD i <;> simp [hm]

theorem xpose_snd_and_not_mask_shiftLeft (r s mask : Byte) (shift : Nat) :
    (xpose r s mask shift).2 &&& ~~~(mask <<< shift) = s &&& ~~~(mask <<< shift) := by
  refine byte_ext_at_shift shift (fun j hj => ?_) fun i hi => ?_
  · rw [BitVec.getLsbD_and, BitVec.getLsbD_and, xpose_snd_getLsbD_of_lt r s mask hj]
  · rw [BitVec.getLsbD_and, BitVec.getLsbD_and, xpose_snd_getLsbD_add r s mask fun _ => hi,
      BitVec.getLsbD_not, BitVec.getLsbD_shiftLeft, Nat.add_sub_cancel]
    cases mask.getLsbD i <;> simp [hi]

/-- Settles O29: the four laws. -/
theorem xposeKeepsUnmaskedBits : Obligations.XposeKeepsUnmaskedBits := fun r s mask shift _ =>
  ⟨xpose_mask_zero r s shift, xpose_full_mask r s, xpose_fst_and_not_mask r s mask shift,
    xpose_snd_and_not_mask_shiftLeft r s mask shift⟩

/-! The command XPOSE (R73). -/

/-- The response word of R55 for OK, its reserved bits and STATUS together. -/
theorem responseWord_ok (rr rs : Byte) : responseWord .ok rr rs = 0#8 ++ rs ++ rr ++ 0#8 :=
  BitVec.append_assoc

/-- Settles O26: the latches are `xposeRegs`, and the word is the response for OK. -/
theorem xposeResult : Obligations.XposeResult := by
  intro r s mask shift st t r' s'
  rw [← responseWord_ok]
  rfl

end Sys2Proof.Machine
end

section
/-! The reference stream of R89 group by group: what a group of a fixed routine has to be for the routine to write
the stream. -/

namespace Sys2Proof.Machine

/-- A ready routine with its output apart from what it reads completes with the reference stream in its output
(R89). -/
def WritesStream (i : Instr) (a : TransferArgs) (planes w : Nat) : Prop :=
  ∀ s, Ready a planes w s → Separate a planes s →
    ∃ t, exec i s = .next t ∧ Transcoded (Job.start a planes s.mem) s t ∧
      Interleaved (Job.start a planes s.mem) w s.mem t.mem

/-- The output bytes `X` of a group are its `gs` input bytes from each plane, `x p b`, interleaved in samples of `w`
bits: the reference stream of R89 within one group. -/
structure GroupStream (planes w gs : Nat) (X : (Nat → Nat → Byte) → List Byte) : Prop where
  length : ∀ x, (X x).length = planes * gs
  bits : ∀ x r u, r < planes * gs → u < 8 → ((X x).getD r 0).getLsbD (7 - u) =
    (x ((8 * r + u) / w % planes) (((8 * r + u) / w / planes * w + (8 * r + u) % w) / 8)).getLsbD
      (7 - ((8 * r + u) / w / planes * w + (8 * r + u) % w) % 8)

/-- Bytes that agree most significant bit first are equal. -/
theorem byte_eq_of_msb {x y : Byte} (h : ∀ u, u < 8 → x.getLsbD (7 - u) = y.getLsbD (7 - u)) : x = y :=
  BitVec.eq_of_getLsbD_eq fun i hi => by
    have := h (7 - i) (by omega)
    rwa [show 7 - (7 - i) = i by omega] at this

/-- The bits of a group are bits of its own input bytes alone. -/
theorem GroupStream.congr {planes w gs spg : Nat} {X : (Nat → Nat → Byte) → List Byte}
    (h : GroupStream planes w gs X) (hN : 0 < planes) (hw : 0 < w) (hgs : 8 * gs = w * spg)
    {x y : Nat → Nat → Byte} (hxy : ∀ p b, p < planes → b < gs → x p b = y p b) : X x = X y := by
  refine List.ext_getElem (by rw [h.length, h.length]) fun r hrx hry => ?_
  rw [← List.getD_eq_getElem _ 0 hrx, ← List.getD_eq_getElem _ 0 hry]
  rw [h.length] at hrx
  refine byte_eq_of_msb fun u hu => ?_
  rw [h.bits x r u hrx hu, h.bits y r u hrx hu]
  refine congrArg (BitVec.getLsbD · _) (hxy _ _ (Nat.mod_lt _ hN) ?_)
  generalize hq : 8 * r + u = q
  have hqw : q < w * (planes * spg) := by
    have : w * (planes * spg) = 8 * (planes * gs) := by
      calc _ = planes * (w * spg) := by ring
        _ = _ := by rw [← hgs]; ring
    omega
  have hk : q / w / planes < spg := Nat.div_lt_of_lt_mul (Nat.div_lt_of_lt_mul hqw)
  have hend : (q / w / planes + 1) * w ≤ spg * w := Nat.mul_le_mul_right w hk
  have ht := Nat.mod_lt q hw
  rw [Nat.succ_mul, Nat.mul_comm spg, ← hgs] at hend
  omega

/-- A routine that emits the stream group by group writes the reference stream. -/
theorem GroupStream.writesStream {i : Instr} {a : TransferArgs} {planes w gs spg : Nat}
    {X : (Nat → Nat → Byte) → List Byte} {group load : Job → Nat → Datapath → Datapath}
    (h : GroupStream planes w gs X) (hi : routineOf i = some (a, planes, w)) (hw : 0 < w) (h0 : 0 < gs)
    (hgs : 8 * gs = w * spg) (hdvd : ∀ n, Admitted w n → gs ∣ n.toNat)
    (hrun : ∀ c d, runOf i c d = .done (forUp (c.n / gs) (group c) d))
    (hemit : ∀ c g d, group c g d
      = Datapath.emit c (planes * gs * g) (X fun p b => d.plane c p (gs * g + b)) (load c g d))
    (hload : ∀ c g d, (load c g d).mem = d.mem) : WritesStream i a planes w := by
  intro s hR hS
  have hN : 0 < planes := hR.2.1
  have hst : gs * ((Job.start a planes s.mem).n / gs) = (Job.start a planes s.mem).n :=
    Nat.mul_div_cancel' (hdvd _ hR.1)
  obtain ⟨t, ht, htr, hbytes⟩ := exec_of_groups X (load _) hi hR hS hst (hrun _) (hemit _)
    (fun x y => h.congr hN hw hgs) (hload _) h.length
  exact ⟨t, ht, htr, interleaved_of_groups X hN hw h0 hst hgs h.bits hbytes⟩

theorem Admitted.three_dvd {n : Int} (h : Admitted 12 n) : 3 ∣ n.toNat := by
  obtain ⟨_, h3, _⟩ := h
  have := h3 rfl
  omega

theorem Admitted.twelve_dvd {n : Int} (h : Admitted 12 n) : 12 ∣ 8 * n.toNat := by
  have := h.three_dvd
  omega

theorem Admitted.sixteen_dvd {n : Int} (h : Admitted 16 n) : 16 ∣ 8 * n.toNat := by
  obtain ⟨_, _, h2⟩ := h
  have := h2 rfl
  omega

end Sys2Proof.Machine
end


section
/-! The groups of the fixed families (R103 to R107, R121 to R125) as pieces of the reference stream: byte by byte and
bit by bit, the input bit that each bit of a group's output is. -/

namespace Sys2Proof.Machine

/-! The 3-plane groups. -/

theorem getLsbD_foldl_or {ι : Type} {n : Nat} (l : List ι) (f : ι → BitVec n) (b : BitVec n) (q : Nat) :
    (l.foldl (fun acc j => acc ||| f j) b).getLsbD q = (b.getLsbD q || l.any fun j => (f j).getLsbD q) := by
  induction l generalizing b with
  | nil => simp
  | cons j l ih => simp [ih, Bool.or_assoc]

/-- A table entry of R101 or R102 has bit `q` exactly where one of its fields, of `len` bits of `x`, is moved to it. -/
theorem getElem_fields_eq_true_iff (x : Byte) (n len : Nat) (start shift : Nat → Nat) {q : Nat} (hq : q < 24) :
    ((List.range n).foldl
        (fun acc j => acc ||| ((x.extractLsb' (start j) len).setWidth 24 <<< shift j)) 0#24)[q] = true ↔
      ∃ j, j < n ∧ shift j ≤ q ∧ q < shift j + len ∧ x.getLsbD (start j + (q - shift j)) = true := by
  rw [← BitVec.getLsbD_eq_getElem, getLsbD_foldl_or]
  have hin (j : Nat) : shift j ≤ q ∧ q - shift j < len ↔ shift j ≤ q ∧ q < shift j + len := by omega
  simp [hq, ← and_assoc, ← hin]

theorem tab3x1_getElem (x : Byte) {q : Nat} (hq : q < 24) :
    (tab3x1 x)[q] = if q % 3 = 2 then x.getLsbD (q / 3) else false := by
  rw [Bool.eq_iff_iff, tab3x1, getElem_fields_eq_true_iff x 8 1 (fun j => j) _ hq, Bool.if_false_right,
    Bool.and_eq_true, decide_eq_true_eq]
  constructor
  · rintro ⟨j, _, hlow, hhigh, hx⟩
    rw [show j + (q - (3 * j + 2)) = q / 3 by omega] at hx
    exact ⟨by omega, hx⟩
  · rintro ⟨hq3, hx⟩
    refine ⟨q / 3, by omega, by omega, by omega, ?_⟩
    rwa [show q / 3 + (q - (3 * (q / 3) + 2)) = q / 3 by omega]

theorem tab3x2_getElem (x : Byte) {q : Nat} (hq : q < 24) :
    (tab3x2 x)[q] = if 4 ≤ q % 6 then x.getLsbD (2 * (q / 6) + (q % 6 - 4)) else false := by
  rw [Bool.eq_iff_iff, tab3x2, getElem_fields_eq_true_iff x 4 2 (fun j => 2 * j) _ hq, Bool.if_false_right,
    Bool.and_eq_true, decide_eq_true_eq]
  constructor
  · rintro ⟨j, _, hlow, hhigh, hx⟩
    rw [show 2 * j + (q - (6 * j + 4)) = 2 * (q / 6) + (q % 6 - 4) by omega] at hx
    exact ⟨by omega, hx⟩
  · rintro ⟨hq6, hx⟩
    refine ⟨q / 6, by omega, by omega, by omega, ?_⟩
    rwa [show 2 * (q / 6) + (q - (6 * (q / 6) + 4)) = 2 * (q / 6) + (q % 6 - 4) by omega]

/-- B24 is written most significant byte first. -/
theorem bytes24_getD_getLsbD (b : BitVec 24) {r u : Nat} (hr : r < 3) (hu : u < 8) :
    ((bytes24 b).getD r 0).getLsbD (7 - u) = b.getLsbD (23 - (8 * r + u)) := by
  have hlt : 7 - u < 8 := by omega
  interval_cases r <;> simp [bytes24, hlt] <;> congr 1 <;> omega

theorem flip3x1_groupStream : GroupStream 3 1 1 fun x =>
    bytes24 (tab3x1 (x 0 0) ||| (tab3x1 (x 1 0) >>> 1) ||| (tab3x1 (x 2 0) >>> 2)) where
  length := fun _ => rfl
  bits := fun x r u hr hu => by
    have hq : 8 * r + u < 24 := by omega
    rw [bytes24_getD_getLsbD _ hr hu]
    generalize 8 * r + u = q at hq ⊢
    interval_cases q <;> simp [tab3x1_getElem]

theorem flip3x2_groupStream : GroupStream 3 2 1 fun x =>
    bytes24 (tab3x2 (x 0 0) ||| (tab3x2 (x 1 0) >>> 2) ||| (tab3x2 (x 2 0) >>> 4)) where
  length := fun _ => rfl
  bits := fun x r u hr hu => by
    have hq : 8 * r + u < 24 := by omega
    rw [bytes24_getD_getLsbD _ hr hu]
    generalize 8 * r + u = q at hq ⊢
    interval_cases q <;> simp [tab3x2_getElem]

theorem flip3x4_groupStream : GroupStream 3 4 1 fun x => bytes3x4 (x 0 0) (x 1 0) (x 2 0) where
  length := fun _ => rfl
  bits := fun x r u hr hu => by
    interval_cases r <;> simp only [bytes3x4, List.getD_cons_zero, List.getD_cons_succ] <;>
      interval_cases u <;> simp

theorem flip3x8_groupStream : GroupStream 3 8 1 fun x => [x 0 0, x 1 0, x 2 0] where
  length := fun _ => rfl
  bits := fun x r u hr hu => by
    have hp : (8 * r + u) / 8 = r := by omega
    have hb : (8 * r + u) % 8 = u := by omega
    rw [hp, hb]
    interval_cases r <;> simp [Nat.div_eq_of_lt hu, Nat.mod_eq_of_lt hu]

/-- The three input bytes of plane `p` in a group of depth 12. -/
def groupTriple (x : Nat → Nat → Byte) (p : Nat) : Triple := ⟨x p 0, x p 1, x p 2⟩

theorem flip3x12_groupStream : GroupStream 3 12 3 fun x =>
    bytes3x12 (groupTriple x 0) (groupTriple x 1) (groupTriple x 2) where
  length := fun _ => rfl
  bits := fun x r u hr hu => by
    interval_cases r <;> simp only [bytes3x12, groupTriple, List.getD_cons_zero, List.getD_cons_succ] <;>
      interval_cases u <;> simp

/-! The 4-plane groups. -/

theorem xpose_fst_getElem (r s mask : Byte) (shift : Nat) {j : Nat} (hj : j < 8) :
    (xpose r s mask shift).1[j] = if mask.getLsbD j then s.getLsbD (j + shift) else r[j] := by
  rw [← BitVec.getLsbD_eq_getElem, xpose_fst_getLsbD, BitVec.getLsbD_eq_getElem (x := r)]

/-- A bit of the second result is its partner's where the partner is masked. -/
theorem xpose_snd_getElem (r s mask : Byte) (shift : Nat) {j : Nat} (hj : j < 8) :
    (xpose r s mask shift).2[j]
      = if shift ≤ j ∧ mask.getLsbD (j - shift) = true then r.getLsbD (j - shift) else s[j] := by
  rw [← BitVec.getLsbD_eq_getElem, ← BitVec.getLsbD_eq_getElem]
  rcases Nat.lt_or_ge j shift with hlt | hle
  · rw [xpose_snd_getLsbD_of_lt r s mask hlt, if_neg fun h => absurd h.1 (Nat.not_le.mpr hlt)]
  · obtain ⟨i, rfl⟩ := Nat.exists_eq_add_of_le' hle
    rw [xpose_snd_getLsbD_add r s mask fun _ => hj, Nat.add_sub_cancel]
    simp

/-- The output bytes of R121 for one input byte of each plane. -/
def bytes4x1 (x y z v : Byte) : List Byte :=
  let b12 := xpose x y 0x55#8 1
  let b34 := xpose z v 0x55#8 1
  let b13 := xpose b12.1 b34.1 0x33#8 2
  let b24 := xpose b12.2 b34.2 0x33#8 2
  [(b13.1 &&& 0xF0#8) ||| (b24.1 >>> 4), (b13.2 &&& 0xF0#8) ||| (b24.2 >>> 4),
    (b13.1 <<< 4) ||| (b24.1 &&& 0x0F#8), (b13.2 <<< 4) ||| (b24.2 &&& 0x0F#8)]

/-- The output bytes of R122 for one input byte of each plane. -/
def bytes4x2 (x y z v : Byte) : List Byte :=
  let b13 := xpose x z 0x0F#8 4
  let b24 := xpose y v 0x0F#8 4
  let b12 := xpose b13.1 b24.1 0x33#8 2
  let b34 := xpose b13.2 b24.2 0x33#8 2
  [b12.1, b12.2, b34.1, b34.2]

/-- The output bytes of R123 for one input byte of each plane. -/
def bytes4x4 (x y z v : Byte) : List Byte :=
  [(x &&& 0xF0#8) ||| (y >>> 4), (z &&& 0xF0#8) ||| (v >>> 4), (x <<< 4) ||| (y &&& 0x0F#8),
    (z <<< 4) ||| (v &&& 0x0F#8)]

theorem flip4x1_groupStream : GroupStream 4 1 1 fun x => bytes4x1 (x 0 0) (x 1 0) (x 2 0) (x 3 0) where
  length := fun _ => rfl
  bits := fun x r u hr hu => by
    interval_cases r <;> simp only [bytes4x1, List.getD_cons_zero, List.getD_cons_succ] <;>
      interval_cases u <;> simp [xpose_fst_getElem, xpose_snd_getElem]

theorem flip4x2_groupStream : GroupStream 4 2 1 fun x => bytes4x2 (x 0 0) (x 1 0) (x 2 0) (x 3 0) where
  length := fun _ => rfl
  bits := fun x r u hr hu => by
    interval_cases r <;> simp only [bytes4x2, List.getD_cons_zero, List.getD_cons_succ] <;>
      interval_cases u <;> simp [xpose_fst_getElem, xpose_snd_getElem]

theorem flip4x4_groupStream : GroupStream 4 4 1 fun x => bytes4x4 (x 0 0) (x 1 0) (x 2 0) (x 3 0) where
  length := fun _ => rfl
  bits := fun x r u hr hu => by
    interval_cases r <;> simp only [bytes4x4, List.getD_cons_zero, List.getD_cons_succ] <;>
      interval_cases u <;> simp

theorem flip4x8_groupStream : GroupStream 4 8 1 fun x => [x 0 0, x 1 0, x 2 0, x 3 0] where
  length := fun _ => rfl
  bits := fun x r u hr hu => by
    have hp : (8 * r + u) / 8 = r := by omega
    have hb : (8 * r + u) % 8 = u := by omega
    rw [hp, hb]
    interval_cases r <;> simp [Nat.div_eq_of_lt hu, Nat.mod_eq_of_lt hu]

theorem flip4x12_groupStream : GroupStream 4 12 3 fun x =>
    bytes4x12 (groupTriple x 0) (groupTriple x 1) (groupTriple x 2) (groupTriple x 3) where
  length := fun _ => rfl
  bits := fun x r u hr hu => by
    interval_cases r <;> simp only [bytes4x12, groupTriple, List.getD_cons_zero, List.getD_cons_succ] <;>
      interval_cases u <;> simp

/-! The fixed routines of depths 1 to 12. -/

/-- A routine that emits the stream for one input byte of each plane at a time. -/
theorem GroupStream.writesStream_bytewise {i : Instr} {a : TransferArgs} {planes w : Nat}
    {X : (Nat → Nat → Byte) → List Byte} {group load : Job → Nat → Datapath → Datapath}
    (h : GroupStream planes w 1 X) (hi : routineOf i = some (a, planes, w)) (hw : 0 < w) (hdvd : w ∣ 8)
    (hrun : ∀ c d, runOf i c d = .done (forUp c.n (group c) d))
    (hemit : ∀ c k d, group c k d
      = Datapath.emit c (planes * k) (X fun p b => d.plane c p (k + b)) (load c k d))
    (hload : ∀ c k d, (load c k d).mem = d.mem) : WritesStream i a planes w := by
  refine h.writesStream (group := group) (load := load) hi hw one_pos (Nat.mul_div_cancel' hdvd).symm
    (fun _ _ => one_dvd _) (fun c d => ?_) (fun c k d => ?_) hload
  · rw [hrun, Nat.div_one]
  · simp only [hemit, Nat.mul_one, Nat.one_mul]

theorem flip3x1_writesStream (a : TransferArgs) : WritesStream (.flip3x1 a) a 3 1 :=
  flip3x1_groupStream.writesStream_bytewise (group := flip3x1Group) rfl (by decide) (by decide) (fun _ _ => rfl)
    (fun _ _ _ => rfl) fun _ _ _ => rfl

theorem flip3x2_writesStream (a : TransferArgs) : WritesStream (.flip3x2 a) a 3 2 :=
  flip3x2_groupStream.writesStream_bytewise (group := flip3x2Group) rfl (by decide) (by decide) (fun _ _ => rfl)
    (fun _ _ _ => rfl) fun _ _ _ => rfl

theorem flip3x4_writesStream (a : TransferArgs) : WritesStream (.flip3x4 a) a 3 4 :=
  flip3x4_groupStream.writesStream_bytewise (group := flip3x4Group) rfl (by decide) (by decide) (fun _ _ => rfl)
    (fun _ _ _ => rfl) fun _ _ _ => rfl

theorem flip3x8_writesStream (a : TransferArgs) : WritesStream (.flip3x8 a) a 3 8 :=
  flip3x8_groupStream.writesStream_bytewise (group := flip3x8Group) rfl (by decide) (by decide) (fun _ _ => rfl)
    (fun _ _ _ => rfl) fun _ _ _ => rfl

theorem flip3x12_writesStream (a : TransferArgs) : WritesStream (.flip3x12 a) a 3 12 :=
  flip3x12_groupStream.writesStream (group := flip3x12Group) (spg := 2) rfl (by decide) (by decide) rfl
    (fun _ h => h.three_dvd) (fun _ _ => rfl) (fun _ _ _ => rfl) fun _ _ _ => rfl

theorem flip4x1_writesStream (a : TransferArgs) : WritesStream (.flip4x1 a) a 4 1 :=
  flip4x1_groupStream.writesStream_bytewise (group := flip4x1Group) rfl (by decide) (by decide) (fun _ _ => rfl)
    (fun _ _ _ => rfl) fun _ _ _ => rfl

theorem flip4x2_writesStream (a : TransferArgs) : WritesStream (.flip4x2 a) a 4 2 :=
  flip4x2_groupStream.writesStream_bytewise (group := flip4x2Group) rfl (by decide) (by decide) (fun _ _ => rfl)
    (fun _ _ _ => rfl) fun _ _ _ => rfl

theorem flip4x4_writesStream (a : TransferArgs) : WritesStream (.flip4x4 a) a 4 4 :=
  flip4x4_groupStream.writesStream_bytewise (group := flip4x4Group) rfl (by decide) (by decide) (fun _ _ => rfl)
    (fun _ _ _ => rfl) fun _ _ _ => rfl

theorem flip4x8_writesStream (a : TransferArgs) : WritesStream (.flip4x8 a) a 4 8 :=
  flip4x8_groupStream.writesStream_bytewise (group := flip4x8Group) rfl (by decide) (by decide) (fun _ _ => rfl)
    (fun _ _ _ => rfl) fun _ _ _ => rfl

theorem flip4x12_writesStream (a : TransferArgs) : WritesStream (.flip4x12 a) a 4 12 :=
  flip4x12_groupStream.writesStream (group := flip4x12Group) (spg := 2) rfl (by decide) (by decide) rfl
    (fun _ h => h.three_dvd) (fun _ _ => rfl) (fun _ _ _ => rfl) fun _ _ _ => rfl

end Sys2Proof.Machine
end

section
/-! The reference stream of R89 sample by sample: the depth-16 copies (R108, R126, R152) and the generic path's packers
(R146, R151). -/

namespace Sys2Proof.Machine

/-- A routine whose run leaves the whole reference stream in the output writes the stream. -/
theorem writesStream_of_progress {i : Instr} {a : TransferArgs} {planes w : Nat}
    (hi : routineOf i = some (a, planes, w)) (hdvd : ∀ n, Admitted w n → w ∣ 8 * n.toNat)
    (hrun : ∀ c d, c.planes = planes → c.disjoint → w ∣ 8 * c.n →
      ∃ e, runOf i c d = .done e ∧ Progress c d.mem (refByte d.mem c w) (c.planes * c.n) e) :
    WritesStream i a planes w := by
  intro s hR hS
  have hw := hdvd _ hR.1
  obtain ⟨d, hd, hbytes, hother⟩ :=
    hrun (Job.start a planes s.mem) (s.datapath.setPp (Job.start a planes s.mem).pp) rfl hS hw
  refine ⟨_, exec_of_done hi hR hd, transcoded_of_outputOnly hother, ?_⟩
  rw [State.settle_of_disjoint hS]
  refine interleaved_of_refBit (fun j u hj hu => ?_) (Nat.mul_div_cancel' hw)
  exact (congrArg (BitVec.getLsbD · (7 - u)) (hbytes j hj)).trans (refByte_bit _ _ _ _ hu)

/-- The samples up to and with sample `k` of plane `p` are among all samples. -/
theorem sample_end_le {k p samples planes : Nat} (hk : k < samples) (hp : p < planes) :
    k * planes + p + 1 ≤ samples * planes :=
  calc k * planes + p + 1 ≤ (k + 1) * planes := by rw [Nat.succ_mul]; omega
    _ ≤ samples * planes := Nat.mul_le_mul_right planes hk

/-- While the output grows, a bit of sample `k` of plane `p` reads as the reference stream's bit for it. -/
theorem Progress.plane_bit {c : Job} {m : Memory} {B : Nat → Byte} {L : Nat} {d : Datapath}
    (h : Progress c m B L d) (hd : c.disjoint) (hL : L ≤ c.planes * c.n) {w k p t : Nat}
    (hp : p < c.planes) (ht : t < w) (hn : k * w + t < 8 * c.n) :
    (d.plane c p ((k * w + t) / 8)).getLsbD (7 - (k * w + t) % 8)
      = refBit m c w ((k * c.planes + p) * w + t) := by
  rw [refBit_sample m c hp ht, h.plane hd hL hp (by omega)]
  rfl

/-! The depth-16 copies. -/

/-- Copying the next sample of 16 bits (R108, R126, R152). -/
theorem Progress.copySample16 {c : Job} {m : Memory} {k p : Nat} {d : Datapath}
    (h : Progress c m (refByte m c 16) (2 * (k * c.planes + p)) d) (hd : c.disjoint)
    (hk : 2 * k + 1 < c.n) (hp : p < c.planes) (hroom : 2 * (k * c.planes + p + 1) ≤ c.planes * c.n) :
    Progress c m (refByte m c 16) (2 * (k * c.planes + p + 1))
      (Machine.copySample16 c (2 * (k * c.planes + p)) k p d) := by
  have hbyte (b : Nat) (hb : b < 2) :
      d.plane c p (2 * k + b) = refByte m c 16 (2 * (k * c.planes + p) + b) := by
    refine eq_refByte fun u hu => ?_
    have := h.plane_bit hd (by omega) hp (w := 16) (k := k) (t := 8 * b + u) (by omega) (by omega)
    rwa [show (k * 16 + (8 * b + u)) / 8 = 2 * k + b by omega, show (k * 16 + (8 * b + u)) % 8 = u by omega,
      show (k * c.planes + p) * 16 + (8 * b + u) = 8 * (2 * (k * c.planes + p) + b) + u by omega] at this
  have hlt := c.size_lt (by omega) hd
  refine h.emit (vs := [d.plane c p (2 * k), d.plane c p (2 * k + 1)]) ?_ fun b hb => ?_
  · simp only [List.length_cons, List.length_nil]; omega
  · have hb' : b < 2 := hb
    interval_cases b
    · exact hbyte 0 (by decide)
    · exact hbyte 1 (by decide)

/-- The loops of a depth-16 routine write the reference stream. -/
theorem progress_of_copies {c : Job} {planes : Nat} {dest : Nat → Nat → Nat} {pre : Nat → Datapath → Datapath}
    {load : Nat → Nat → Datapath → Datapath} (hN : c.planes = planes) (hd : c.disjoint) (hn : 16 ∣ 8 * c.n)
    (hdest : ∀ k p, dest k p = 2 * (k * planes + p)) (hpre : ∀ k y, (pre k y).mem = y.mem)
    (hload : ∀ k p y, (load k p y).mem = y.mem) (d : Datapath) :
    Progress c d.mem (refByte d.mem c 16) (c.planes * c.n)
      (forUp (c.n / 2) (fun k y =>
        forUp planes (fun p y => copySample16 c (dest k p) k p (load k p y)) (pre k y)) d) := by
  subst hN
  have hsize : 2 * (c.n / 2 * c.planes) = c.planes * c.n := by
    calc 2 * (c.n / 2 * c.planes) = c.planes * (2 * (c.n / 2)) := by ring
      _ = c.planes * c.n := by rw [show 2 * (c.n / 2) = c.n by omega]
  have key := forUp_nested (fun q y => Progress c d.mem (refByte d.mem c 16) (2 * q) y)
    (Progress.start c _ d) (fun k _ y h => h.of_mem_eq (hpre k y))
    fun k p (hk : k < c.n / 2) hp y (h : Progress c d.mem _ (2 * (k * c.planes + p)) y) => by
      have hend := sample_end_le hk hp
      have hnext := (h.of_mem_eq (hload k p y)).copySample16 hd (by omega) hp (by omega)
      rwa [← hdest] at hnext
  rwa [hsize] at key

theorem flip3x16_writesStream (a : TransferArgs) : WritesStream (.flip3x16 a) a 3 16 :=
  writesStream_of_progress rfl (fun _ h => h.sixteen_dvd) fun c d hN hd hn =>
    ⟨_, rfl, progress_of_copies (dest := fun k p => 6 * k + 2 * p) (load := fun _ _ y => y)
      (pre := fun k y => y.atIndex (2 * k)) hN hd hn (fun _ _ => by omega) (fun _ _ => rfl) (fun _ _ _ => rfl) d⟩

theorem flip4x16_writesStream (a : TransferArgs) : WritesStream (.flip4x16 a) a 4 16 :=
  writesStream_of_progress rfl (fun _ h => h.sixteen_dvd) fun c d hN hd hn =>
    ⟨_, rfl, progress_of_copies (dest := fun k p => 8 * k + 2 * p) (load := fun _ _ y => y)
      (pre := fun k y => y.atIndex (2 * k)) hN hd hn (fun _ _ => by omega) (fun _ _ => rfl) (fun _ _ _ => rfl) d⟩

theorem flipnx16_writesStream (a : TransferArgs) (np : BitVec 32) :
    WritesStream (.flipnx16 a np) a (planeCount np) 16 :=
  writesStream_of_progress rfl (fun _ h => h.sixteen_dvd) fun c d _ hd hn =>
    ⟨_, rfl, progress_of_copies (load := fun k p y => y.atBit (k * 16) p)
      (pre := fun _ y => y) rfl hd hn (fun _ _ => rfl) (fun _ _ => rfl) (fun _ _ _ => rfl) (startCursor c d)⟩

/-! The packers. -/

/-- A routine that starts the cursor, appends each sample of the reference stream in turn and flushes. -/
theorem filled_of_samples {c : Job} {w : Nat} {step : Nat → Nat → Datapath → Datapath} (hn : w ∣ 8 * c.n)
    (d : Datapath)
    (hstep : ∀ k p y, k < 8 * c.n / w → p < c.planes → Filled c d.mem w ((k * c.planes + p) * w) y →
      Filled c d.mem w ((k * c.planes + p) * w + w) (step k p y)) :
    Filled c d.mem w (8 * (c.planes * c.n))
      (flush (forUp (8 * c.n / w) (fun k d => forUp c.planes (step k) d) (startCursor c d))) := by
  have hstart : Filled c d.mem w (0 * w) (startCursor c d) := by
    rw [Nat.zero_mul]
    exact Filled.start c w d
  have hloop := forUp_nested (pre := fun _ y => y) (fun q y => Filled c d.mem w (q * w) y) hstart
    (fun _ _ _ h => h) fun k p hk hp y h => by rw [Nat.succ_mul]; exact hstep k p y hk hp h
  have hsize : 8 * c.n / w * c.planes * w = 8 * (c.planes * c.n) := by
    calc 8 * c.n / w * c.planes * w = c.planes * (8 * c.n / w * w) := by ring
      _ = 8 * (c.planes * c.n) := by rw [Nat.div_mul_cancel hn]; ring
  rw [hsize] at hloop
  rwa [(hloop.adv.flush (Nat.mul_mod_right 8 _)).1]

/-- The bits of a sample and those before it are within the planes and within the output. -/
theorem sample_bits_le {w k p n planes : Nat} (hk : k < 8 * n / w) (hp : p < planes) :
    k * w + w ≤ 8 * n ∧ (k * planes + p) * w + w ≤ 8 * (planes * n) := by
  have hle : (k + 1) * w ≤ 8 * n := (Nat.mul_le_mul_right w hk).trans (Nat.div_mul_le_self (8 * n) w)
  refine ⟨by rwa [Nat.succ_mul] at hle, ?_⟩
  calc (k * planes + p) * w + w = (k * planes + p + 1) * w := (Nat.succ_mul _ w).symm
    _ ≤ (k + 1) * planes * w := Nat.mul_le_mul_right w (sample_end_le (Nat.lt_succ_self k) hp)
    _ = planes * ((k + 1) * w) := by ring
    _ ≤ planes * (8 * n) := Nat.mul_le_mul_left planes hle
    _ = 8 * (planes * n) := by ring

/-- An extracted field holds the byte's bits from `o` below its top on (R141). -/
theorem extractField_getLsbD (x : Byte) {o w t : Nat} (ho : o + w ≤ 8) (ht : t < w) :
    (extractField x o w).getLsbD (w - 1 - t) = x.getLsbD (7 - (o + t)) := by
  have hmask : (BitVec.ofNat 8 (2 ^ w - 1)).getLsbD (w - 1 - t) = true := by
    rw [BitVec.getLsbD_ofNat, Nat.testBit_two_pow_sub_one]
    simp only [Bool.and_eq_true, decide_eq_true_eq]
    omega
  rw [extractField, BitVec.getLsbD_setWidth, BitVec.getLsbD_and, BitVec.getLsbD_ushiftRight, hmask,
    show 8 - o - w + (w - 1 - t) = 7 - (o + t) by omega]
  simp [show w - 1 - t < 16 by omega]

/-- The packer's step appends the next sample of the reference stream (R146). -/
theorem Filled.readField_appendBits {c : Job} {m : Memory} {w k p : Nat} {d : Datapath}
    (h : Filled c m w ((k * c.planes + p) * w) d) (hw : w = 1 ∨ w = 2 ∨ w = 4 ∨ w = 8) (hd : c.disjoint)
    (hk : k < 8 * c.n / w) (hp : p < c.planes) :
    Filled c m w ((k * c.planes + p) * w + w) (Machine.appendBits w (readField c w (k * w) p d)) := by
  obtain ⟨hin, hout⟩ := sample_bits_le hk hp
  have hlt := c.size_lt (by omega) hd
  have hread : Filled c m w ((k * c.planes + p) * w) (readField c w (k * w) p d) := h.of_eq rfl rfl
  have halign : k * w % 8 + w ≤ 8 ∧ (k * c.planes + p) * w % 8 + w ≤ 8 := by
    rcases hw with rfl | rfl | rfl | rfl <;> omega
  refine hread.appendBits (by omega) halign.2 (by omega) (extractField_lt _ _ (by omega)) fun t ht => ?_
  have hbit := h.progress.plane_bit hd (by omega) hp (k := k) ht (by omega)
  rw [show (k * w + t) / 8 = k * w / 8 by omega, show (k * w + t) % 8 = k * w % 8 + t by omega] at hbit
  exact (extractField_getLsbD _ halign.1 ht).trans hbit

theorem packerRun_progress {c : Job} {w : Nat} (hw : w = 1 ∨ w = 2 ∨ w = 4 ∨ w = 8) (hd : c.disjoint)
    (hn : w ∣ 8 * c.n) (d : Datapath) :
    Progress c d.mem (refByte d.mem c w) (c.planes * c.n) (packerRun w c d) := by
  have h := (filled_of_samples hn d fun k p y hk hp h => h.readField_appendBits hw hd hk hp).progress
  rwa [Nat.mul_div_cancel_left _ (by decide)] at h

/-- A routine that runs the shared packer writes the reference stream. -/
theorem writesStream_of_packer {i : Instr} {a : TransferArgs} {planes w : Nat}
    (hi : routineOf i = some (a, planes, w)) (hw : w = 1 ∨ w = 2 ∨ w = 4 ∨ w = 8)
    (hrun : ∀ c d, runOf i c d = packer w c d) : WritesStream i a planes w :=
  writesStream_of_progress hi (fun n _ => by rcases hw with rfl | rfl | rfl | rfl <;> omega)
    fun c d _ hd hn => ⟨_, (hrun c d).trans (packer_eq_done w c d), packerRun_progress hw hd hn d⟩

/-- The bits of an extracted 12-bit sample are those of its plane from the bit index on (R144). -/
theorem extract12_v_getLsbD (c : Job) (p : Nat) {bi t : Nat} (d : Datapath) (hbi : bi % 8 = 0 ∨ bi % 8 = 4)
    (ht : t < 12) :
    (extract12 c p bi d).lat.v.getLsbD (11 - t) = (d.plane c p ((bi + t) / 8)).getLsbD (7 - (bi + t) % 8) := by
  have hbyte : (bi + t) / 8 = bi / 8 + (bi % 8 + t) / 8 := by omega
  have hplace : (bi + t) % 8 = (bi % 8 + t) % 8 := by omega
  rw [hbyte, hplace, extract12, Datapath.setV_v]
  rcases hbi with h | h <;> rw [h] <;> interval_cases t <;> simp

theorem extract12_v_lt (c : Job) (p bi : Nat) (d : Datapath) : (extract12 c p bi d).lat.v.toNat < 2 ^ 12 := by
  refine Nat.lt_pow_two_of_testBit _ fun i hi => ?_
  change (extract12 c p bi d).lat.v.getLsbD i = false
  have hpast (x : Byte) {j : Nat} (hj : 8 ≤ j) : x.getLsbD j = false := BitVec.getLsbD_of_ge x j hj
  have hmask : (0x0F#16).getLsbD (i - 8) = false :=
    Nat.testBit_lt_two_pow (lt_of_lt_of_le (by decide : 15 < 2 ^ 4) (Nat.pow_le_pow_right two_pos (by omega)))
  rw [extract12, Datapath.setV_v]
  split
  · simp [hpast _ (show 8 ≤ i - 4 by omega), hpast _ (show 8 ≤ 4 + i by omega)]
  · simp [hpast _ (show 8 ≤ i by omega), hmask]

theorem Filled.packField12 {c : Job} {m : Memory} {k p : Nat} {d : Datapath}
    (h : Filled c m 12 ((k * c.planes + p) * 12) d) (hd : c.disjoint) (hk : k < 8 * c.n / 12) (hp : p < c.planes) :
    Filled c m 12 ((k * c.planes + p) * 12 + 12) (Machine.packField12 c (k * 12) p d) := by
  obtain ⟨hin, hout⟩ := sample_bits_le hk hp
  have hlt := c.size_lt (by omega) hd
  have hread : Filled c m 12 ((k * c.planes + p) * 12) (extract12 c p (k * 12) (d.atBit (k * 12) p)) :=
    h.of_eq rfl rfl
  refine hread.append12 (by omega) (by omega) (extract12_v_lt _ _ _ _) fun t ht => ?_
  exact (extract12_v_getLsbD c p (d.atBit (k * 12) p) (by omega) ht).trans
    (h.progress.plane_bit hd (by omega) hp ht (by omega))

theorem packer12_progress {c : Job} (hd : c.disjoint) (hn : 12 ∣ 8 * c.n) (d : Datapath) :
    Progress c d.mem (refByte d.mem c 12) (c.planes * c.n) (packer12 c d) := by
  have h := (filled_of_samples hn d fun k p y hk hp h => h.packField12 hd hk hp).progress
  rwa [Nat.mul_div_cancel_left _ (by decide)] at h

theorem flipnx12_writesStream (a : TransferArgs) (np : BitVec 32) :
    WritesStream (.flipnx12 a np) a (planeCount np) 12 :=
  writesStream_of_progress rfl (fun _ h => h.twelve_dvd)
    fun _ d _ hd hn => ⟨_, rfl, packer12_progress hd hn d⟩

end Sys2Proof.Machine
end

section
/-! The statements about the reference stream of R89 and what follows from it, for all 18 routines at once. -/

namespace Sys2Proof.Machine

/-- Each of the 18 routines writes the reference stream. -/
theorem routineOf_writesStream {i : Instr} {a : TransferArgs} {planes w : Nat}
    (hi : routineOf i = some (a, planes, w)) : WritesStream i a planes w := by
  cases i with
  | xpose r t mask shift => cases hi
  | flip3x1 b => cases hi; exact flip3x1_writesStream a
  | flip3x2 b => cases hi; exact flip3x2_writesStream a
  | flip3x4 b => cases hi; exact flip3x4_writesStream a
  | flip3x8 b => cases hi; exact flip3x8_writesStream a
  | flip3x12 b => cases hi; exact flip3x12_writesStream a
  | flip3x16 b => cases hi; exact flip3x16_writesStream a
  | flip4x1 b => cases hi; exact flip4x1_writesStream a
  | flip4x2 b => cases hi; exact flip4x2_writesStream a
  | flip4x4 b => cases hi; exact flip4x4_writesStream a
  | flip4x8 b => cases hi; exact flip4x8_writesStream a
  | flip4x12 b => cases hi; exact flip4x12_writesStream a
  | flip4x16 b => cases hi; exact flip4x16_writesStream a
  | flipnx1 b np => cases hi; exact writesStream_of_packer rfl (by simp) fun _ _ => rfl
  | flipnx2 b np => cases hi; exact writesStream_of_packer rfl (by simp) fun _ _ => rfl
  | flipnx4 b np => cases hi; exact writesStream_of_packer rfl (by simp) fun _ _ => rfl
  | flipnx8 b np => cases hi; exact writesStream_of_packer rfl (by simp) fun _ _ => rfl
  | flipnx12 b np => cases hi; exact flipnx12_writesStream a np
  | flipnx16 b np => cases hi; exact flipnx16_writesStream a np

/-- Settles O54: routine by routine. -/
theorem routinesWriteReferenceStream : Obligations.RoutinesWriteReferenceStream :=
  fun _ _ _ _ s hi => routineOf_writesStream hi s

/-- Settles O38: the six routines are among the 18. -/
theorem fixed3IsReferenceStream : Obligations.Fixed3IsReferenceStream := by
  intro i a w s hmem
  have hi : routineOf i = some (a, 3, w) := by
    simp only [List.mem_cons, List.not_mem_nil, or_false, Prod.mk.injEq] at hmem
    rcases hmem with ⟨rfl, rfl⟩ | ⟨rfl, rfl⟩ | ⟨rfl, rfl⟩ | ⟨rfl, rfl⟩ | ⟨rfl, rfl⟩ | ⟨rfl, rfl⟩ <;> rfl
  exact routineOf_writesStream hi s

/-- Settles O46: the six routines are among the 18. -/
theorem fixed4IsReferenceStream : Obligations.Fixed4IsReferenceStream := by
  intro i a w s hmem
  have hi : routineOf i = some (a, 4, w) := by
    simp only [List.mem_cons, List.not_mem_nil, or_false, Prod.mk.injEq] at hmem
    rcases hmem with ⟨rfl, rfl⟩ | ⟨rfl, rfl⟩ | ⟨rfl, rfl⟩ | ⟨rfl, rfl⟩ | ⟨rfl, rfl⟩ | ⟨rfl, rfl⟩ <;> rfl
  exact routineOf_writesStream hi s

/-- Settles O50: the packer's four routines are among the 18. -/
theorem packerIsReferenceStream : Obligations.PackerIsReferenceStream := by
  intro i a np w s hmem
  obtain ⟨hi, _⟩ := runOf_generic (List.mem_append_left [(.flipnx12 a np, 12), (.flipnx16 a np, 16)] hmem)
  exact routineOf_writesStream hi s

/-- Settles O51. -/
theorem flipnx12IsReferenceStream : Obligations.Flipnx12IsReferenceStream :=
  fun a np s => flipnx12_writesStream a np s

/-! The output as bytes of the reference stream. -/

/-- The depth of a routine is in `D`. -/
theorem routineOf_depth {i : Instr} {a : TransferArgs} {planes w : Nat} (hi : routineOf i = some (a, planes, w)) :
    w = 1 ∨ w = 2 ∨ w = 4 ∨ w = 8 ∨ w = 12 ∨ w = 16 := by
  cases i <;> cases hi <;> simp

/-- The depth divides the bits of an admitted length. -/
theorem routineOf_dvd {i : Instr} {a : TransferArgs} {planes w : Nat} (hi : routineOf i = some (a, planes, w))
    {n : Int} (hn : Admitted w n) : w ∣ 8 * n.toNat := by
  rcases routineOf_depth hi with rfl | rfl | rfl | rfl | rfl | rfl
  · exact one_dvd _
  · omega
  · omega
  · omega
  · exact hn.twelve_dvd
  · exact hn.sixteen_dvd

/-- The sample, the plane and the place in the sample of a bit of the reference stream. -/
theorem stream_position_lt {w planes n q : Nat} (hw : w ∣ 8 * n) (hq : q < 8 * (planes * n)) :
    q / w / planes < 8 * n / w ∧ q / w % planes < planes ∧ q % w < w := by
  have hpos : 0 < planes * n := by omega
  have hsize : 8 * (planes * n) = w * (planes * (8 * n / w)) := by
    calc 8 * (planes * n) = planes * (w * (8 * n / w)) := by rw [Nat.mul_div_cancel' hw]; ring
      _ = w * (planes * (8 * n / w)) := by ring
  rw [hsize] at hq
  exact ⟨Nat.div_lt_of_lt_mul (Nat.div_lt_of_lt_mul hq), Nat.mod_lt _ (Nat.pos_of_mul_pos_right hpos),
    Nat.mod_lt _ (Nat.pos_of_mul_pos_right (Nat.zero_lt_of_lt hq))⟩

/-- An interleaved output is the reference stream byte by byte. -/
theorem Interleaved.outByte_eq {c : Job} {w : Nat} {m m' : Memory} (h : Interleaved c w m m') (hw : w ∣ 8 * c.n)
    {j : Nat} (hj : j < c.planes * c.n) : outByte m' c j = refByte m c w j := by
  refine eq_refByte fun u hu => ?_
  obtain ⟨hk, hp, ht⟩ := stream_position_lt (planes := c.planes) (q := 8 * j + u) hw (by omega)
  have hbit := h _ _ _ hk hp ht
  rw [Nat.mul_comm _ c.planes, Nat.div_add_mod, Nat.mul_comm _ w, Nat.div_add_mod, streamBit,
    show (8 * j + u) / 8 = j by omega, show (8 * j + u) % 8 = u by omega] at hbit
  exact hbit

/-- A routine that is ready with its output apart from what it reads: its response, its output bytes, and the rest of
memory. -/
theorem exec_outByte {i : Instr} {a : TransferArgs} {planes w : Nat} {s : State}
    (hi : routineOf i = some (a, planes, w)) (hR : Ready a planes w s) (hS : Separate a planes s) :
    ∃ t, exec i s = .next t ∧ Transcoded (Job.start a planes s.mem) s t ∧
      ∀ j, j < planes * (Job.start a planes s.mem).n →
        outByte t.mem (Job.start a planes s.mem) j = refByte s.mem (Job.start a planes s.mem) w j := by
  obtain ⟨t, ht, htr, hint⟩ := routineOf_writesStream hi s hR hS
  exact ⟨t, ht, htr, fun j hj => hint.outByte_eq (routineOf_dvd hi hR.1) hj⟩

/-! One plane. -/

/-- The reference stream of one plane is the plane (R94 item 3). -/
theorem refByte_one_plane (m : Memory) {c : Job} (hN : c.planes = 1) (w j : Nat) :
    refByte m c w j = inByte m c 0 j := by
  refine (eq_refByte fun u hu => ?_).symm
  rw [refBit, hN, Nat.mod_one, Nat.div_one, Nat.mul_comm _ w, Nat.div_add_mod, streamBit,
    show (8 * j + u) / 8 = j by omega, show (8 * j + u) % 8 = u by omega]
  rfl

/-- Settles O55: the output is the reference stream, and one plane's stream is the plane. -/
theorem onePlaneIsCopied : Obligations.OnePlaneIsCopied := by
  intro i a w s hmem hR hS
  have hi : routineOf i = some (a, 1, w) := (runOf_generic hmem).1
  obtain ⟨t, ht, htr, hout⟩ := exec_outByte hi hR hS
  exact ⟨t, ht, htr, fun j hj => (hout j (by rwa [Nat.one_mul])).trans (refByte_one_plane s.mem rfl w j)⟩

/-! Two routines on one state. -/

/-- Settles O56: both write the reference stream and nothing else. -/
theorem fixedEqualsGeneric : Obligations.FixedEqualsGeneric := by
  intro f g a planes w s hmem hR hS
  have hfg : routineOf f = some (a, planes, w) ∧ routineOf g = some (a, planes, w) := by
    simp only [List.mem_cons, List.not_mem_nil, or_false, Prod.mk.injEq] at hmem
    rcases hmem with ⟨rfl, rfl, rfl, rfl⟩ | ⟨rfl, rfl, rfl, rfl⟩ | ⟨rfl, rfl, rfl, rfl⟩ | ⟨rfl, rfl, rfl, rfl⟩ |
      ⟨rfl, rfl, rfl, rfl⟩ | ⟨rfl, rfl, rfl, rfl⟩ | ⟨rfl, rfl, rfl, rfl⟩ | ⟨rfl, rfl, rfl, rfl⟩ |
      ⟨rfl, rfl, rfl, rfl⟩ | ⟨rfl, rfl, rfl, rfl⟩ | ⟨rfl, rfl, rfl, rfl⟩ | ⟨rfl, rfl, rfl, rfl⟩ <;> exact ⟨rfl, rfl⟩
  obtain ⟨t, ht, ⟨⟨_, hresp, _⟩, hother⟩, hout⟩ := exec_outByte hfg.1 hR hS
  obtain ⟨t', ht', ⟨⟨_, hresp', _⟩, hother'⟩, hout'⟩ := exec_outByte hfg.2 hR hS
  refine ⟨t, t', ht, ht', hresp.trans hresp'.symm, fun x => ?_⟩
  by_cases hx : ∃ j < planes * (Job.start a planes s.mem).n, x = ((Job.start a planes s.mem).outAddr j).toNat
  · obtain ⟨j, hj, rfl⟩ := hx
    exact (hout j hj).trans (hout' j hj).symm
  · push Not at hx
    exact (hother x hx).trans (hother' x hx).symm

/-! One routine on two states. -/

/-- The job depends on the bytes of the plane table alone. -/
theorem Job.start_congr {a : TransferArgs} {planes : Nat} {m m' : Memory}
    (h : ∀ j, j < 4 * planes → Memory.read m' ((Job.start a planes m).tableAddr j).toNat
      = Memory.read m ((Job.start a planes m).tableAddr j).toNat) :
    Job.start a planes m' = Job.start a planes m := by
  have htable : Memory.planeTable m' a.ptab planes = Memory.planeTable m a.ptab planes := by
    refine List.map_congr_left fun p hp => ?_
    have hp' := List.mem_range.mp hp
    have hbyte (r : Nat) (hr : r < 4) : Memory.read m' (a.ptab + BitVec.ofNat 32 (4 * p) + BitVec.ofNat 32 r).toNat
        = Memory.read m (a.ptab + BitVec.ofNat 32 (4 * p) + BitVec.ofNat 32 r).toNat := by
      rw [BitVec.add_assoc, ← BitVec.ofNat_add]
      exact h (4 * p + r) (by omega)
    have h0 := hbyte 0 (by decide)
    rw [BitVec.add_zero] at h0
    rw [Memory.readEntry, Memory.readEntry, h0, hbyte 1 (by decide), hbyte 2 (by decide), hbyte 3 (by decide)]
  rw [Job.start, Job.start, htable]

/-- The reference stream is made of bytes of the planes alone. -/
theorem refByte_congr {m m' : Memory} {c : Job} {w j : Nat} (hw : w ∣ 8 * c.n) (hj : j < c.planes * c.n)
    (h : ∀ p k, p < c.planes → k < c.n → inByte m' c p k = inByte m c p k) :
    refByte m' c w j = refByte m c w j := by
  refine eq_refByte fun u hu => ?_
  rw [refByte_bit m' c w j hu]
  obtain ⟨hk, hp, ht⟩ := stream_position_lt (planes := c.planes) (q := 8 * j + u) hw (by omega)
  obtain ⟨hend, _⟩ := sample_bits_le hk hp
  exact congrArg (BitVec.getLsbD · _) (h _ _ hp (by omega))

/-- Settles O25: the job is the same in both states, and so is the reference stream both runs write. -/
theorem routinesArePure : Obligations.RoutinesArePure := by
  intro i a planes w s s' hi hR hS hbacked htable hplanes
  have hc : Job.start a planes s'.mem = Job.start a planes s.mem := Job.start_congr htable
  have hR' : Ready a planes w s' := by
    obtain ⟨hA, hN, hb⟩ := hR
    exact ⟨hA, hN, by rw [hc, hbacked]; exact hb⟩
  have hS' : Separate a planes s' := by rw [Separate, hc]; exact hS
  obtain ⟨t, ht, ⟨⟨_, hresp, _⟩, _⟩, hout⟩ := exec_outByte hi hR hS
  obtain ⟨t', ht', ⟨⟨_, hresp', _⟩, _⟩, hout'⟩ := exec_outByte hi hR' hS'
  rw [hc] at hout'
  refine ⟨t, t', ht, ht', hresp, hresp', fun j hj => ?_⟩
  calc outByte t'.mem (Job.start a planes s.mem) j = refByte s'.mem (Job.start a planes s.mem) w j := hout' j hj
    _ = refByte s.mem (Job.start a planes s.mem) w j := refByte_congr (routineOf_dvd hi hR.1) hj hplanes
    _ = outByte t.mem (Job.start a planes s.mem) j := (hout j hj).symm

end Sys2Proof.Machine
end

section
/-! Dispatch without memory access (R82, R84, R86, R87): what a format T word is answered with where its length or its
plane count is zero, or where it fails the checks of its depth and plane count. -/

namespace Sys2Proof.Machine

/-- The entry of the dispatch table runs with the count's planes at the table's depth. -/
theorem routineOf_dispatchRow (a : TransferArgs) (np : BitVec 32) (d : Depth) :
    routineOf (dispatchRow a np d) = some (a, planeCount np, d.bits) := by
  refine dispatchRow_cases (P := fun np row => routineOf (row d) = some (a, planeCount np, d.bits)) ?_ ?_
    (fun np _ _ => ?_) np <;> cases d <;> rfl

/-- The depths of `D` are the values of the BPS field that name one. -/
theorem exists_depth_of_inDepthSet {bps : BitVec 32} (h : InDepthSet bps.toInt) :
    ∃ d : Depth, bps = d.field ∧ bps.toInt = d.bits := by
  have named (d : Depth) (hd : bps.toInt = d.field.toInt) : ∃ d : Depth, bps = d.field ∧ bps.toInt = d.bits :=
    ⟨d, BitVec.toInt_inj.mp hd, hd.trans (by cases d <;> rfl)⟩
  rcases h with h | h | h | h | h | h
  · exact named .d1 h
  · exact named .d2 h
  · exact named .d4 h
  · exact named .d8 h
  · exact named .d12 h
  · exact named .d16 h

/-- R86, R87: with no byte or no plane to transcode, a command whose length passes the checks is answered OK at once. -/
theorem transcode_of_empty {a : TransferArgs} {planes w : Nat} {routine : Job → Datapath → Flow} {s : State}
    (hl : lengthCheck w a.nbytes.toInt = none) (h : a.nbytes.toInt = 0 ∨ planes = 0) :
    transcode a planes w routine s = .next (s.respond .ok 0#8 0#8) := by
  have hz : a.nbytes.toInt.toNat = 0 ∨ planes = 0 := h.imp_left fun h0 => by rw [h0]; rfl
  simp only [transcode, hl, if_pos hz]

theorem decode_of_lowWord {cw : CommandWord} (h : cw.extractLsb 31 0 = 1#32) :
    decode cw = decodeTranscode (transferArgs cw) (fieldNplanes cw) (fieldBps cw) := by
  obtain ⟨hop, hrsv⟩ := formatT_of_lowWord h
  exact decode_of_formatT hop hrsv

section Presented
variable {s : State} {cw : CommandWord} {rest : List CommandWord} (hpres : Presented s cw rest)
include hpres

theorem step_of_presented_error {st : Status} (hdec : decode cw = .error st) :
    step s = .next (s.answered cw rest (responseWord st 0#8 0#8)) :=
  step_of_decode_error (State.accept_idle_some hpres.1 hpres.2) hdec

/-- A TRANSCODE that passes the checks with no byte or no plane to transcode. -/
theorem step_of_presented_empty (hlow : cw.extractLsb 31 0 = 1#32)
    (hbps : InDepthSet (fieldBps cw).toInt) (hnp : 0 ≤ (fieldNplanes cw).toInt) (hn : 0 ≤ (fieldNbytes cw).toInt)
    (h12 : (fieldBps cw).toInt = 12 → (fieldNbytes cw).toInt % 3 = 0)
    (h16 : (fieldBps cw).toInt = 16 → (fieldNbytes cw).toInt % 2 = 0)
    (hempty : (fieldNbytes cw).toInt = 0 ∨ (fieldNplanes cw).toInt = 0) :
    step s = .next (s.answered cw rest 0#32) := by
  obtain ⟨d, hfield, hbits⟩ := exists_depth_of_inDepthSet hbps
  have hdec := (decode_of_lowWord hlow).trans (decodeTranscode_eq_ok_iff.mpr ⟨hnp, d, hfield, rfl⟩)
  have hlen : lengthCheck d.bits (transferArgs cw).nbytes.toInt = none :=
    lengthCheck_eq_none.mpr ⟨hn, fun h => h12 (by omega), fun h => h16 (by omega)⟩
  have hplanes : (fieldNbytes cw).toInt = 0 ∨ planeCount (fieldNplanes cw) = 0 :=
    hempty.imp_right fun h => by rw [planeCount, h]; rfl
  rw [step_of_decode_ok (State.accept_idle_some hpres.1 hpres.2) hdec, exec_eq_transcode (routineOf_dispatchRow _ _ d),
    transcode_of_empty hlen hplanes]
  rfl

end Presented

/-- A depth in 1..16 and outside `D`, whatever the count that is not negative (R82 step 2, R173). -/
theorem decodeTranscode_of_unsupported {a : TransferArgs} {np bps : BitVec 32} (hlow : 1 ≤ bps.toInt)
    (hhigh : bps.toInt ≤ 16) (hbps : depthOf bps = none) (hnp : 0 ≤ np.toInt) :
    decodeTranscode a np bps = .error .unsupportedCombination := by
  have hrow (row : Depth → Instr) : routineAt row bps = .error .unsupportedCombination := by
    rw [routineAt, hbps]
  rcases decodeTranscode_cases a np bps with
    ⟨h, _⟩ | ⟨_, _, ⟨_, h⟩ | ⟨_, h⟩ | ⟨h, _⟩ | ⟨_, _, _, h⟩⟩
  · omega
  · exact h.trans (hrow _)
  · exact h.trans (hrow _)
  · omega
  · exact h.trans (hrow _)

/-- A negative plane count, whatever the depth in 1..16 (R82 step 2, R172). -/
theorem decodeTranscode_of_negative {a : TransferArgs} {np bps : BitVec 32} (hlow : 1 ≤ bps.toInt)
    (hhigh : bps.toInt ≤ 16) (hnp : np.toInt < 0) : decodeTranscode a np bps = .error .invalidPlaneCount := by
  rcases decodeTranscode_cases a np bps with
    ⟨h, _⟩ | ⟨_, _, ⟨h, _⟩ | ⟨h, _⟩ | ⟨_, h⟩ | ⟨h, _⟩⟩
  · omega
  · omega
  · omega
  · exact h
  · omega

/-- Settles O19: a zero length passes every length check, and the other checks come first. -/
theorem zeroLengthIsOk : Obligations.ZeroLengthIsOk := by
  intro s cw rest hpres hlow hn
  have hdec := decode_of_lowWord hlow
  have hn' : (fieldNbytes cw).toInt = 0 := hn
  refine ⟨fun hbps hnp => ?_, fun hbps hnp => ?_, fun h1 h16 hnp => ?_⟩
  · exact step_of_presented_empty hpres hlow hbps hnp hn'.ge (fun _ => by rw [hn']; rfl) (fun _ => by rw [hn']; rfl)
      (.inl hn')
  · have hbps' : fieldBps cw = 3#32 := BitVec.toInt_inj.mp hbps
    refine step_of_presented_error hpres (hdec.trans (decodeTranscode_of_unsupported ?_ ?_ ?_ hnp)) <;>
      rw [hbps'] <;> decide
  · have hnp' : (fieldNplanes cw).toInt = -1 := hnp
    exact step_of_presented_error hpres (hdec.trans (decodeTranscode_of_negative h1 h16 (by omega)))

/-- Settles O20: no plane, no access. -/
theorem zeroPlanesIsOk : Obligations.ZeroPlanesIsOk := by
  intro s cw rest hpres hlow hbps hnp hn h12 h16
  exact step_of_presented_empty hpres hlow hbps (Eq.ge hnp) hn h12 h16 (.inr hnp)

end Sys2Proof.Machine
end

section
/-! The fixed 3-plane family byte by byte (R101 to R108): the entries of the expansion tables, and the bytes each
routine writes for a group. A routine's output is the reference stream of R89, and the bytes a rule lists for a group
are that stream within the group. -/

namespace Sys2Proof.Machine

/-! The expansion tables. -/

/-- Settles O30: bit by bit, the sources of an entry (R101). -/
theorem tab3x1Relocates : Obligations.Tab3x1Relocates := fun x _ hq =>
  (BitVec.getLsbD_eq_getElem hq).trans (tab3x1_getElem x hq)

/-- Settles O31: bit by bit, the sources of an entry (R102). -/
theorem tab3x2Relocates : Obligations.Tab3x2Relocates := fun x _ hq =>
  (BitVec.getLsbD_eq_getElem hq).trans (tab3x2_getElem x hq)

/-! The output group by group. -/

/-- The group of two bytes, one sample, from each plane (R108). -/
theorem flip3x16_groupStream : GroupStream 3 16 2 fun x => [x 0 0, x 0 1, x 1 0, x 1 1, x 2 0, x 2 1] where
  length := fun _ => rfl
  bits := fun x r u hr hu => by
    have hsample : (8 * r + u) / 16 = r / 2 := by omega
    have hplace : (8 * r + u) % 16 = 8 * (r % 2) + u := by omega
    rw [hsample, hplace]
    interval_cases r <;> simp [Nat.div_eq_of_lt hu, Nat.mod_eq_of_lt hu, Nat.add_div_left]

/-- The reference stream's bytes of group `g` are those computed from the group's input bytes. -/
theorem GroupStream.refByte_eq {planes w gs spg : Nat} {X : (Nat → Nat → Byte) → List Byte}
    (h : GroupStream planes w gs X) {m : Memory} {c : Job} (hc : c.planes = planes) (hw : 0 < w)
    (hgs : 8 * gs = w * spg) (g : Nat) {r : Nat} (hr : r < planes * gs) :
    refByte m c w (planes * gs * g + r) = (X fun p b => inByte m c p (gs * g + b)).getD r 0 := by
  subst hc
  have hN : 0 < c.planes := Nat.pos_of_mul_pos_right (Nat.zero_lt_of_lt hr)
  refine byte_eq_of_msb fun u hu => ?_
  rw [refByte_bit m c w _ hu, refBit_group hw hN hgs, h.bits _ r u hr hu]

/-- What a ready routine with its output apart from what it reads does, by groups of `gs` input bytes of each plane. -/
theorem GroupStream.exec_groupByte {i : Instr} {a : TransferArgs} {planes w gs spg : Nat}
    {X : (Nat → Nat → Byte) → List Byte} (h : GroupStream planes w gs X) (hi : routineOf i = some (a, planes, w))
    (hw : 0 < w) (hgs : 8 * gs = w * spg) {s : State} (hR : Ready a planes w s) (hS : Separate a planes s) :
    ∃ t, exec i s = .next t ∧ Transcoded (Job.start a planes s.mem) s t ∧
      ∀ g r, g < (Job.start a planes s.mem).n / gs → r < planes * gs →
        outByte t.mem (Job.start a planes s.mem) (planes * gs * g + r)
          = (X fun p b => inByte s.mem (Job.start a planes s.mem) p (gs * g + b)).getD r 0 := by
  obtain ⟨t, ht, htr, hout⟩ := exec_outByte hi hR hS
  refine ⟨t, ht, htr, fun g r hg hr => ?_⟩
  have hroom : planes * gs * g + r < planes * (Job.start a planes s.mem).n :=
    calc planes * gs * g + r < planes * gs * (g + 1) := by rw [Nat.mul_succ]; omega
      _ = planes * (gs * (g + 1)) := Nat.mul_assoc ..
      _ ≤ planes * (Job.start a planes s.mem).n :=
        Nat.mul_le_mul_left planes ((Nat.mul_le_mul_left gs hg).trans (Nat.mul_div_le _ gs))
  rw [hout _ hroom, h.refByte_eq rfl hw hgs g hr]

/-- The same for the depths whose group is one byte of each plane. -/
theorem GroupStream.exec_planeByte {i : Instr} {a : TransferArgs} {planes w : Nat}
    {X : (Nat → Nat → Byte) → List Byte} (h : GroupStream planes w 1 X) (hi : routineOf i = some (a, planes, w))
    (hw : 0 < w) (hdvd : w ∣ 8) {s : State} (hR : Ready a planes w s) (hS : Separate a planes s) :
    ∃ t, exec i s = .next t ∧ Transcoded (Job.start a planes s.mem) s t ∧
      ∀ k r, k < (Job.start a planes s.mem).n → r < planes →
        outByte t.mem (Job.start a planes s.mem) (planes * k + r)
          = (X fun p b => inByte s.mem (Job.start a planes s.mem) p (k + b)).getD r 0 := by
  simpa only [Nat.mul_one, Nat.one_mul, Nat.div_one] using
    h.exec_groupByte hi hw (Nat.mul_div_cancel' hdvd).symm hR hS

/-- The same for three planes, byte after byte. -/
theorem GroupStream.exec_threeBytes {i : Instr} {a : TransferArgs} {w : Nat} {X : (Nat → Nat → Byte) → List Byte}
    (h : GroupStream 3 w 1 X) (hi : routineOf i = some (a, 3, w)) (hw : 0 < w) (hdvd : w ∣ 8) {s : State}
    (hR : Ready a 3 w s) (hS : Separate a 3 s) :
    let c := Job.start a 3 s.mem
    ∃ t, exec i s = .next t ∧ Transcoded c s t ∧
      ∀ k, k < c.n →
        let group := X fun p b => inByte s.mem c p (k + b)
        outByte t.mem c (3 * k) = group.getD 0 0 ∧ outByte t.mem c (3 * k + 1) = group.getD 1 0 ∧
        outByte t.mem c (3 * k + 2) = group.getD 2 0 := by
  obtain ⟨t, ht, htr, hout⟩ := h.exec_planeByte hi hw hdvd hR hS
  exact ⟨t, ht, htr, fun k hk =>
    ⟨hout k 0 hk (by decide), hout k 1 hk (by decide), hout k 2 hk (by decide)⟩⟩

/-! The six routines. -/

/-- Settles O32: the group is the three bytes of B24 (R103). -/
theorem flip3x1Bytes : Obligations.Flip3x1Bytes := fun a _ hR hS =>
  flip3x1_groupStream.exec_threeBytes (i := .flip3x1 a) rfl (by decide) (by decide) hR hS

/-- Settles O33: the group is the three bytes of B24 (R104). -/
theorem flip3x2Bytes : Obligations.Flip3x2Bytes := fun a _ hR hS =>
  flip3x2_groupStream.exec_threeBytes (i := .flip3x2 a) rfl (by decide) (by decide) hR hS

/-- Settles O34: the group is the three nibble pairs (R105). -/
theorem flip3x4Bytes : Obligations.Flip3x4Bytes := fun a _ hR hS =>
  flip3x4_groupStream.exec_threeBytes (i := .flip3x4 a) rfl (by decide) (by decide) hR hS

/-- Settles O35: the group is one byte of each plane, in order (R106). -/
theorem flip3x8Bytes : Obligations.Flip3x8Bytes := by
  intro a s hR hS
  obtain ⟨t, ht, htr, hout⟩ :=
    flip3x8_groupStream.exec_planeByte (i := .flip3x8 a) rfl (by decide) (by decide) hR hS
  refine ⟨t, ht, htr, fun i p hi hp => (hout i p hi hp).trans ?_⟩
  interval_cases p <;> rfl

/-- Settles O36: the group is the nine bytes of R107. -/
theorem flip3x12Bytes : Obligations.Flip3x12Bytes := by
  intro a s hR hS
  obtain ⟨t, ht, htr, hout⟩ :=
    flip3x12_groupStream.exec_groupByte (i := .flip3x12 a) (spg := 2) rfl (by decide) rfl hR hS
  refine ⟨t, ht, htr, fun g hg => ?_⟩
  have hbyte (r : Nat) (hr : r < 9) := hout g r hg hr
  exact ⟨hbyte 0 (by decide), hbyte 1 (by decide), hbyte 2 (by decide), hbyte 3 (by decide), hbyte 4 (by decide),
    hbyte 5 (by decide), hbyte 6 (by decide), hbyte 7 (by decide), hbyte 8 (by decide)⟩

/-- Settles O37: the group is one sample of each plane, in order (R108). -/
theorem flip3x16Bytes : Obligations.Flip3x16Bytes := by
  intro a s hR hS
  obtain ⟨t, ht, htr, hout⟩ :=
    flip3x16_groupStream.exec_groupByte (i := .flip3x16 a) (spg := 1) rfl (by decide) rfl hR hS
  refine ⟨t, ht, htr, fun k p hk hp => ?_⟩
  have hfst := hout k (2 * p) hk (by omega)
  have hsnd := hout k (2 * p + 1) hk (by omega)
  refine ⟨hfst.trans ?_, hsnd.trans ?_⟩ <;> interval_cases p <;> rfl

end Sys2Proof.Machine
end

section
/-! The fixed 4-plane family byte by byte (R121 to R126). As for three planes, the bytes a rule lists for a group are the
reference stream of R89 within the group; what the two stages of R121 and R122 do to a group's bits is in
`flip4x1_groupStream` and `flip4x2_groupStream`. -/

namespace Sys2Proof.Machine

/-! The output group by group. -/

/-- Four planes, one byte of each to a group: the output byte after byte. -/
theorem GroupStream.exec_fourBytes {i : Instr} {a : TransferArgs} {w : Nat} {X : (Nat → Nat → Byte) → List Byte}
    (h : GroupStream 4 w 1 X) (hi : routineOf i = some (a, 4, w)) (hw : 0 < w) (hdvd : w ∣ 8) {s : State}
    (hR : Ready a 4 w s) (hS : Separate a 4 s) :
    let c := Job.start a 4 s.mem
    ∃ t, exec i s = .next t ∧ Transcoded c s t ∧
      ∀ k, k < c.n →
        let group := X fun p b => inByte s.mem c p (k + b)
        outByte t.mem c (4 * k) = group.getD 0 0 ∧ outByte t.mem c (4 * k + 1) = group.getD 1 0 ∧
        outByte t.mem c (4 * k + 2) = group.getD 2 0 ∧ outByte t.mem c (4 * k + 3) = group.getD 3 0 := by
  obtain ⟨t, ht, htr, hout⟩ := h.exec_planeByte hi hw hdvd hR hS
  exact ⟨t, ht, htr, fun k hk =>
    ⟨hout k 0 hk (by decide), hout k 1 hk (by decide), hout k 2 hk (by decide), hout k 3 hk (by decide)⟩⟩

/-- One two-byte sample of each plane, for any number of planes: a depth-16 group is its input bytes, plane after
plane. -/
theorem sample16_groupStream (planes : Nat) :
    GroupStream planes 16 2 fun x => (List.range (planes * 2)).map fun r => x (r / 2) (r % 2) where
  length := fun x => by rw [List.length_map, List.length_range]
  bits := fun x r u hr hu => by
    have hsample : (8 * r + u) / 16 = r / 2 := by omega
    have hplace : (8 * r + u) % 16 = 8 * (r % 2) + u := by omega
    have hp : r / 2 < planes := by omega
    have hbyte : (8 * (r % 2) + u) / 8 = r % 2 := by omega
    have hbit : (8 * (r % 2) + u) % 8 = u := by omega
    rw [hsample, hplace, Nat.mod_eq_of_lt hp, Nat.div_eq_of_lt hp, Nat.zero_mul, Nat.zero_add, hbyte, hbit]
    simp [hr]

/-- A ready depth-16 routine with its output apart from what it reads copies each sample's two bytes in order. -/
theorem exec_sample16 {i : Instr} {a : TransferArgs} {planes : Nat} (hi : routineOf i = some (a, planes, 16))
    {s : State} (hR : Ready a planes 16 s) (hS : Separate a planes s) :
    let c := Job.start a planes s.mem
    ∃ t, exec i s = .next t ∧ Transcoded c s t ∧
      ∀ k p b, k < c.n / 2 → p < planes → b < 2 →
        outByte t.mem c (planes * 2 * k + (2 * p + b)) = inByte s.mem c p (2 * k + b) := by
  obtain ⟨t, ht, htr, hout⟩ :=
    (sample16_groupStream planes).exec_groupByte hi (spg := 1) (by decide) rfl hR hS
  refine ⟨t, ht, htr, fun k p b hk hp hb => ?_⟩
  have hr : 2 * p + b < planes * 2 := by omega
  have hplane : (2 * p + b) / 2 = p := by omega
  have hplace : (2 * p + b) % 2 = b := by omega
  rw [hout k _ hk hr]
  simp [hr, hplane, hplace]

/-! The six routines. -/

/-- Settles O40: the group is the nibble assembly of the four bytes after the two stages (R121). -/
theorem flip4x1Bytes : Obligations.Flip4x1Bytes := fun a _ hR hS =>
  flip4x1_groupStream.exec_fourBytes (i := .flip4x1 a) rfl (by decide) (by decide) hR hS

/-- Settles O41: the group is the four bytes after the two stages (R122). -/
theorem flip4x2Bytes : Obligations.Flip4x2Bytes := fun a _ hR hS =>
  flip4x2_groupStream.exec_fourBytes (i := .flip4x2 a) rfl (by decide) (by decide) hR hS

/-- Settles O42: the group is the four nibble pairs (R123). -/
theorem flip4x4Bytes : Obligations.Flip4x4Bytes := fun a _ hR hS =>
  flip4x4_groupStream.exec_fourBytes (i := .flip4x4 a) rfl (by decide) (by decide) hR hS

/-- Settles O43: the group is one byte of each plane, in order (R124). -/
theorem flip4x8Bytes : Obligations.Flip4x8Bytes := by
  intro a s hR hS
  obtain ⟨t, ht, htr, hout⟩ :=
    flip4x8_groupStream.exec_planeByte (i := .flip4x8 a) rfl (by decide) (by decide) hR hS
  refine ⟨t, ht, htr, fun i p hi hp => (hout i p hi hp).trans ?_⟩
  interval_cases p <;> rfl

/-- Settles O44: the group is the twelve bytes of R125. -/
theorem flip4x12Bytes : Obligations.Flip4x12Bytes := by
  intro a s hR hS
  obtain ⟨t, ht, htr, hout⟩ :=
    flip4x12_groupStream.exec_groupByte (i := .flip4x12 a) (spg := 2) rfl (by decide) rfl hR hS
  refine ⟨t, ht, htr, fun g hg => ?_⟩
  have hbyte (r : Nat) (hr : r < 12) := hout g r hg hr
  exact ⟨hbyte 0 (by decide), hbyte 1 (by decide), hbyte 2 (by decide), hbyte 3 (by decide), hbyte 4 (by decide),
    hbyte 5 (by decide), hbyte 6 (by decide), hbyte 7 (by decide), hbyte 8 (by decide), hbyte 9 (by decide),
    hbyte 10 (by decide), hbyte 11 (by decide)⟩

/-- Settles O45: the group is one sample of each plane, in order (R126). -/
theorem flip4x16Bytes : Obligations.Flip4x16Bytes := by
  intro a s hR hS
  obtain ⟨t, ht, htr, hout⟩ := exec_sample16 (i := .flip4x16 a) rfl hR hS
  exact ⟨t, ht, htr, fun k p hk hp => ⟨hout k p 0 hk hp (by decide), hout k p 1 hk hp (by decide)⟩⟩

end Sys2Proof.Machine
end

section
/-! No command is answered RangeCheck (R153 item 2, R175): the decoder has no such status, and a routine that cannot
fail answers what its length check or the skeleton answers. -/

namespace Sys2Proof

theorem routineAt_error_status {row : Depth → Instr} {bps : BitVec 32} {st : Status}
    (h : routineAt row bps = .error st) : st = .unsupportedCombination := by
  rcases routineAt_cases row bps with ⟨d, _, hrow⟩ | ⟨_, hrow⟩
  · cases hrow.symm.trans h
  · cases hrow.symm.trans h
    rfl

/-- The statuses of R82 steps 1 and 2. -/
theorem decodeTranscode_error_status {a : TransferArgs} {np bps : BitVec 32} {st : Status}
    (h : decodeTranscode a np bps = .error st) :
    st = .invalidBitDepth ∨ st = .invalidPlaneCount ∨ st = .unsupportedCombination := by
  rcases decodeTranscode_cases a np bps with
    ⟨_, hdec⟩ | ⟨_, _, ⟨_, hdec⟩ | ⟨_, hdec⟩ | ⟨_, hdec⟩ | ⟨_, _, _, hdec⟩⟩
  · cases hdec.symm.trans h
    exact .inl rfl
  · exact .inr (.inr (routineAt_error_status (hdec.symm.trans h)))
  · exact .inr (.inr (routineAt_error_status (hdec.symm.trans h)))
  · cases hdec.symm.trans h
    exact .inr (.inl rfl)
  · exact .inr (.inr (routineAt_error_status (hdec.symm.trans h)))

/-- RangeCheck is no status of the decoder (R82, R177). -/
theorem decode_error_ne_rangeCheck {cw : CommandWord} {st : Status} (h : decode cw = .error st) :
    st ≠ .rangeCheck := by
  rcases decode_cases cw with ⟨hdec, _⟩ | ⟨_, _, hdec⟩ | ⟨_, _, _, _, hdec⟩
  · cases hdec.symm.trans h
    nofun
  · rcases decodeTranscode_error_status (hdec.symm.trans h) with rfl | rfl | rfl <;> nofun
  · cases hdec.symm.trans h

namespace Machine

theorem statusCode_eq_four_iff {st : Status} : statusCode st = 4#4 ↔ st = .rangeCheck := by
  cases st <;> simp [statusCode]

theorem State.accept_responses {s s' : State} (h : s.accept = some s') : s'.responses = s.responses := by
  cases hport : s.port with
  | busy =>
    cases (State.accept_busy hport).symm.trans h
    rfl
  | idle =>
    cases hcommands : s.commands with
    | nil => cases (State.accept_idle_none hport hcommands).symm.trans h
    | cons cw rest =>
      cases (State.accept_idle_some hport hcommands).symm.trans h
      rfl

/-- The skeleton around a routine that never fails answers with a status of its own. -/
theorem transcode_status {a : TransferArgs} {planes w : Nat} {routine : Job → Datapath → Flow} {s t : State}
    (hr : ∀ c d, ∃ e, routine c d = .done e) (ht : transcode a planes w routine s = .next t) :
    ∃ st, st ≠ .rangeCheck ∧ Answered s t (responseWord st 0#8 0#8) := by
  rcases transcode_cases a planes w routine s with
    ⟨_, h⟩ | ⟨_, _, h⟩ | ⟨_, _, _, ⟨_, h⟩ | ⟨_, ⟨d, _, h⟩ | ⟨st, d, hfail, _⟩⟩⟩
  · cases h.symm.trans ht
    exact ⟨.invalidArgument, nofun, rfl, rfl, rfl, rfl, rfl⟩
  · cases h.symm.trans ht
    exact ⟨.ok, nofun, rfl, rfl, rfl, rfl, rfl⟩
  · cases h.symm.trans ht
  · cases h.symm.trans ht
    exact ⟨.ok, nofun, answered_settle_respond s d _ _ _ _⟩
  · obtain ⟨e, hdone⟩ := hr (Job.start a planes s.mem) (s.datapath.setPp (Job.start a planes s.mem).pp)
    cases hdone.symm.trans hfail

/-- R153 item 2, for whatever the skeleton runs. -/
theorem runOf_done (i : Instr) (c : Job) (d : Datapath) : ∃ e, runOf i c d = .done e := by
  obtain ⟨f, _, hrun⟩ := runOf_latchFree i c
  exact ⟨f d, hrun d⟩

theorem exec_status {i : Instr} {s t : State} (ht : exec i s = .next t) :
    ∃ st rr rs, st ≠ .rangeCheck ∧ Answered s t (responseWord st rr rs) := by
  rcases routineOf_or_xpose i with ⟨a, planes, w, hi⟩ | ⟨r, u, mask, shift, rfl⟩
  · rw [exec_eq_transcode hi] at ht
    obtain ⟨st, hst, hans⟩ := transcode_status (runOf_done i) ht
    exact ⟨st, _, _, hst, hans⟩
  · cases ht
    exact ⟨.ok, _, _, nofun, rfl, rfl, rfl, rfl, rfl⟩

/-- What a step adds to the responses: nothing, or one word whose status is not RangeCheck. -/
theorem step_responses {s t : State} (ht : step s = .next t) :
    t.responses = s.responses ∨
      ∃ st rr rs, st ≠ .rangeCheck ∧ t.responses = s.responses ++ [responseWord st rr rs] := by
  cases hacc : s.accept with
  | none =>
    cases (step_of_accept_none hacc).symm.trans ht
    exact .inl rfl
  | some s' =>
    rw [← State.accept_responses hacc]
    cases hdec : decode s'.cmd with
    | error st =>
      cases (step_of_decode_error hacc hdec).symm.trans ht
      exact .inr ⟨st, _, _, decode_error_ne_rangeCheck hdec, State.fail_responses s' st⟩
    | ok i =>
      obtain ⟨st, rr, rs, hst, _, hresponses, _⟩ := exec_status ((step_of_decode_ok hacc hdec).symm.trans ht)
      exact .inr ⟨st, rr, rs, hst, hresponses⟩

/-- Settles O8: the word a step adds is one whose status is not RangeCheck. -/
theorem rangeCheckNeverDelivered : Obligations.RangeCheckNeverDelivered := by
  intro s t rw ht hadded
  rcases step_responses ht with hnone | ⟨st, rr, rs, hst, hone⟩
  · simp [hnone] at hadded
  · obtain rfl : responseWord st rr rs = rw := by simpa [hone] using hadded
    rw [(responseWord_fields st rr rs).1, Ne, statusCode_eq_four_iff]
    exact hst

end Machine
end Sys2Proof
end

section
/-! The samples of the generic path (R141, R144) and its output at the depths that are whole bytes (R150, R152). -/

namespace Sys2Proof.Machine

/-- Settles O48: an aligned sample of a packer depth lies within one byte, whose field is extracted. -/
theorem extractGivesSample : Obligations.ExtractGivesSample := by
  intro c d p bi w hw halign
  refine ⟨fun hpast => if_pos hpast, fun hin => ?_⟩
  refine ⟨extractField (d.plane c p (bi / 8)) (bi % 8) w, if_neg (Nat.not_lt.mpr hin),
    extractField_lt _ _ (by omega), fun t ht => ?_⟩
  have hroom : bi % 8 + w ≤ 8 := by rcases hw with rfl | rfl | rfl | rfl <;> omega
  have hbyte : (bi + t) / 8 = bi / 8 := by omega
  have hplace : (bi + t) % 8 = bi % 8 + t := by omega
  rw [extractField_getLsbD _ hroom ht, streamBit, hbyte, hplace]
  rfl

/-- Settles O49: a multiple of 12 starts at bit 0 or bit 4 of a byte, the two alignments of R144. -/
theorem extract12GivesSample : Obligations.Extract12GivesSample := fun c d p bi halign _ =>
  ⟨(extract12 c p bi d).lat.v, rfl, extract12_v_lt c p bi d, fun _ ht =>
    extract12_v_getLsbD c p d (by omega) ht⟩

/-- At depth 8 the reference stream takes one byte of each plane in turn (R150). -/
theorem refByte_depth8 (m : Memory) {c : Job} {k p : Nat} (hp : p < c.planes) :
    refByte m c 8 (k * c.planes + p) = inByte m c p k := by
  refine (eq_refByte fun u hu => ?_).symm
  rw [Nat.mul_comm 8, refBit_sample m c hp hu, streamBit, show (k * 8 + u) / 8 = k by omega,
    show (k * 8 + u) % 8 = u by omega]
  rfl

/-- Settles O52: the output is the reference stream, which at depth 8 is made of whole input bytes. -/
theorem flipnx8Bytes : Obligations.Flipnx8Bytes := by
  intro a np s hR hS
  obtain ⟨t, ht, htr, hout⟩ := exec_outByte (i := .flipnx8 a np) rfl hR hS
  refine ⟨t, ht, htr, fun k p hk hp => ?_⟩
  have hroom := (sample_end_le hk hp).trans_eq (Nat.mul_comm _ _)
  rw [hout _ hroom, refByte_depth8 s.mem hp]

/-- Settles O53: as every depth-16 routine, FLIPNX16 copies each sample's two bytes in order. -/
theorem flipnx16Bytes : Obligations.Flipnx16Bytes := by
  intro a np s hR hS
  obtain ⟨t, ht, htr, hout⟩ := exec_sample16 (i := .flipnx16 a np) rfl hR hS
  refine ⟨t, ht, htr, fun k p b hk hp hb => ?_⟩
  have hplace : 2 * (k * planeCount np + p) + b = planeCount np * 2 * k + (2 * p + b) := by ring
  exact (congrArg _ hplace).trans (hout k p b hk hp hb)

end Sys2Proof.Machine
end

section
/-! The bit cursor at the end of a generic routine (R153 items 1 and 4): the fields appended fill whole bytes. -/

namespace Sys2Proof.Machine

/-- The packer's step advances the cursor by one field (R146). -/
theorem Advanced.readField_appendBits {c : Job} {m : Memory} {w q : Nat} {d : Datapath}
    (h : Advanced c m (q * w) d) (hw : w = 1 ∨ w = 2 ∨ w = 4 ∨ w = 8) (bi p : Nat) :
    Advanced c m ((q + 1) * w) (Machine.appendBits w (readField c w bi p d)) := by
  have hread : Advanced c m (q * w) (readField c w bi p d) := h.of_eq rfl rfl
  have hroom : q * w % 8 + w ≤ 8 := by rcases hw with rfl | rfl | rfl | rfl <;> omega
  rw [Nat.succ_mul]
  exact hread.appendBits (by omega) hroom (extractField_lt _ _ (by omega))

/-- The step of R151 advances the cursor by one 12-bit field. -/
theorem Advanced.packField12 {c : Job} {m : Memory} {q : Nat} {d : Datapath} (h : Advanced c m (q * 12) d)
    (bi p : Nat) : Advanced c m ((q + 1) * 12) (Machine.packField12 c bi p d) := by
  have hread : Advanced c m (q * 12) (extract12 c p bi (d.atBit bi p)) := h.of_eq rfl rfl
  rw [Nat.succ_mul]
  exact hread.append12 (by omega)

/-- The bit cursor just past the output, with nothing pending. -/
def Job.endCursor (c : Job) : BitCursor := ⟨c.outAddr (c.planes * c.n), 0, 0#8⟩

/-- A routine that starts the cursor, appends `w` bits for every sample of every plane and flushes, where the
samples fill the plane: no bit is pending at the flush. -/
theorem cursor_of_packing {c : Job} {w : Nat} {step : Nat → Nat → Datapath → Datapath} (hn : w ∣ 8 * c.n)
    (hstep : ∀ k p q {m : Memory} {d : Datapath}, Advanced c m (q * w) d → Advanced c m ((q + 1) * w) (step k p d))
    (d : Datapath) :
    (flush (forUp (8 * c.n / w) (fun k d => forUp c.planes (step k) d) (startCursor c d))).lat.cursor
      = c.endCursor := by
  have hstart : Advanced c d.mem (0 * w) (startCursor c d) := by
    rw [Nat.zero_mul]
    exact Advanced.start c d
  have hloop := forUp_nested (pre := fun _ y => y) (fun q y => Advanced c d.mem (q * w) y) hstart
    (fun _ _ _ h => h) fun k p (_ : k < 8 * c.n / w) (_ : p < c.planes) y h => hstep k p (k * c.planes + p) h
  have hsize : 8 * c.n / w * c.planes * w = 8 * (c.planes * c.n) := by
    rw [Nat.mul_right_comm, Nat.div_mul_cancel hn]
    ring
  rw [hsize] at hloop
  obtain ⟨hflush, hcursor⟩ := hloop.flush (Nat.mul_mod_right 8 _)
  rw [hflush, hcursor, Nat.mul_div_cancel_left _ (by decide)]
  rfl

theorem packerRun_cursor {w : Nat} (hw : w = 1 ∨ w = 2 ∨ w = 4 ∨ w = 8) (c : Job) (d : Datapath) :
    (packerRun w c d).lat.cursor = c.endCursor :=
  cursor_of_packing (by rcases hw with rfl | rfl | rfl | rfl <;> omega)
    (fun k p _ _ _ h => h.readField_appendBits hw (k * w) p) d

theorem packer12_cursor {c : Job} (hn : 12 ∣ 8 * c.n) (d : Datapath) :
    (packer12 c d).lat.cursor = c.endCursor :=
  cursor_of_packing hn (fun k p _ _ _ h => h.packField12 (k * 12) p) d

/-- The routines of R146 and R151 run to their end and leave the cursor empty, just past the output. -/
theorem runOf_endCursor {i : Instr} {a : TransferArgs} {np : BitVec 32} {w : Nat}
    (hi : (i, w) ∈ [(Instr.flipnx1 a np, 1), (.flipnx2 a np, 2), (.flipnx4 a np, 4), (.flipnx8 a np, 8),
      (.flipnx12 a np, 12)]) {c : Job} (hn : w ∣ 8 * c.n) (d : Datapath) :
    ∃ e, runOf i c d = .done e ∧ e.lat.cursor = c.endCursor := by
  simp only [List.mem_cons, List.not_mem_nil, or_false, Prod.mk.injEq] at hi
  rcases hi with ⟨rfl, rfl⟩ | ⟨rfl, rfl⟩ | ⟨rfl, rfl⟩ | ⟨rfl, rfl⟩ | ⟨rfl, rfl⟩
  · exact ⟨_, packer_eq_done 1 c d, packerRun_cursor (by simp) c d⟩
  · exact ⟨_, packer_eq_done 2 c d, packerRun_cursor (by simp) c d⟩
  · exact ⟨_, packer_eq_done 4 c d, packerRun_cursor (by simp) c d⟩
  · exact ⟨_, packer_eq_done 8 c d, packerRun_cursor (by simp) c d⟩
  · exact ⟨_, rfl, packer12_cursor hn d⟩

/-- Settles O57: an admitted length is a whole number of samples, and settling the output keeps the cursor. -/
theorem cursorEndsPastOutput : Obligations.CursorEndsPastOutput := by
  intro i a np w s hmem hR
  have hi : routineOf i = some (a, planeCount np, w) :=
    (runOf_generic (List.mem_append_left [(.flipnx16 a np, 16)] hmem)).1
  obtain ⟨d, hrun, hcursor⟩ := runOf_endCursor hmem (c := Job.start a (planeCount np) s.mem)
    (routineOf_dvd hi hR.1) (s.datapath.setPp (Job.start a (planeCount np) s.mem).pp)
  obtain ⟨t, ht, hlat⟩ := exec_lat_of_done hi hR hrun
  exact ⟨t, ht, (congrArg Latches.cursor hlat).trans hcursor⟩

end Sys2Proof.Machine
end

section
/-! Dispatch that fails (R54, R82, R171 to R174, R177): the words a check of the decoder or the length check answers. -/

namespace Sys2Proof.Machine

/-- A depth outside 1..16, whatever the other operands (R82 step 1, R171). -/
theorem decodeTranscode_of_badDepth {a : TransferArgs} {np bps : BitVec 32} (h : bps.toInt < 1 ∨ 16 < bps.toInt) :
    decodeTranscode a np bps = .error .invalidBitDepth := by
  rcases decodeTranscode_cases a np bps with ⟨_, hdec⟩ | ⟨hlow, hhigh, _⟩
  · exact hdec
  · omega

/-- A BPS field that names a depth reads as a member of `D`. -/
theorem inDepthSet_field (d : Depth) : InDepthSet d.field.toInt := by
  unfold InDepthSet
  cases d <;> decide

theorem depthOf_eq_none_of_not_inDepthSet {bps : BitVec 32} (h : ¬ InDepthSet bps.toInt) : depthOf bps = none := by
  cases hd : depthOf bps with
  | none => rfl
  | some d =>
    obtain rfl := depthOf_eq_some hd
    exact absurd (inDepthSet_field d) h

/-- R174: a length the checks do not pass is answered InvalidArgument, with no other effect. -/
theorem transcode_of_badLength {a : TransferArgs} {planes w : Nat} {routine : Job → Datapath → Flow} {s : State}
    (h : lengthCheck w a.nbytes.toInt ≠ none) :
    transcode a planes w routine s = .next (s.fail .invalidArgument) := by
  rcases transcode_cases a planes w routine s with ⟨_, hfail⟩ | ⟨hnone, _⟩ | ⟨hnone, _⟩
  · exact hfail
  · exact absurd hnone h
  · exact absurd hnone h

/-- Settles O14: the first check, before any other operand is looked at. -/
theorem badDepthIsInvalidBitDepth : Obligations.BadDepthIsInvalidBitDepth := by
  intro s cw rest hpres hlow hbps
  exact step_of_presented_error hpres ((decode_of_lowWord hlow).trans (decodeTranscode_of_badDepth hbps))

/-- Settles O15: no routine is looked up for a negative count. -/
theorem negativeCountIsInvalidPlaneCount : Obligations.NegativeCountIsInvalidPlaneCount := by
  intro s cw rest hpres hlow h1 h16 hnp
  exact step_of_presented_error hpres ((decode_of_lowWord hlow).trans (decodeTranscode_of_negative h1 h16 hnp))

/-- Settles O16: a depth outside `D` has no routine in any row of the dispatch table. -/
theorem otherDepthIsUnsupported : Obligations.OtherDepthIsUnsupported := by
  intro s cw rest hpres hlow h1 h16 hbps hnp
  have hnone : depthOf (fieldBps cw) = none := depthOf_eq_none_of_not_inDepthSet hbps
  exact step_of_presented_error hpres
    ((decode_of_lowWord hlow).trans (decodeTranscode_of_unsupported h1 h16 hnone hnp))

/-- Settles O17: the word decodes to a routine, whose length check fails. -/
theorem badLengthIsInvalidArgument : Obligations.BadLengthIsInvalidArgument := by
  intro s cw rest hpres hlow hbps hnp hbad
  obtain ⟨d, hfield, hbits⟩ := exists_depth_of_inDepthSet hbps
  have hdec : decode cw = .ok (dispatchRow (transferArgs cw) (fieldNplanes cw) d) :=
    (decode_of_lowWord hlow).trans (decodeTranscode_eq_ok_iff.mpr ⟨hnp, d, hfield, rfl⟩)
  have hlen : lengthCheck d.bits (transferArgs cw).nbytes.toInt ≠ none := by
    intro hnone
    obtain ⟨hn, h12, h16⟩ := lengthCheck_eq_none.mp hnone
    rcases hbad with hneg | ⟨hw, h3⟩ | ⟨hw, h2⟩
    · exact absurd hneg hn.not_gt
    · exact h3 (h12 (by omega))
    · exact h2 (h16 (by omega))
  rw [step_of_decode_ok (State.accept_idle_some hpres.1 hpres.2) hdec, exec_eq_transcode (routineOf_dispatchRow _ _ d),
    transcode_of_badLength hlen]
  rfl

/-- Settles O18: the decoder finds the bits illegal, whatever the operands. -/
theorem illegalWordIsIllegalCommand : Obligations.IllegalWordIsIllegalCommand := by
  intro s cw rest hpres hbits
  exact step_of_presented_error hpres (decode_eq_illegalCommand_iff.mpr hbits)

end Sys2Proof.Machine
end

section
/-! The reset input (R200) and the output that overlaps what the command reads (R205, U5; notes/assumptions/2.md). -/

namespace Sys2Proof.Machine

/-- Settles O10: the reset input changes the port state, the command latch and the transient latches alone. -/
theorem resetInputKeepsMemory : Obligations.ResetInputKeepsMemory := fun s =>
  ⟨s.resetCore_port, s.resetCore_mem, s.resetCore_responses, s.resetCore_commands, s.resetCore_backed⟩

/-- Filling the first `n` output bytes with values fixed in advance is progress to `n`: no two of them share an
address. -/
theorem Progress.fill (c : Job) (bytes : Nat → Byte) {n : Nat} (hn : n ≤ 2 ^ 32) (d : Datapath) :
    Progress c d.mem bytes n (forUp n (fun j y => y.out c j (bytes j)) d) :=
  forUp_induction (Progress c d.mem bytes) (Progress.start c bytes d) fun _ hk _ hy =>
    hy.memWrite (le_trans hk hn) rfl

theorem State.freeOutput_freeIx (s : State) (c : Job) :
    (s.freeOutput c).freeIx = s.freeIx + c.planes * c.n := rfl

/-- Each byte of a freed output that fits in the address space is the free value of its index. -/
theorem State.freeOutput_outByte (s : State) {c : Job} (hroom : c.planes * c.n ≤ 2 ^ 32) {j : Nat}
    (hj : j < c.planes * c.n) : outByte (s.freeOutput c).mem c j = Config.overlapByte (s.freeIx + j) := by
  obtain ⟨hbytes, _⟩ := Progress.fill c (fun j => Config.overlapByte (s.freeIx + j)) hroom s.datapath
  exact hbytes j hj

/-- Settles O23: every routine runs to its end without touching the counter, and settling then frees the output,
whatever the routine wrote there. -/
theorem overlappedOutputIsFree : Obligations.OverlappedOutputIsFree := by
  intro i a planes w s hi hR hover hroom
  obtain ⟨d, hrun⟩ := runOf_done i (Job.start a planes s.mem) (s.datapath.setPp (Job.start a planes s.mem).pp)
  refine ⟨_, exec_of_done hi hR hrun, ?_, fun j hj => ?_⟩
  · rw [State.respond_freeIx, State.settle_of_overlap hover, State.freeOutput_freeIx, State.withDatapath_freeIx]
    rfl
  · rw [State.respond_mem, State.settle_of_overlap hover]
    exact State.freeOutput_outByte (s.withDatapath d) hroom hj

end Sys2Proof.Machine
end
